-- ==== Sys2Proof/Word.lean ====
section
/-! DEFINITION. The words of KPE: bytes, byte strings, lanes and command words (00_scope.md R8, R10, R11). -/

namespace Sys2Proof

/-- A byte is 8 bits (R10). -/
abbrev Byte := BitVec 8

/-- A byte string is a finite sequence of bytes, possibly empty (R10). -/
abbrev Bytes := List Byte

/-- A lane is one of the 25 words of 64 bits of the permutation state (R21). -/
abbrev Lane := BitVec 64

/-- A command is one 32-bit word (R90). -/
abbrev Word := BitVec 32

end Sys2Proof
end

