-- ==== Sys2Proof/Config.lean ====
section
/-! DEFINITION. What one KPE fixes before execution: the named parameters BMAX and CURVE of 00_scope.md R7 and
93_implementation_defined.md part 2, at the values R7 gives. KPE has no free value ("no `any value` and no
`stuck` outcome anywhere"), so this file declares no opaque constant. -/

namespace Sys2Proof

/-- The parameter CURVE (44_curve.md R231): the curve x^2 + y^2 = 1 + d x^2 y^2 over the integers modulo the field
prime `P`, the prime group order `R`, and the coordinates of the base point G. -/
structure Curve where
  P  : Nat
  d  : Nat
  R  : Nat
  gx : Nat
  gy : Nat
deriving DecidableEq, Repr

/-- The default instance of R231, E-521 with G = (4, yG). -/
def Config.e521 : Curve where
  P  := 2 ^ 521 - 1
  d  := 2 ^ 521 - 1 - 376014
  R  := 2 ^ 519 - 337554763258501705789107630418782636071904961214051226618635150085779108655765
  gx := 4
  gy := 0x11DD4B4952F9B741BDB15C806D24013B3EBF3BE43295904D1E4050B3C80F5920A145616EBB481557D7BFA955CBFB1CFD4E064B0DE40F93E22F8BCDFB41D0093B10C

/-- The curve this KPE computes on. DESIGN CHOICE: the named parameter CURVE is taken at its default (unsafe,
notes/assumptions/7.md). -/
def Config.curve : Curve := Config.e521

/-- The capacity of one byte buffer in bytes. DESIGN CHOICE: the named parameter BMAX is taken at its default (unsafe,
notes/assumptions/6.md). -/
def Config.bmax : Nat := 65535

end Sys2Proof
end

