-- ==== Sys2Proof/Syntax.lean ====
section
/-! DEFINITION. The commands of KPE as syntax: one constructor per row of the opcode map (30_encoding.md R96), operands
in the order of R100. -/

namespace Sys2Proof

/-- The index of a byte-buffer register b0 .. b7 (10_state.md R28). -/
abbrev BReg := Fin 8

/-- The index of an integer register z0 .. z7 (10_state.md R29). -/
abbrev ZReg := Fin 8

/-- The index of a point register p0 .. p3 (10_state.md R31). -/
abbrev PReg := Fin 4

/-- The modulus select m = fn[0] of the six modular commands (30_encoding.md R91): 0 the field prime P, 1 the group
order R. -/
inductive Modulus where
  | fieldP
  | orderR
deriving DecidableEq, Repr

/-- The 51 commands (30_encoding.md R96). -/
inductive Instr where
  -- system and buffer housekeeping (46_system.md)
  | nop
  | zeroize
  | bclr (bd : BReg)
  | bmov (bd ba : BReg)
  | bcat (bd ba bb : BReg)
  -- PERM (40_permutation.md)
  | kclr
  | kld (ba : BReg)
  | kst (bd : BReg)
  | permute
  -- SPG (41_sponge.md)
  | sinit (mode : BitVec 24)
  | absorb (ba : BReg)
  | final
  | squeeze (bd : BReg) (n : BitVec 16)
  -- ENC (42_modes.md)
  | lenc (bd : BReg) (za : ZReg)
  | renc (bd : BReg) (za : ZReg)
  | encstr (bd ba : BReg)
  | bytepad (bd ba : BReg) (w : BitVec 16)
  | setlen (bits : BitVec 24)
  | sha3 (bd ba : BReg) (bits : BitVec 16)
  | xof (bd ba bb bc : BReg)
  | kmacx (bd ba bb bc : BReg)
  -- MOD (43_modarith.md)
  | zli (zd : ZReg) (value : BitVec 16)
  | zlds (zd : ZReg) (ba : BReg)
  | zldu (zd : ZReg) (ba : BReg)
  | zst (bd : BReg) (za : ZReg)
  | zst65 (bd : BReg) (za : ZReg)
  | zconst (zd : ZReg) (sel : BitVec 16)
  | zmov (zd za : ZReg)
  | zmul4 (zd za : ZReg)
  | zred (m : Modulus) (zd za : ZReg)
  | zeq (za zb : ZReg)
  | madd (m : Modulus) (zd za zb : ZReg)
  | msub (m : Modulus) (zd za zb : ZReg)
  | mmul (m : Modulus) (zd za zb : ZReg)
  | mneg (m : Modulus) (zd za : ZReg)
  | minv (m : Modulus) (zd za : ZReg)
  -- ECP (44_curve.md)
  | pid (pd : PReg)
  | pbase (pd : PReg)
  | pset (pd : PReg) (za zb : ZReg)
  | pgetx (zd : ZReg) (pa : PReg)
  | pgety (zd : ZReg) (pa : PReg)
  | pmov (pd pa : PReg)
  | pneg (pd pa : PReg)
  | peq (pa pb : PReg)
  | padd (pd pa pb : PReg)
  | pdbl (pd pa : PReg)
  | smul (pd pa : PReg) (zb : ZReg)
  -- SIG (45_schnorr.md)
  | encsig (bd : BReg) (za zb : ZReg)
  | decsig (zd ze : ZReg) (bb : BReg)
  | sign (bd : BReg) (za : ZReg) (bb : BReg)
  | verify (ba : BReg) (pb : PReg) (bc : BReg)
deriving DecidableEq, Repr

end Sys2Proof
end

