-- ==== Sys2Proof/WellFormed.lean ====
section
/-! DEFINITION. Which terms of `Instr` are commands. The register operands are indexes of their file and the immediates
have the width of their field by their types (30_encoding.md R94, R95), so one check is left: the constant select of
ZCONST. -/

namespace Sys2Proof

/-- R94: the constant select of ZCONST is 0 or 1 (imm16[15:1] ≠ 0 is an illegal encoding). An immediate that is legal
as an encoding but not as a value (SINIT, SETLEN, SHA3, BYTEPAD) is a command all the same (R98). -/
def Instr.wellFormed : Instr → Bool
  | .zconst _ sel => sel.toNat < 2
  | .nop | .zeroize | .kclr | .permute | .final => true
  | .bclr _ | .bmov _ _ | .bcat _ _ _ => true
  | .kld _ | .kst _ => true
  | .sinit _ | .absorb _ | .squeeze _ _ => true
  | .lenc _ _ | .renc _ _ | .encstr _ _ | .bytepad _ _ _ | .setlen _ | .sha3 _ _ _ => true
  | .xof _ _ _ _ | .kmacx _ _ _ _ => true
  | .zli _ _ | .zlds _ _ | .zldu _ _ | .zst _ _ | .zst65 _ _ | .zmov _ _ | .zmul4 _ _ => true
  | .zred _ _ _ | .zeq _ _ | .madd _ _ _ _ | .msub _ _ _ _ | .mmul _ _ _ _ => true
  | .mneg _ _ _ | .minv _ _ _ => true
  | .pid _ | .pbase _ | .pset _ _ _ | .pgetx _ _ | .pgety _ _ | .pmov _ _ | .pneg _ _ => true
  | .peq _ _ | .padd _ _ _ | .pdbl _ _ | .smul _ _ _ => true
  | .encsig _ _ _ | .decsig _ _ _ | .sign _ _ _ | .verify _ _ _ => true

end Sys2Proof
end

