-- ==== Sys2Proof/Decode.lean ====
section
/-! DEFINITION. The command word: decoding, total on 32-bit words, and the encoder (30_encoding.md R90 to R102). -/

namespace Sys2Proof

/-- Why a word is no command (R97). Both reasons raise E_ILLEGAL ("every illegal word behaves the same way"): the step
writes that status code and nothing else, which is safe. -/
inductive Illegal where
  /-- The opcode byte is none of the 51 of R96. -/
  | unassignedOpcode (op : Byte)
  /-- The opcode is assigned, and a must-be-zero field, a high bit of a register field, fn[7:1] of a modular command or
  imm16[15:1] of ZCONST is not zero. -/
  | mustBeZero (op : Byte)
deriving DecidableEq, Repr

/-- Bits 31:24 are the opcode in every format (R90). -/
def opcodeOf (cw : Word) : Byte := cw.extractLsb' 24 8

/-- The register index in the 4-bit field whose lowest bit is `lo`, for a file of 8 registers (R95: bit 3 of the field
is 0 in every word that is accepted). -/
def bAt (cw : Word) (lo : Nat) : BReg := (cw.extractLsb' lo 3).toFin

/-- As `bAt`, for the integer registers (R95). -/
def zAt (cw : Word) (lo : Nat) : ZReg := (cw.extractLsb' lo 3).toFin

/-- The register index in the 4-bit field whose lowest bit is `lo`, for the file of 4 point registers (R95: bits 3:2 of
the field are 0 in every word that is accepted). -/
def pAt (cw : Word) (lo : Nat) : PReg := (cw.extractLsb' lo 2).toFin

/-- imm16 = cw[15:0] (R94). -/
def imm16At (cw : Word) : BitVec 16 := cw.extractLsb' 0 16

/-- imm24 = cw[23:0] (R94). -/
def imm24At (cw : Word) : BitVec 24 := cw.extractLsb' 0 24

/-- m = cw[0] (R91, R102). -/
def modAt (cw : Word) : Modulus := if cw.getLsbD 0 then .orderR else .fieldP

/-- A word is the command of a row exactly when `cw & mask = match` (R96). -/
def accept (cw mtch mask : Word) (i : Instr) : Except Illegal Instr :=
  if cw &&& mask = mtch then .ok i else .error (.mustBeZero (opcodeOf cw))

/-- R102: the row whose match and mask the word meets. The rows differ in the opcode, so the opcode selects the one row
that can match. Each arm gives the match and the mask of its row of R96. -/
def decode (cw : Word) : Except Illegal Instr :=
  match (opcodeOf cw).toNat with
  -- system and buffers
  | 0x00 => accept cw 0x00000000 0xFFFFFFFF .nop
  | 0x01 => accept cw 0x01000000 0xFFFFFFFF .zeroize
  | 0x08 => accept cw 0x08000000 0xFF8FFFFF (.bclr (bAt cw 20))
  | 0x09 => accept cw 0x09000000 0xFF88FFFF (.bmov (bAt cw 20) (bAt cw 16))
  | 0x0A => accept cw 0x0A000000 0xFF888FFF (.bcat (bAt cw 20) (bAt cw 16) (bAt cw 12))
  -- PERM
  | 0x10 => accept cw 0x10000000 0xFFFFFFFF .kclr
  | 0x11 => accept cw 0x11000000 0xFFF8FFFF (.kld (bAt cw 16))
  | 0x12 => accept cw 0x12000000 0xFF8FFFFF (.kst (bAt cw 20))
  | 0x13 => accept cw 0x13000000 0xFFFFFFFF .permute
  -- SPG
  | 0x20 => accept cw 0x20000000 0xFF000000 (.sinit (imm24At cw))
  | 0x21 => accept cw 0x21000000 0xFFF8FFFF (.absorb (bAt cw 16))
  | 0x22 => accept cw 0x22000000 0xFFFFFFFF .final
  | 0x23 => accept cw 0x23000000 0xFF8F0000 (.squeeze (bAt cw 20) (imm16At cw))
  -- ENC
  | 0x30 => accept cw 0x30000000 0xFF88FFFF (.lenc (bAt cw 20) (zAt cw 16))
  | 0x31 => accept cw 0x31000000 0xFF88FFFF (.renc (bAt cw 20) (zAt cw 16))
  | 0x32 => accept cw 0x32000000 0xFF88FFFF (.encstr (bAt cw 20) (bAt cw 16))
  | 0x33 => accept cw 0x33000000 0xFF880000 (.bytepad (bAt cw 20) (bAt cw 16) (imm16At cw))
  | 0x34 => accept cw 0x34000000 0xFF000000 (.setlen (imm24At cw))
  | 0x35 => accept cw 0x35000000 0xFF880000 (.sha3 (bAt cw 20) (bAt cw 16) (imm16At cw))
  | 0x36 => accept cw 0x36000000 0xFF8888FF (.xof (bAt cw 20) (bAt cw 16) (bAt cw 12) (bAt cw 8))
  | 0x37 => accept cw 0x37000000 0xFF8888FF (.kmacx (bAt cw 20) (bAt cw 16) (bAt cw 12) (bAt cw 8))
  -- MOD
  | 0x40 => accept cw 0x40000000 0xFF8F0000 (.zli (zAt cw 20) (imm16At cw))
  | 0x41 => accept cw 0x41000000 0xFF88FFFF (.zlds (zAt cw 20) (bAt cw 16))
  | 0x42 => accept cw 0x42000000 0xFF88FFFF (.zldu (zAt cw 20) (bAt cw 16))
  | 0x43 => accept cw 0x43000000 0xFF88FFFF (.zst (bAt cw 20) (zAt cw 16))
  | 0x44 => accept cw 0x44000000 0xFF88FFFF (.zst65 (bAt cw 20) (zAt cw 16))
  | 0x45 => accept cw 0x45000000 0xFF8FFFFE (.zconst (zAt cw 20) (imm16At cw))
  | 0x46 => accept cw 0x46000000 0xFF88FFFF (.zmov (zAt cw 20) (zAt cw 16))
  | 0x47 => accept cw 0x47000000 0xFF88FFFF (.zmul4 (zAt cw 20) (zAt cw 16))
  | 0x48 => accept cw 0x48000000 0xFF88FFFE (.zred (modAt cw) (zAt cw 20) (zAt cw 16))
  | 0x49 => accept cw 0x49000000 0xFFF88FFF (.zeq (zAt cw 16) (zAt cw 12))
  | 0x4A => accept cw 0x4A000000 0xFF888FFE (.madd (modAt cw) (zAt cw 20) (zAt cw 16) (zAt cw 12))
  | 0x4B => accept cw 0x4B000000 0xFF888FFE (.msub (modAt cw) (zAt cw 20) (zAt cw 16) (zAt cw 12))
  | 0x4C => accept cw 0x4C000000 0xFF888FFE (.mmul (modAt cw) (zAt cw 20) (zAt cw 16) (zAt cw 12))
  | 0x4D => accept cw 0x4D000000 0xFF88FFFE (.mneg (modAt cw) (zAt cw 20) (zAt cw 16))
  | 0x4E => accept cw 0x4E000000 0xFF88FFFE (.minv (modAt cw) (zAt cw 20) (zAt cw 16))
  -- ECP
  | 0x50 => accept cw 0x50000000 0xFFCFFFFF (.pid (pAt cw 20))
  | 0x51 => accept cw 0x51000000 0xFFCFFFFF (.pbase (pAt cw 20))
  | 0x52 => accept cw 0x52000000 0xFFC88FFF (.pset (pAt cw 20) (zAt cw 16) (zAt cw 12))
  | 0x53 => accept cw 0x53000000 0xFF8CFFFF (.pgetx (zAt cw 20) (pAt cw 16))
  | 0x54 => accept cw 0x54000000 0xFF8CFFFF (.pgety (zAt cw 20) (pAt cw 16))
  | 0x55 => accept cw 0x55000000 0xFFCCFFFF (.pmov (pAt cw 20) (pAt cw 16))
  | 0x56 => accept cw 0x56000000 0xFFCCFFFF (.pneg (pAt cw 20) (pAt cw 16))
  | 0x57 => accept cw 0x57000000 0xFFFCCFFF (.peq (pAt cw 16) (pAt cw 12))
  | 0x58 => accept cw 0x58000000 0xFFCCCFFF (.padd (pAt cw 20) (pAt cw 16) (pAt cw 12))
  | 0x59 => accept cw 0x59000000 0xFFCCFFFF (.pdbl (pAt cw 20) (pAt cw 16))
  | 0x5A => accept cw 0x5A000000 0xFFCC8FFF (.smul (pAt cw 20) (pAt cw 16) (zAt cw 12))
  -- SIG
  | 0x60 => accept cw 0x60000000 0xFF888FFF (.encsig (bAt cw 20) (zAt cw 16) (zAt cw 12))
  | 0x61 => accept cw 0x61000000 0xFF888FFF (.decsig (zAt cw 20) (zAt cw 16) (bAt cw 12))
  | 0x62 => accept cw 0x62000000 0xFF888FFF (.sign (bAt cw 20) (zAt cw 16) (bAt cw 12))
  | 0x63 => accept cw 0x63000000 0xFFF8C8FF (.verify (bAt cw 16) (pAt cw 12) (bAt cw 8))
  | _ => .error (.unassignedOpcode (opcodeOf cw))

/-- A register index shifted to the field whose lowest bit is `lo` (R102). -/
def place {n : Nat} (r : Fin n) (lo : Nat) : Word := BitVec.ofNat 32 r.val <<< lo

/-- The modulus select in bit 0 (R91). -/
def placeMod : Modulus → Word
  | .fieldP => 0
  | .orderR => 1

/-- R102: "`cw = match | (each operand shifted to its field)`". -/
def encode : Instr → Word
  -- system and buffers
  | .nop => 0x00000000
  | .zeroize => 0x01000000
  | .bclr bd => 0x08000000 ||| place bd 20
  | .bmov bd ba => 0x09000000 ||| place bd 20 ||| place ba 16
  | .bcat bd ba bb => 0x0A000000 ||| place bd 20 ||| place ba 16 ||| place bb 12
  -- PERM
  | .kclr => 0x10000000
  | .kld ba => 0x11000000 ||| place ba 16
  | .kst bd => 0x12000000 ||| place bd 20
  | .permute => 0x13000000
  -- SPG
  | .sinit mode => 0x20000000 ||| mode.setWidth 32
  | .absorb ba => 0x21000000 ||| place ba 16
  | .final => 0x22000000
  | .squeeze bd n => 0x23000000 ||| place bd 20 ||| n.setWidth 32
  -- ENC
  | .lenc bd za => 0x30000000 ||| place bd 20 ||| place za 16
  | .renc bd za => 0x31000000 ||| place bd 20 ||| place za 16
  | .encstr bd ba => 0x32000000 ||| place bd 20 ||| place ba 16
  | .bytepad bd ba w => 0x33000000 ||| place bd 20 ||| place ba 16 ||| w.setWidth 32
  | .setlen bits => 0x34000000 ||| bits.setWidth 32
  | .sha3 bd ba bits => 0x35000000 ||| place bd 20 ||| place ba 16 ||| bits.setWidth 32
  | .xof bd ba bb bc => 0x36000000 ||| place bd 20 ||| place ba 16 ||| place bb 12 ||| place bc 8
  | .kmacx bd ba bb bc => 0x37000000 ||| place bd 20 ||| place ba 16 ||| place bb 12 ||| place bc 8
  -- MOD
  | .zli zd value => 0x40000000 ||| place zd 20 ||| value.setWidth 32
  | .zlds zd ba => 0x41000000 ||| place zd 20 ||| place ba 16
  | .zldu zd ba => 0x42000000 ||| place zd 20 ||| place ba 16
  | .zst bd za => 0x43000000 ||| place bd 20 ||| place za 16
  | .zst65 bd za => 0x44000000 ||| place bd 20 ||| place za 16
  | .zconst zd sel => 0x45000000 ||| place zd 20 ||| sel.setWidth 32
  | .zmov zd za => 0x46000000 ||| place zd 20 ||| place za 16
  | .zmul4 zd za => 0x47000000 ||| place zd 20 ||| place za 16
  | .zred m zd za => 0x48000000 ||| placeMod m ||| place zd 20 ||| place za 16
  | .zeq za zb => 0x49000000 ||| place za 16 ||| place zb 12
  | .madd m zd za zb => 0x4A000000 ||| placeMod m ||| place zd 20 ||| place za 16 ||| place zb 12
  | .msub m zd za zb => 0x4B000000 ||| placeMod m ||| place zd 20 ||| place za 16 ||| place zb 12
  | .mmul m zd za zb => 0x4C000000 ||| placeMod m ||| place zd 20 ||| place za 16 ||| place zb 12
  | .mneg m zd za => 0x4D000000 ||| placeMod m ||| place zd 20 ||| place za 16
  | .minv m zd za => 0x4E000000 ||| placeMod m ||| place zd 20 ||| place za 16
  -- ECP
  | .pid pd => 0x50000000 ||| place pd 20
  | .pbase pd => 0x51000000 ||| place pd 20
  | .pset pd za zb => 0x52000000 ||| place pd 20 ||| place za 16 ||| place zb 12
  | .pgetx zd pa => 0x53000000 ||| place zd 20 ||| place pa 16
  | .pgety zd pa => 0x54000000 ||| place zd 20 ||| place pa 16
  | .pmov pd pa => 0x55000000 ||| place pd 20 ||| place pa 16
  | .pneg pd pa => 0x56000000 ||| place pd 20 ||| place pa 16
  | .peq pa pb => 0x57000000 ||| place pa 16 ||| place pb 12
  | .padd pd pa pb => 0x58000000 ||| place pd 20 ||| place pa 16 ||| place pb 12
  | .pdbl pd pa => 0x59000000 ||| place pd 20 ||| place pa 16
  | .smul pd pa zb => 0x5A000000 ||| place pd 20 ||| place pa 16 ||| place zb 12
  -- SIG
  | .encsig bd za zb => 0x60000000 ||| place bd 20 ||| place za 16 ||| place zb 12
  | .decsig zd ze bb => 0x61000000 ||| place zd 20 ||| place ze 16 ||| place bb 12
  | .sign bd za bb => 0x62000000 ||| place bd 20 ||| place za 16 ||| place bb 12
  | .verify ba pb bc => 0x63000000 ||| place ba 16 ||| place pb 12 ||| place bc 8

/-- The host's question: the instruction the decoder reads from the `nbits` low bits of `w` (every bit above is 0); a
number that is wider than a command word is no command. -/
def decodeTableWord (nbits w : Nat) : Option Instr :=
  if 32 < nbits then none
  else
    match decode (BitVec.ofNat 32 (w % 2 ^ nbits)) with
    | .ok i => some i
    | .error _ => none

end Sys2Proof
end

