-- ==== Sys2Proof/Machine/State.lean ====
section
/-! DEFINITION. The architectural state of one KPE (10_state.md R20 to R34), as plain data, its reset value, and the
model's own two fields that carry what the host does (46_system.md R284). -/

namespace Sys2Proof.Machine

/-- Five like things, indexed 0 .. 4. The 25 lanes are five columns of five (R21). -/
structure Five (α : Type) where
  v0 : α
  v1 : α
  v2 : α
  v3 : α
  v4 : α
deriving DecidableEq, Repr

/-- The permutation state `A[x][y]`, x outermost (R21: "`A[x][y]` with column index x in 0..4 and row index y in
0..4"). -/
abbrev KState := Five (Five Lane)

/-- The all-zero permutation state, the reset value of `A` (R34). -/
def KState.zero : KState :=
  let col : Five Lane := ⟨0, 0, 0, 0, 0⟩
  ⟨col, col, col, col, col⟩

/-- The status codes (60_exceptions.md R290, the complete list). -/
inductive Status where
  | ok
  | illegal
  | cfgLen
  | cfgKey
  | cfgMode
  | format
  | phase
  | length
  | range
  | overflow
  | point
  | divzero
deriving DecidableEq, Repr

/-- The legal values of `RATE` (R23). Only these four: R23 (I1) holds by the type, and rate + capacity = 1600 by
construction. -/
inductive Rate where
  | r1152
  | r1088
  | r832
  | r576
deriving DecidableEq, Repr

/-- Where the streaming session stands (R23). -/
inductive Phase where
  | idle
  | absorb
  | squeeze
deriving DecidableEq, Repr

/-- The permutation state together with the five fields of the sponge context (R20, R23). -/
structure Sponge where
  /-- The 1600-bit permutation state. -/
  A     : KState
  /-- Rate in bits. -/
  rate  : Rate
  /-- Suffix byte. -/
  sfx   : Byte
  /-- Pending absorbed bytes, oldest first. -/
  buf   : Bytes
  phase : Phase
  /-- Bytes of the current state block already squeezed. -/
  sqpos : Nat
deriving DecidableEq, Repr

/-- A point register holds `Identity` or `Affine(x, y)` (R31). That 0 ≤ x, y < P, that the point is on the curve and
that (0, 1) is never stored are invariants (Safety.lean), not part of the type. -/
inductive Point where
  | identity
  | affine (x y : Int)
deriving DecidableEq, Repr

/-- The buffer space: the eight byte buffers, each with its length (R28, 20_memory.md R60). -/
abbrev Memory := Vector Bytes 8

/-- The five actions of the host (46_system.md R284: "These and no others"). -/
inductive HostAction where
  | write (i : BReg) (s : Bytes)
  | read (i : BReg)
  | status
  | command (w : Word)
  | reset
deriving DecidableEq, Repr

/-- What a host action returns (R284): the byte string of HostRead, or `ST` (8 bits), `VF` (1 bit), `PHASE` (2 bits) of
HostStatus. -/
inductive HostReply where
  | bytes (s : Bytes)
  | status (st : BitVec 8) (vf : BitVec 1) (phase : BitVec 2)
deriving DecidableEq, Repr

/-- The state of one KPE (R20), then the model's own fields `inbox` and `reply`. -/
structure State where
  /-- `A` and the sponge context. -/
  sponge : Sponge
  /-- Requested output length in bits (R24). -/
  outlen : BitVec 24
  /-- Status code of the last command (R25). -/
  st     : Status
  /-- Result of the last VERIFY, ZEQ or PEQ (R26). -/
  vf     : Bool
  /-- Byte-buffer registers b0 .. b7 (R28). -/
  b      : Memory
  /-- Integer registers z0 .. z7 (R29); the range of 528 bits is an invariant (Safety.lean). -/
  z      : Vector Int 8
  /-- Point registers p0 .. p3 (R31). -/
  p      : Vector Point 4
  /-- The model's own: the host actions still to come, oldest first. DESIGN CHOICE (notes/assumptions/1.md): the spec
  hands the command word to the step as an argument (46_system.md R285). -/
  inbox  : List HostAction
  /-- The model's own: what the last host action returned. DESIGN CHOICE (notes/assumptions/4.md). -/
  reply  : Option HostReply
deriving DecidableEq, Repr

/-- Why the machine stops with a fault: it never does. "A model never needs a "stuck" outcome for KPE" (R333), and an
error is a next state (60_exceptions.md R292). -/
inductive Fault
deriving DecidableEq, Repr

/-- Why the model gives no next state. -/
inductive Refusal where
  /-- Raised by an arm of `exec` whose command has no meaning yet (no arm of this model). Safe. -/
  | notModelled (mnemonic : String)
  /-- Raised by PADD, PDBL, SMUL and VERIFY when a point register they read holds a value that is not a point of the
  curve. No reachable register does (R31), and 93_implementation_defined.md U1 asks for a refusal there. Safe. -/
  | pointNotOnCurve
  /-- Raised by a HostWrite longer than BMAX, which "is not an action: the port cannot express it" (46_system.md R284).
  Safe. -/
  | notAHostAction
deriving DecidableEq, Repr

/-- `A` and the sponge context after reset and after DiscardCtx (R30, R34). -/
def Sponge.discarded : Sponge where
  A     := KState.zero
  rate  := .r1088
  sfx   := 0x1F
  buf   := []
  phase := .idle
  sqpos := 0

/-- The state after reset (R34; 70_reset_and_hazards.md R320). `inbox` and `reply` are the model's own: nothing placed,
nothing returned (notes/assumptions/3.md). -/
def State.reset : State where
  sponge := Sponge.discarded
  outlen := 0
  st     := .ok
  vf     := false
  b      := #v[[], [], [], [], [], [], [], []]
  z      := #v[0, 0, 0, 0, 0, 0, 0, 0]
  p      := #v[.identity, .identity, .identity, .identity]
  inbox  := []
  reply  := none

end Sys2Proof.Machine
end

