-- ==== Sys2Proof/Machine/Bytes.lean ====
section
/-! DEFINITION. Byte strings as numbers: the integer codec (43_modarith.md R201 to R203) and the framing functions of
the mode encoders (42_modes.md R171 to R174). -/

namespace Sys2Proof.Machine

/-- `bitlen(x)`, the least n with x < 2^n (00_scope.md R9). -/
def bitlen (x : Nat) : Nat := if x = 0 then 0 else Nat.log2 x + 1

/-- The number `v mod 256^L` as L bytes, most significant first (20_memory.md R64, R65). -/
def beBytes : Nat → Nat → Bytes
  | 0, _ => []
  | L + 1, v => BitVec.ofNat 8 (v / 256 ^ L) :: beBytes L v

/-- `dec_u(s)`: the sum of s[i] * 256^(len(s) - 1 - i), 0 for the empty string (R203). -/
def decU : Bytes → Nat
  | [] => 0
  | b :: s => b.toNat * 256 ^ s.length + decU s

/-- `dec_s(s)` for len(s) ≥ 1: the signed big-endian value, bit 7 of byte 0 the sign (R203). The empty string has no
signed value (R205). That the function answers 0 for it is a DESIGN CHOICE (safe, no command reaches it,
notes/assumptions/24.md). -/
def decS (s : Bytes) : Int :=
  match s with
  | [] => 0
  | b :: _ => if 0x80 ≤ b.toNat then (decU s : Int) - 256 ^ s.length else decU s

/-- The length of `enc_nat(n)`: the least L ≥ 1 with -2^(8L-1) ≤ n < 2^(8L-1) (R201). -/
def encNatLen (n : Int) : Nat :=
  bitlen (if 0 ≤ n then n.toNat else (-n - 1).toNat) / 8 + 1

/-- `n mod 2^(8L)` written as L bytes, most significant first: the L-byte big-endian two's-complement form (R201,
R202). -/
def twosBytes (L : Nat) (n : Int) : Bytes := beBytes L (n % 2 ^ (8 * L)).toNat

/-- `enc_nat(n)`, the natural encoding (R201). -/
def encNat (n : Int) : Bytes := twosBytes (encNatLen n) n

/-- `enc65(n)`, the fixed-width encoding, for −2^519 ≤ n ≤ 2^519 − 1 (R202). That the function answers the bytes of
n mod 2^520 outside that range, where "no 65-byte form exists", is a DESIGN CHOICE (safe, no command reaches it,
notes/assumptions/25.md). -/
def enc65 (n : Int) : Bytes := twosBytes 65 n

/-- The integers that have a 65-byte form (R202). -/
def fits65 (n : Int) : Bool := -2 ^ 519 ≤ n ∧ n ≤ 2 ^ 519 - 1

/-- The source's `encode(·)` of a scalar or a coordinate: the named parameter ENCODE at its default `enc_nat`. DESIGN
CHOICE (unsafe, notes/assumptions/8.md). -/
def encodeInt (n : Int) : Bytes := encNat n

/-- The number of bytes the length encodings use: the least n ≥ 1 with x < 2^(8n) (R171). -/
def lenBytes (x : Nat) : Nat := max 1 ((bitlen x + 7) / 8)

/-- `left_encode(x)` for x < 2^2040: the byte count, then x (R171). Beyond: notes/assumptions/21.md. -/
def leftEncode (x : Nat) : Bytes := BitVec.ofNat 8 (lenBytes x) :: beBytes (lenBytes x) x

/-- `right_encode(x)` for x < 2^2040: x, then the byte count (R172). Beyond: notes/assumptions/21.md. -/
def rightEncode (x : Nat) : Bytes := beBytes (lenBytes x) x ++ [BitVec.ofNat 8 (lenBytes x)]

/-- `encode_string(s)`: the length of s in bits, left-encoded, then s (R173). -/
def encodeString (s : Bytes) : Bytes := leftEncode (8 * s.length) ++ s

/-- As few zero bytes as make the length of `s` a multiple of w: `(-len(s)) mod w` of them (R174). -/
def zeroFill (s : Bytes) (w : Nat) : Bytes := List.replicate ((w - s.length % w) % w) 0

/-- `bytepad(X, w)` for w ≥ 1 (R174). That nothing is appended for w = 0 is a DESIGN CHOICE (safe, no command reaches it,
notes/assumptions/26.md). -/
def bytepad (X : Bytes) (w : Nat) : Bytes :=
  let z := leftEncode w ++ X
  z ++ zeroFill z w

end Sys2Proof.Machine
end

