-- ==== Sys2Proof/Machine/Operands.lean ====
section
/-! DEFINITION. Operand forms: what the register fields and the immediates of a command word stand for
(30_encoding.md R91 to R95), the mode table (41_sponge.md R152), and the coordinate view of a point (44_curve.md
R232). -/

namespace Sys2Proof.Machine

/-- The modes of the mode table, in the order of their tags 0 .. 5 (R152). -/
def modeTag : Fin 6 → Rate × Byte
  | 0 => (.r1152, 0x06)
  | 1 => (.r1088, 0x06)
  | 2 => (.r832, 0x06)
  | 3 => (.r576, 0x06)
  | 4 => (.r1088, 0x1F)
  | 5 => (.r1088, 0x04)

/-- The mode tag in imm24 of SINIT: 0 .. 5 (R94, R153). -/
def modeOfImm (imm : BitVec 24) : Option (Fin 6) :=
  if h : imm.toNat < 6 then some ⟨imm.toNat, h⟩ else none

/-- The digest length in imm16 of SHA3 and the mode that serves it (42_modes.md R180). -/
def digestMode (imm : BitVec 16) : Option (Fin 6) :=
  if imm = 224 then some 0
  else if imm = 256 then some 1
  else if imm = 384 then some 2
  else if imm = 512 then some 3
  else none

/-- `mod(m)`: the prime the modulus select names (43_modarith.md R200). -/
def modulus : Modulus → Nat
  | .fieldP => Config.curve.P
  | .orderR => Config.curve.R

/-- What imm16 of ZCONST selects: 0 = P, 1 = R, nothing else is an encoding (R94, 43_modarith.md R209). -/
def constSel (sel : BitVec 16) : Option Int :=
  if sel = 0 then some Config.curve.P
  else if sel = 1 then some Config.curve.R
  else none

/-- The numeric value of a rate in bits (R23). -/
def Rate.bits : Rate → Nat
  | .r1152 => 1152
  | .r1088 => 1088
  | .r832 => 832
  | .r576 => 576

/-- `rb = RATE / 8`, the rate in bytes (41_sponge.md R150). -/
def Rate.bytes (r : Rate) : Nat := r.bits / 8

/-- `CAP = 1600 − RATE`, derived and read-only (R23). -/
def Rate.capacity (r : Rate) : Nat := 1600 - r.bits

/-- The x coordinate of the coordinate view, 0 for the identity (R232). -/
def Point.x : Point → Int
  | .identity => 0
  | .affine x _ => x

/-- The y coordinate of the coordinate view, 1 for the identity (R232). -/
def Point.y : Point → Int
  | .identity => 1
  | .affine _ y => y

/-- The range of an integer register, -2^527 .. 2^527 - 1 (R29). -/
def fitsZ (n : Int) : Bool := -2 ^ 527 ≤ n ∧ n ≤ 2 ^ 527 - 1

end Sys2Proof.Machine
end

