-- ==== Sys2Proof/Machine/Ops.lean ====
section
/-! DEFINITION. The named operations over registers and memory (00_scope.md R12, 20_memory.md R60), the two ends of a
command, and the two context actions of the one-shot commands (10_state.md R30). -/

namespace Sys2Proof.Machine

/-- What a command or a host action ends in. -/
abbrev Result := Host.Outcome State Fault Refusal

/-- `b[i]`: the whole byte string of buffer i (R12). -/
def State.getB (s : State) (i : BReg) : Bytes := s.b[i]

/-- `b[i] <- v`: content and length together (R12). -/
def State.setB (s : State) (i : BReg) (v : Bytes) : State := { s with b := s.b.set i v }

/-- `z[i]` (R12). -/
def State.getZ (s : State) (i : ZReg) : Int := s.z[i]

/-- `z[i] <- n` (R12). -/
def State.setZ (s : State) (i : ZReg) (n : Int) : State := { s with z := s.z.set i n }

/-- `p[i]` (R12). -/
def State.getP (s : State) (i : PReg) : Point := s.p[i]

/-- `p[i] <- Q` (R12). -/
def State.setP (s : State) (i : PReg) (q : Point) : State := { s with p := s.p.set i q }

/-- `A` and the sponge context replaced. -/
def State.setSponge (s : State) (sp : Sponge) : State := { s with sponge := sp }

/-- The permutation state alone replaced. -/
def State.setA (s : State) (A : KState) : State := { s with sponge := { s.sponge with A := A } }

/-- `OUTLEN <- v` (R24). -/
def State.setOutlen (s : State) (v : BitVec 24) : State := { s with outlen := v }

/-- One byte of the buffer space at the address (i, off); an address exists exactly when off is below the length of the
buffer (R60). -/
def Memory.read (m : Memory) (i : BReg) (off : Nat) : Option Byte := m[i][off]?

/-- `MemRead((i, off), n)`, "defined only for `off + n ≤ len(b[i])`" (R60). -/
def Memory.readN (m : Memory) (i : BReg) (off n : Nat) : Option Bytes :=
  if off + n ≤ m[i].length then some ((m[i].drop off).take n) else none

/-- `MemWrite((i, off), n, v)` with n the length of v: replaces those bytes (R12, R60). -/
def Memory.writeN (m : Memory) (i : BReg) (off : Nat) (v : Bytes) : Option Memory :=
  if off + v.length ≤ m[i].length then
    some (m.set i (m[i].take off ++ v ++ m[i].drop (off + v.length)))
  else none

/-- The form of the buffer space: no buffer is longer than BMAX (R28). -/
abbrev Memory.wf (m : Memory) : Prop := ∀ i : BReg, m[i].length ≤ Config.bmax

/-- The end of a command that raised nothing: `ST <- OK` (R12). -/
def complete (s : State) : Result := .next { s with st := .ok }

/-- `raise E`: the command ends at once, `ST <- E`, nothing else changes (R12, 60_exceptions.md R292). This is the only
exception entry of KPE (R301: no pc, no saved register, no mode), and there is no return from it (R302). -/
def raise (e : Status) (s : State) : Result := .next { s with st := e }

/-- `FreshCtx(mode)` (R30). -/
def Sponge.fresh (mode : Fin 6) : Sponge where
  A     := KState.zero
  rate  := (modeTag mode).1
  sfx   := (modeTag mode).2
  buf   := []
  phase := .absorb
  sqpos := 0

/-- `DiscardCtx()` (R30). -/
def State.discardCtx (s : State) : State := s.setSponge Sponge.discarded

end Sys2Proof.Machine
end

