-- ==== Sys2Proof/Machine/Flags.lean ====
section
/-! DEFINITION. The status register and the flag: their numeric values at the host port and the one write of `VF`
(10_state.md R25, R26; 60_exceptions.md R290). -/

namespace Sys2Proof.Machine

/-- The 8-bit value of `ST` (R290). -/
def Status.code : Status → BitVec 8
  | .ok => 0
  | .illegal => 1
  | .cfgLen => 2
  | .cfgKey => 3
  | .cfgMode => 4
  | .format => 5
  | .phase => 6
  | .length => 7
  | .range => 8
  | .overflow => 9
  | .point => 10
  | .divzero => 11

/-- The 2-bit value of `PHASE`: IDLE = 0, ABSORB = 1, SQUEEZE = 2 (R23). -/
def Phase.code : Phase → BitVec 2
  | .idle => 0
  | .absorb => 1
  | .squeeze => 2

/-- `VF <- 1 if v else 0`, the write of VERIFY, ZEQ and PEQ (R26). -/
def State.setVF (s : State) (v : Bool) : State := { s with vf := v }

/-- The bit of `VF` (R26). -/
def State.vfBit (s : State) : BitVec 1 := if s.vf then 1 else 0

end Sys2Proof.Machine
end

