-- ==== Sys2Proof/Machine/Mod.lean ====
section
/-! DEFINITION. MOD, the modular arithmetic unit, and the integer register commands (43_modarith.md R204 to R218). -/

namespace Sys2Proof.Machine

/-- The extended Euclidean algorithm: remainders `r0`, `r1` and their cofactors `t0`, `t1`; the cofactor of the last
non-zero remainder. The second remainder falls at every turn, so any `fuel` above it suffices. -/
def euclid : Nat → Nat → Nat → Int → Int → Int
  | 0, _, _, t0, _ => t0
  | fuel + 1, r0, r1, t0, t1 =>
    if r1 = 0 then t0 else euclid fuel r1 (r0 % r1) t1 (t0 - (r0 / r1 : Nat) * t1)

/-- `inv_m(x)`, the y in 1 .. m−1 with x·y mod m = 1, for x invertible modulo m (00_scope.md R9). "How the hardware
computes it is not architectural" (R218). For an x that has no inverse the result means nothing and is used nowhere:
MINV raises E_DIVZERO, and no denominator of `padd` is 0 on the curve (DEDUCED, safe, notes/assumptions/11.md). -/
def invMod (m : Nat) (x : Int) : Int := euclid (m + 1) m (x % m).toNat 0 1 % m

/-- ZLI (R204): zero-extended. -/
def execZli (zd : ZReg) (value : BitVec 16) (s : State) : Result := complete (s.setZ zd value.toNat)

/-- ZLDS (R205). -/
def execZlds (zd : ZReg) (ba : BReg) (s : State) : Result :=
  if (s.getB ba).length < 1 ∨ 66 < (s.getB ba).length then raise .length s
  else complete (s.setZ zd (decS (s.getB ba)))

/-- ZLDU (R206). -/
def execZldu (zd : ZReg) (ba : BReg) (s : State) : Result :=
  if 65 < (s.getB ba).length then raise .length s
  else complete (s.setZ zd (decU (s.getB ba)))

/-- ZST (R207). -/
def execZst (bd : BReg) (za : ZReg) (s : State) : Result := complete (s.setB bd (encNat (s.getZ za)))

/-- ZST65 (R208). -/
def execZst65 (bd : BReg) (za : ZReg) (s : State) : Result :=
  if fits65 (s.getZ za) then complete (s.setB bd (enc65 (s.getZ za))) else raise .range s

/-- ZCONST (R209). A select above 1 is an illegal encoding, which no decoded command has; executing such a term raises
E_ILLEGAL as the word does (DEDUCED, safe, notes/assumptions/14.md). -/
def execZconst (zd : ZReg) (sel : BitVec 16) (s : State) : Result :=
  match constSel sel with
  | some v => complete (s.setZ zd v)
  | none => raise .illegal s

/-- ZMOV (R210). -/
def execZmov (zd za : ZReg) (s : State) : Result := complete (s.setZ zd (s.getZ za))

/-- ZMUL4 (R211): the exact product, not reduced. -/
def execZmul4 (zd za : ZReg) (s : State) : Result :=
  if fitsZ (4 * s.getZ za) then complete (s.setZ zd (4 * s.getZ za)) else raise .range s

/-- The end shared by the modular commands: the least non-negative residue of an exact integer (R200). -/
def storeResidue (m : Modulus) (zd : ZReg) (n : Int) (s : State) : Result :=
  complete (s.setZ zd (n % modulus m))

/-- ZRED (R212). -/
def execZred (m : Modulus) (zd za : ZReg) (s : State) : Result := storeResidue m zd (s.getZ za) s

/-- ZEQ (R213): equality of integers, not of residues. -/
def execZeq (za zb : ZReg) (s : State) : Result := complete (s.setVF (s.getZ za = s.getZ zb))

/-- MADD (R214). -/
def execMadd (m : Modulus) (zd za zb : ZReg) (s : State) : Result :=
  storeResidue m zd (s.getZ za + s.getZ zb) s

/-- MSUB (R215). -/
def execMsub (m : Modulus) (zd za zb : ZReg) (s : State) : Result :=
  storeResidue m zd (s.getZ za - s.getZ zb) s

/-- MMUL (R216). -/
def execMmul (m : Modulus) (zd za zb : ZReg) (s : State) : Result :=
  storeResidue m zd (s.getZ za * s.getZ zb) s

/-- MNEG (R217). -/
def execMneg (m : Modulus) (zd za : ZReg) (s : State) : Result := storeResidue m zd (-s.getZ za) s

/-- MINV (R218). -/
def execMinv (m : Modulus) (zd za : ZReg) (s : State) : Result :=
  if s.getZ za % modulus m = 0 then raise .divzero s
  else complete (s.setZ zd (invMod (modulus m) (s.getZ za % modulus m)))

end Sys2Proof.Machine
end

