-- ==== Sys2Proof/Machine/Ecp.lean ====
section
/-! DEFINITION. ECP, the curve-group unit (44_curve.md): the group functions over any curve `c` of the Edwards form, and
the point commands, which use the curve of Config. -/

namespace Sys2Proof.Machine

/-- `OnCurve(x, y)` for 0 ≤ x, y < P (R233). That the function answers by the same equation outside that range is a
DESIGN CHOICE (safe, its callers check the range first, notes/assumptions/28.md). -/
def onCurveXY (c : Curve) (x y : Int) : Bool :=
  (x * x + y * y) % c.P = (1 + c.d * x * x * y * y) % c.P

/-- Whether a coordinate is in 0 .. P − 1 (R31). -/
def inField (c : Curve) (x : Int) : Bool := 0 ≤ x ∧ x < c.P

/-- Whether a value is a point of the curve: the identity, or coordinates in range that satisfy the equation (R31). -/
def Point.onCurve (c : Curve) : Point → Bool
  | .identity => true
  | .affine x y => inField c x && inField c y && onCurveXY c x y

/-- `norm(x, y)`: the pair (0, 1) is stored as `Identity` (R232). -/
def norm (x y : Int) : Point := if x = 0 ∧ y = 1 then .identity else .affine x y

/-- `padd(T1, T2)`, the Edwards addition law on the coordinate views, total on curve points (R233). That the function
answers a value off the curve too is a DESIGN CHOICE (safe, the commands refuse such operands, notes/assumptions/9.md,
28.md). -/
def padd (c : Curve) (T1 T2 : Point) : Point :=
  let t := (c.d * T1.x * T2.x * T1.y * T2.y) % c.P
  let x3 := ((T1.x * T2.y + T1.y * T2.x) * invMod c.P ((1 + t) % c.P)) % c.P
  let y3 := ((T1.y * T2.y - T1.x * T2.x) * invMod c.P ((1 - t) % c.P)) % c.P
  norm x3 y3

/-- `pneg(T)` (R234). -/
def pneg (c : Curve) : Point → Point
  | .identity => .identity
  | .affine x y => norm (-x % c.P) y

/-- The scan over the low `i` bits of k, most significant first: double, then add T where the bit is 1 (R234). -/
def smulBits (c : Curve) (T : Point) (k : Nat) : Nat → Point → Point
  | 0, acc => acc
  | i + 1, acc =>
    let acc2 := padd c acc acc
    smulBits c T k i (if k.testBit i then padd c acc2 T else acc2)

/-- `smul(T, k)` for k ≥ 0 in the executable form of R234. -/
def smulNat (c : Curve) (T : Point) (k : Nat) : Point := smulBits c T k (bitlen k) .identity

/-- `smul(T, k)` for any integer k: a negative k multiplies the negated point (R234). -/
def smul (c : Curve) (T : Point) (k : Int) : Point :=
  if k < 0 then smulNat c (pneg c T) (-k).toNat else smulNat c T k.toNat

/-- The base point G (R231). -/
def basePoint (c : Curve) : Point := .affine c.gx c.gy

/-- Whether the value of a point register is a point of this KPE's curve. -/
def pointOk (T : Point) : Bool := T.onCurve Config.curve

/-- PID (R236). -/
def execPid (pd : PReg) (s : State) : Result := complete (s.setP pd .identity)

/-- PBASE (R237). -/
def execPbase (pd : PReg) (s : State) : Result := complete (s.setP pd (basePoint Config.curve))

/-- PSET (R235): the range check and the membership check, then the normal form. -/
def execPset (pd : PReg) (za zb : ZReg) (s : State) : Result :=
  if inField Config.curve (s.getZ za) && inField Config.curve (s.getZ zb)
      && onCurveXY Config.curve (s.getZ za) (s.getZ zb) then
    complete (s.setP pd (norm (s.getZ za) (s.getZ zb)))
  else raise .point s

/-- PGETX (R244). -/
def execPgetx (zd : ZReg) (pa : PReg) (s : State) : Result := complete (s.setZ zd (s.getP pa).x)

/-- PGETY (R245). -/
def execPgety (zd : ZReg) (pa : PReg) (s : State) : Result := complete (s.setZ zd (s.getP pa).y)

/-- PMOV (R238). -/
def execPmov (pd pa : PReg) (s : State) : Result := complete (s.setP pd (s.getP pa))

/-- PNEG (R243). -/
def execPneg (pd pa : PReg) (s : State) : Result := complete (s.setP pd (pneg Config.curve (s.getP pa)))

/-- PEQ (R239). -/
def execPeq (pa pb : PReg) (s : State) : Result := complete (s.setVF (s.getP pa = s.getP pb))

/-- PADD (R240). The group law has no meaning off the curve, and a register never holds such a value: refused there
(93_implementation_defined.md U1, notes/assumptions/9.md). -/
def execPadd (pd pa pb : PReg) (s : State) : Result :=
  if pointOk (s.getP pa) && pointOk (s.getP pb) then
    complete (s.setP pd (padd Config.curve (s.getP pa) (s.getP pb)))
  else .refused .pointNotOnCurve

/-- PDBL (R241); off the curve as PADD. -/
def execPdbl (pd pa : PReg) (s : State) : Result :=
  if pointOk (s.getP pa) then complete (s.setP pd (padd Config.curve (s.getP pa) (s.getP pa)))
  else .refused .pointNotOnCurve

/-- SMUL (R242): the exact register value, not reduced modulo R; off the curve as PADD. -/
def execSmul (pd pa : PReg) (zb : ZReg) (s : State) : Result :=
  if pointOk (s.getP pa) then complete (s.setP pd (smul Config.curve (s.getP pa) (s.getZ zb)))
  else .refused .pointNotOnCurve

end Sys2Proof.Machine
end

