-- ==== Sys2Proof/Machine/Perm.lean ====
section
/-! DEFINITION. PERM, the permutation engine Keccak-p[1600, 24] (40_permutation.md), the byte view of the state
(10_state.md R22), and the commands PERMUTE, KCLR, KLD, KST. -/

namespace Sys2Proof.Machine

/-- The element at an index 0 .. 4. -/
def Five.get {α : Type} (v : Five α) : Fin 5 → α
  | 0 => v.v0
  | 1 => v.v1
  | 2 => v.v2
  | 3 => v.v3
  | 4 => v.v4

/-- The five values of a function of the index. -/
def Five.ofFn {α : Type} (f : Fin 5 → α) : Five α := ⟨f 0, f 1, f 2, f 3, f 4⟩

/-- The lane `A[x][y]` (R21). -/
def KState.lane (A : KState) (x y : Fin 5) : Lane := (A.get x).get y

/-- The state whose lane (x, y) is `f x y`. -/
def KState.ofLanes (f : Fin 5 → Fin 5 → Lane) : KState := Five.ofFn fun x => Five.ofFn fun y => f x y

/-- The column parities `C[x]` of theta (R122). -/
def columnParity (A : KState) : Five Lane :=
  Five.ofFn fun x => A.lane x 0 ^^^ A.lane x 1 ^^^ A.lane x 2 ^^^ A.lane x 3 ^^^ A.lane x 4

/-- The words `D[x]` of theta (R122). Addition of indexes is modulo 5, as it is in `Fin 5`. -/
def thetaEffect (A : KState) : Five Lane :=
  let C := columnParity A
  Five.ofFn fun x => C.get (x + 4) ^^^ (C.get (x + 1)).rotateLeft 1

/-- `theta`, parity mixing (R122). -/
def theta (A : KState) : KState :=
  let D := thetaEffect A
  KState.ofLanes fun x y => A.lane x y ^^^ D.get x

/-- The rotation offsets in lane-number order 5y + x (R124). -/
def rhoTable : List Nat :=
  [0, 1, 62, 28, 27, 36, 44, 6, 55, 20, 3, 10, 43, 25, 39, 41, 45, 15, 21, 8, 18, 2, 61, 56, 14]

/-- `RHO[x][y]` (R124). -/
def rhoOffset (x y : Fin 5) : Nat := rhoTable.getD (5 * y.val + x.val) 0

/-- `rho`, lane rotation (R123). -/
def rho (A : KState) : KState := KState.ofLanes fun x y => (A.lane x y).rotateLeft (rhoOffset x y)

/-- `pi`, lane permutation (R125). -/
def pi (A : KState) : KState := KState.ofLanes fun x y => A.lane (x + 3 * y) x

/-- `chi`, nonlinear mixing (R127). -/
def chi (A : KState) : KState :=
  KState.ofLanes fun x y => A.lane x y ^^^ (~~~(A.lane (x + 1) y) &&& A.lane (x + 2) y)

/-- The table of R130 as it is printed, line by line: the constant of round r beside that of round r + 12. -/
def roundConstantLines : List (Lane × Lane) :=
  [(0x0000000000000001, 0x000000008000808B), (0x0000000000008082, 0x800000000000008B),
   (0x800000000000808A, 0x8000000000008089), (0x8000000080008000, 0x8000000000008003),
   (0x000000000000808B, 0x8000000000008002), (0x0000000080000001, 0x8000000000000080),
   (0x8000000080008081, 0x000000000000800A), (0x8000000000008009, 0x800000008000000A),
   (0x000000000000008A, 0x8000000080008081), (0x0000000000000088, 0x8000000000008080),
   (0x0000000080008009, 0x0000000080000001), (0x000000008000000A, 0x8000000080008008)]

/-- The round constants `RC[0..23]`: down the left column of the table, then down the right one (R130). -/
def roundConstants : List Lane := roundConstantLines.map Prod.fst ++ roundConstantLines.map Prod.snd

/-- One shift of the eight-bit register of the constant generator, in the order R[0] .. R[7] (R129): a 0 comes in at
R[0], the bit that leaves at R[8] is XORed into R[0], R[4], R[5] and R[6]. -/
def lfsrShift : Vector Bool 8 → Vector Bool 8 := fun r =>
  let out := r[7]
  #v[out, r[0], r[1], r[2], r[3] ^^ out, r[4] ^^ out, r[5] ^^ out, r[6]]

/-- `rc(t)`, the bit the generator gives at time t (R129). The machine holds the table `roundConstants`; "this rule is
how the table was made and how a model can check it". -/
def lfsrBit (t : Nat) : Bool :=
  if t % 255 = 0 then true
  else (Nat.iterate lfsrShift (t % 255) #v[true, false, false, false, false, false, false, false])[0]

/-- `RC[ir]` as R129 generates it: the bits `rc(j + 7*ir)` at the positions 2^j − 1. -/
def generatedConstant (ir : Nat) : Lane :=
  (List.range 7).foldl (fun v j => if lfsrBit (j + 7 * ir) then v ||| (1 <<< (2 ^ j - 1)) else v) 0

/-- `iota` with the round constant `rc` (R128). -/
def iota (A : KState) (rc : Lane) : KState :=
  KState.ofLanes fun x y => if x = 0 ∧ y = 0 then A.lane x y ^^^ rc else A.lane x y

/-- One round, with its round constant (R121). -/
def rnd (A : KState) (rc : Lane) : KState := iota (chi (pi (rho (theta A)))) rc

/-- `KeccakP(A)`: the 24 rounds, round index counting up from 0 (R121). -/
def keccakP (A : KState) : KState := roundConstants.foldl rnd A

/-- The positions (x, y) in lane-number order 5y + x (R22). -/
def lanePositions : List (Fin 5 × Fin 5) :=
  [(0, 0), (1, 0), (2, 0), (3, 0), (4, 0), (0, 1), (1, 1), (2, 1), (3, 1), (4, 1),
   (0, 2), (1, 2), (2, 2), (3, 2), (4, 2), (0, 3), (1, 3), (2, 3), (3, 3), (4, 3),
   (0, 4), (1, 4), (2, 4), (3, 4), (4, 4)]

/-- The eight bytes of a lane, least significant first (R22). -/
def laneBytes (v : Lane) : Bytes :=
  [v.extractLsb' 0 8, v.extractLsb' 8 8, v.extractLsb' 16 8, v.extractLsb' 24 8,
   v.extractLsb' 32 8, v.extractLsb' 40 8, v.extractLsb' 48 8, v.extractLsb' 56 8]

/-- The lane whose bytes, least significant first, are the first eight of the list (R22). That a missing byte counts as 0
is a DESIGN CHOICE (safe, no command reaches it, notes/assumptions/26.md). -/
def laneOfBytes (bs : Bytes) : Lane :=
  bs.getD 7 0 ++ bs.getD 6 0 ++ bs.getD 5 0 ++ bs.getD 4 0 ++ bs.getD 3 0 ++ bs.getD 2 0 ++ bs.getD 1 0 ++ bs.getD 0 0

/-- The byte view `S[0], S[1], ..., S[199]` (R22). -/
def KState.toBytes (A : KState) : Bytes := lanePositions.flatMap fun (x, y) => laneBytes (A.lane x y)

/-- The state whose byte view is the given 200 bytes (R22). -/
def KState.ofBytes (bs : Bytes) : KState :=
  KState.ofLanes fun x y => laneOfBytes (bs.drop (8 * (5 * y.val + x.val)))

/-- Bytewise XOR of `blk` into the front of `s`; the rest of `s` stays. -/
def xorPrefix : Bytes → Bytes → Bytes
  | a :: s, b :: blk => (a ^^^ b) :: xorPrefix s blk
  | s, [] => s
  | [], _ => []

/-- `for k: S[k] <- S[k] ^ blk[k]`: a block XORed into the front of the state (41_sponge.md R154). -/
def KState.xorBlock (A : KState) (blk : Bytes) : KState := KState.ofBytes (xorPrefix A.toBytes blk)

/-- PERMUTE (R132). -/
def execPermute (s : State) : Result := complete (s.setA (keccakP s.sponge.A))

/-- KCLR (R133). -/
def execKclr (s : State) : Result := complete (s.setA KState.zero)

/-- KLD (R134). -/
def execKld (ba : BReg) (s : State) : Result :=
  if (s.getB ba).length ≠ 200 then raise .length s
  else complete (s.setA (KState.ofBytes (s.getB ba)))

/-- KST (R135). -/
def execKst (bd : BReg) (s : State) : Result := complete (s.setB bd s.sponge.A.toBytes)

end Sys2Proof.Machine
end

