-- ==== Sys2Proof/Machine/Spg.lean ====
section
/-! DEFINITION. SPG, the sponge controller: absorb, pad-and-finalize, squeeze (41_sponge.md), as operations on the
sponge, and the commands SINIT, ABSORB, FINAL, SQUEEZE. -/

namespace Sys2Proof.Machine

/-- `PadBlock(BUF, SFX, rb)` (R151). -/
def padBlock (buf : Bytes) (sfx : Byte) (rb : Nat) : Bytes :=
  let blk := buf ++ List.replicate (rb - buf.length) 0
  let blk := blk.modify buf.length (· ^^^ sfx)
  blk.modify (rb - 1) (· ^^^ 0x80)

/-- The block loop of ABSORB: while a full block is pending, XOR it in and permute (R154). Every turn takes `rb` ≥ 1
bytes away, so the number of pending bytes bounds the turns (70_reset_and_hazards.md R333). -/
def absorbLoop (rb : Nat) : Nat → KState → Bytes → KState × Bytes
  | 0, A, buf => (A, buf)
  | fuel + 1, A, buf =>
    if rb ≤ buf.length then absorbLoop rb fuel (keccakP (A.xorBlock (buf.take rb))) (buf.drop rb)
    else (A, buf)

/-- ABSORB on the sponge (R154). -/
def Sponge.absorb (sp : Sponge) (m : Bytes) : Sponge :=
  let r := absorbLoop sp.rate.bytes (sp.buf ++ m).length sp.A (sp.buf ++ m)
  { sp with A := r.1, buf := r.2 }

/-- FINAL on the sponge (R155). -/
def Sponge.final (sp : Sponge) : Sponge :=
  { sp with
    A     := keccakP (sp.A.xorBlock (padBlock sp.buf sp.sfx sp.rate.bytes))
    buf   := []
    phase := .squeeze
    sqpos := 0 }

/-- The loop of SQUEEZE: the state, SQPOS and the bytes put out, for n more bytes (R156). While SQPOS ≤ rb every turn
puts out at least one byte, so n bounds the turns (R333). -/
def squeezeLoop (rb : Nat) : Nat → Nat → KState → Nat → Bytes → KState × Nat × Bytes
  | 0, _, A, pos, out => (A, pos, out)
  | fuel + 1, n, A, pos, out =>
    if n = 0 then (A, pos, out)
    else
      let A' := if pos = rb then keccakP A else A
      let pos' := if pos = rb then 0 else pos
      let t := min n (rb - pos')
      squeezeLoop rb fuel (n - t) A' (pos' + t) (out ++ (A'.toBytes.drop pos').take t)

/-- SQUEEZE n on the sponge: the bytes and the sponge after (R156). -/
def Sponge.squeeze (sp : Sponge) (n : Nat) : Bytes × Sponge :=
  let r := squeezeLoop sp.rate.bytes n n sp.A sp.sqpos []
  (r.2.2, { sp with A := r.1, sqpos := r.2.1 })

/-- The blocks of `rb` bytes a padded message is made of, in order (R157); `fuel` bounds their number. -/
def blocks (rb : Nat) : Nat → Bytes → List Bytes
  | 0, _ => []
  | fuel + 1, m => if m = [] then [] else m.take rb :: blocks rb fuel (m.drop rb)

/-- The output part of R157: `Z` is made longer, one permutation and `rb` bytes at a time, while it is shorter than
n. -/
def outputLoop (rb n : Nat) : Nat → KState → Bytes → Bytes
  | 0, _, Z => Z
  | fuel + 1, T, Z =>
    if Z.length < n then outputLoop rb n fuel (keccakP T) (Z ++ (keccakP T).toBytes.take rb) else Z

/-- `Sponge(mode, M, n)`: the sponge as a function (R157). -/
def spongeFn (mode : Fin 6) (M : Bytes) (n : Nat) : Bytes :=
  let rb := (modeTag mode).1.bytes
  let sfx := (modeTag mode).2
  let q := M.length % rb
  let P := M.take (M.length - q) ++ padBlock (M.drop (M.length - q)) sfx rb
  let T := (blocks rb P.length P).foldl (fun T blk => keccakP (T.xorBlock blk)) KState.zero
  (outputLoop rb n n T (T.toBytes.take rb)).take n

/-- What a one-shot command computes: a fresh context, absorb, finalize, squeeze n bytes (10_state.md R30, 42_modes.md
R180). -/
def oneShot (mode : Fin 6) (M : Bytes) (n : Nat) : Bytes :=
  ((((Sponge.fresh mode).absorb M).final).squeeze n).1

/-- SINIT (R153). -/
def execSinit (mode : BitVec 24) (s : State) : Result :=
  match modeOfImm mode with
  | none => raise .cfgMode s
  | some m => complete (s.setSponge (Sponge.fresh m))

/-- ABSORB (R154). -/
def execAbsorb (ba : BReg) (s : State) : Result :=
  if s.sponge.phase ≠ .absorb then raise .phase s
  else complete (s.setSponge (s.sponge.absorb (s.getB ba)))

/-- FINAL (R155). -/
def execFinal (s : State) : Result :=
  if s.sponge.phase ≠ .absorb then raise .phase s
  else complete (s.setSponge s.sponge.final)

/-- SQUEEZE (R156). -/
def execSqueeze (bd : BReg) (n : BitVec 16) (s : State) : Result :=
  if s.sponge.phase ≠ .squeeze then raise .phase s
  else if Config.bmax < n.toNat then raise .overflow s
  else
    let r := s.sponge.squeeze n.toNat
    complete ((s.setSponge r.2).setB bd r.1)

end Sys2Proof.Machine
end

