-- ==== Sys2Proof/Machine/System.lean ====
section
/-! DEFINITION. The system commands and the buffer housekeeping (46_system.md R280 to R282, R287, R288). -/

namespace Sys2Proof.Machine

/-- NOP (R280). -/
def execNop (s : State) : Result := complete s

/-- ZEROIZE: exactly the reset state (R281). The two fields of the model's own, which hold what the host does, stay. -/
def execZeroize (s : State) : Result :=
  complete { State.reset with inbox := s.inbox, reply := s.reply }

/-- BCLR (R282). -/
def execBclr (bd : BReg) (s : State) : Result := complete (s.setB bd [])

/-- BMOV (R287). -/
def execBmov (bd ba : BReg) (s : State) : Result := complete (s.setB bd (s.getB ba))

/-- The end shared by the commands whose result is a byte string that may be longer than a buffer holds: E_OVERFLOW
above BMAX, and nothing is written (10_state.md R28). -/
def storeBounded (bd : BReg) (v : Bytes) (s : State) : Result :=
  if Config.bmax < v.length then raise .overflow s else complete (s.setB bd v)

/-- BCAT (R288). -/
def execBcat (bd ba bb : BReg) (s : State) : Result :=
  storeBounded bd (s.getB ba ++ s.getB bb) s

end Sys2Proof.Machine
end

