-- ==== Sys2Proof/Machine/Enc.lean ====
section
/-! DEFINITION. ENC, the mode encoders SHA3, cSHAKE / XOF and KMAC-XOF (42_modes.md), and the commands LENC, RENC,
ENCSTR, BYTEPAD, SETLEN, SHA3, XOF, KMACX. -/

namespace Sys2Proof.Machine

/-- The byte string `"KMAC"` (R185; 10_state.md R32). -/
def kmacName : Bytes := [0x4B, 0x4D, 0x41, 0x43]

/-- `cSHAKE256(X, L, N, C)`, L in bits, for L a multiple of 8 (R184). That L/8 is rounded down for any other L is a
DESIGN CHOICE (safe, only a state outside the invariant has such an OUTLEN, notes/assumptions/27.md). -/
def cshake256 (X : Bytes) (L : Nat) (N C : Bytes) : Bytes :=
  if N = [] ∧ C = [] then oneShot 4 X (L / 8)
  else oneShot 5 (bytepad (encodeString N ++ encodeString C) 136 ++ X) (L / 8)

/-- `KMACXOF256(K, X, L, C)`, L in bits, for a non-empty key K and L a multiple of 8 (R185). That the function gives the
stream of the same formula for an empty K, and rounds L/8 down as `cshake256` does, is a DESIGN CHOICE (safe, KMACX
refuses an empty key first and the keys of SIGN and VERIFY are never empty, notes/assumptions/27.md). -/
def kmacxof256 (K X : Bytes) (L : Nat) (C : Bytes) : Bytes :=
  cshake256 (bytepad (encodeString K) 136 ++ X ++ rightEncode 0) L kmacName C

/-- LENC (R175). -/
def execLenc (bd : BReg) (za : ZReg) (s : State) : Result :=
  if s.getZ za < 0 then raise .range s
  else complete (s.setB bd (leftEncode (s.getZ za).toNat))

/-- RENC (R176). -/
def execRenc (bd : BReg) (za : ZReg) (s : State) : Result :=
  if s.getZ za < 0 then raise .range s
  else complete (s.setB bd (rightEncode (s.getZ za).toNat))

/-- ENCSTR (R177). -/
def execEncstr (bd ba : BReg) (s : State) : Result := storeBounded bd (encodeString (s.getB ba)) s

/-- BYTEPAD (R178). -/
def execBytepad (bd ba : BReg) (w : BitVec 16) (s : State) : Result :=
  if w = 0 then raise .cfgLen s
  else storeBounded bd (bytepad (s.getB ba) w.toNat) s

/-- SETLEN (R179). -/
def execSetlen (bits : BitVec 24) (s : State) : Result :=
  if bits.toNat % 8 ≠ 0 then raise .cfgLen s
  else complete (s.setOutlen bits)

/-- SHA3 (R180). -/
def execSha3 (bd ba : BReg) (bits : BitVec 16) (s : State) : Result :=
  match digestMode bits with
  | none => raise .cfgLen s
  | some m => complete (s.discardCtx.setB bd (oneShot m (s.getB ba) (bits.toNat / 8)))

/-- XOF (R181). With an OUTLEN that is no multiple of 8, which R24 rules out: notes/assumptions/27.md. -/
def execXof (bd ba bb bc : BReg) (s : State) : Result :=
  if Config.bmax < s.outlen.toNat / 8 then raise .overflow s
  else complete (s.discardCtx.setB bd (cshake256 (s.getB ba) s.outlen.toNat (s.getB bb) (s.getB bc)))

/-- KMACX (R182). With an OUTLEN that is no multiple of 8, which R24 rules out: notes/assumptions/27.md. -/
def execKmacx (bd ba bb bc : BReg) (s : State) : Result :=
  if (s.getB ba).length = 0 then raise .cfgKey s
  else if Config.bmax < s.outlen.toNat / 8 then raise .overflow s
  else complete (s.discardCtx.setB bd (kmacxof256 (s.getB ba) (s.getB bb) s.outlen.toNat (s.getB bc)))

end Sys2Proof.Machine
end

