-- ==== Sys2Proof/Machine/Sig.lean ====
section
/-! DEFINITION. SIG, the Schnorr signature unit and the fixed-width signature codec (45_schnorr.md). -/

namespace Sys2Proof.Machine

/-- The byte string `"N"`, the customization of the nonce derivation (R267). -/
def nonceName : Bytes := [0x4E]

/-- The byte string `"T"`, the customization of the challenge (R267). -/
def challengeName : Bytes := [0x54]

/-- `encode_signature(h, z)`: h first, then z, both in the range of `enc65` (R261). Beyond: notes/assumptions/25.md. -/
def encodeSignature (h z : Int) : Bytes := enc65 h ++ enc65 z

/-- `decode_signature(s)` for a string of 130 bytes, none otherwise: the format error (R262). -/
def decodeSignature (sig : Bytes) : Option (Int × Int) :=
  if sig.length = 130 then some (decS (sig.take 65), decS (sig.drop 65)) else none

/-- The nonce k of steps 1 and 2: 4 times the KMAC of the message under the encoded scalar, not reduced (R267). -/
def nonce (sc : Int) (m : Bytes) : Nat := 4 * decU (kmacxof256 (encodeInt sc) m 512 nonceName)

/-- The challenge of step 4: the KMAC of the message under the encoded x coordinate of the commitment (R267, R268). -/
def challenge (U : Point) (m : Bytes) : Nat := decU (kmacxof256 (encodeInt U.x) m 512 challengeName)

/-- `schnorr_sign(s, m)` (R267). -/
def schnorrSign (c : Curve) (sc : Int) (m : Bytes) : Bytes :=
  let k := nonce sc m
  let h := challenge (smul c (basePoint c) k) m
  encodeSignature h ((k - h * sc) % c.R)

/-- `schnorr_verify(sig, V, m)` (R268). -/
def schnorrVerify (c : Curve) (sig : Bytes) (V : Point) (m : Bytes) : Bool :=
  match decodeSignature sig with
  | none => false
  | some (h, z) => (challenge (padd c (smul c (basePoint c) z) (smul c V h)) m : Int) = h

/-- ENCSIG (R263). -/
def execEncsig (bd : BReg) (za zb : ZReg) (s : State) : Result :=
  if fits65 (s.getZ za) && fits65 (s.getZ zb) then
    complete (s.setB bd (encodeSignature (s.getZ za) (s.getZ zb)))
  else raise .range s

/-- DECSIG (R264): h is written first, then z. -/
def execDecsig (zd ze : ZReg) (bb : BReg) (s : State) : Result :=
  match decodeSignature (s.getB bb) with
  | none => raise .format s
  | some (h, z) => complete ((s.setZ zd h).setZ ze z)

/-- SIGN (R265). -/
def execSign (bd : BReg) (za : ZReg) (bb : BReg) (s : State) : Result :=
  complete (s.discardCtx.setB bd (schnorrSign Config.curve (s.getZ za) (s.getB bb)))

/-- VERIFY (R266): a length other than 130 gives `VF` = 0 at once and keeps the sponge. A public point off the curve is
refused as in PADD (notes/assumptions/9.md). -/
def execVerify (ba : BReg) (pb : PReg) (bc : BReg) (s : State) : Result :=
  if (s.getB ba).length ≠ 130 then complete (s.setVF false)
  else if pointOk (s.getP pb) then
    complete (s.discardCtx.setVF (schnorrVerify Config.curve (s.getB ba) (s.getP pb) (s.getB bc)))
  else .refused .pointNotOnCurve

end Sys2Proof.Machine
end

