-- ==== Sys2Proof/Machine/Dispatch.lean ====
section
/-! DEFINITION. One arm per command: the meaning of each (30_encoding.md R96). -/

namespace Sys2Proof.Machine

def exec (i : Instr) (s : State) : Host.Outcome State Fault Refusal :=
  match i with
  -- system and buffer housekeeping (46_system.md)
  | .nop => Sys2Proof.Machine.execNop s
  | .zeroize => Sys2Proof.Machine.execZeroize s
  | .bclr bd => Sys2Proof.Machine.execBclr bd s
  | .bmov bd ba => Sys2Proof.Machine.execBmov bd ba s
  | .bcat bd ba bb => Sys2Proof.Machine.execBcat bd ba bb s
  -- PERM (40_permutation.md)
  | .kclr => Sys2Proof.Machine.execKclr s
  | .kld ba => Sys2Proof.Machine.execKld ba s
  | .kst bd => Sys2Proof.Machine.execKst bd s
  | .permute => Sys2Proof.Machine.execPermute s
  -- SPG (41_sponge.md)
  | .sinit mode => Sys2Proof.Machine.execSinit mode s
  | .absorb ba => Sys2Proof.Machine.execAbsorb ba s
  | .final => Sys2Proof.Machine.execFinal s
  | .squeeze bd n => Sys2Proof.Machine.execSqueeze bd n s
  -- ENC (42_modes.md)
  | .lenc bd za => Sys2Proof.Machine.execLenc bd za s
  | .renc bd za => Sys2Proof.Machine.execRenc bd za s
  | .encstr bd ba => Sys2Proof.Machine.execEncstr bd ba s
  | .bytepad bd ba w => Sys2Proof.Machine.execBytepad bd ba w s
  | .setlen bits => Sys2Proof.Machine.execSetlen bits s
  | .sha3 bd ba bits => Sys2Proof.Machine.execSha3 bd ba bits s
  | .xof bd ba bb bc => Sys2Proof.Machine.execXof bd ba bb bc s
  | .kmacx bd ba bb bc => Sys2Proof.Machine.execKmacx bd ba bb bc s
  -- MOD (43_modarith.md)
  | .zli zd value => Sys2Proof.Machine.execZli zd value s
  | .zlds zd ba => Sys2Proof.Machine.execZlds zd ba s
  | .zldu zd ba => Sys2Proof.Machine.execZldu zd ba s
  | .zst bd za => Sys2Proof.Machine.execZst bd za s
  | .zst65 bd za => Sys2Proof.Machine.execZst65 bd za s
  | .zconst zd sel => Sys2Proof.Machine.execZconst zd sel s
  | .zmov zd za => Sys2Proof.Machine.execZmov zd za s
  | .zmul4 zd za => Sys2Proof.Machine.execZmul4 zd za s
  | .zred m zd za => Sys2Proof.Machine.execZred m zd za s
  | .zeq za zb => Sys2Proof.Machine.execZeq za zb s
  | .madd m zd za zb => Sys2Proof.Machine.execMadd m zd za zb s
  | .msub m zd za zb => Sys2Proof.Machine.execMsub m zd za zb s
  | .mmul m zd za zb => Sys2Proof.Machine.execMmul m zd za zb s
  | .mneg m zd za => Sys2Proof.Machine.execMneg m zd za s
  | .minv m zd za => Sys2Proof.Machine.execMinv m zd za s
  -- ECP (44_curve.md)
  | .pid pd => Sys2Proof.Machine.execPid pd s
  | .pbase pd => Sys2Proof.Machine.execPbase pd s
  | .pset pd za zb => Sys2Proof.Machine.execPset pd za zb s
  | .pgetx zd pa => Sys2Proof.Machine.execPgetx zd pa s
  | .pgety zd pa => Sys2Proof.Machine.execPgety zd pa s
  | .pmov pd pa => Sys2Proof.Machine.execPmov pd pa s
  | .pneg pd pa => Sys2Proof.Machine.execPneg pd pa s
  | .peq pa pb => Sys2Proof.Machine.execPeq pa pb s
  | .padd pd pa pb => Sys2Proof.Machine.execPadd pd pa pb s
  | .pdbl pd pa => Sys2Proof.Machine.execPdbl pd pa s
  | .smul pd pa zb => Sys2Proof.Machine.execSmul pd pa zb s
  -- SIG (45_schnorr.md)
  | .encsig bd za zb => Sys2Proof.Machine.execEncsig bd za zb s
  | .decsig zd ze bb => Sys2Proof.Machine.execDecsig zd ze bb s
  | .sign bd za bb => Sys2Proof.Machine.execSign bd za bb s
  | .verify ba pb bc => Sys2Proof.Machine.execVerify ba pb bc s

end Sys2Proof.Machine
end

