-- ==== Sys2Proof/Machine/HostPort.lean ====
section
/-! DEFINITION. The host port: the five host actions (46_system.md R284), and how a command word is executed
(30_encoding.md R97, R102). -/

namespace Sys2Proof.Machine

/-- The reply of an action that returns nothing (R284). -/
def State.noReply (s : State) : State := { s with reply := none }

/-- `HostCommand(w)`: executes w as the next command; a word that is no command raises E_ILLEGAL (R97, R284). -/
def runWord (w : Word) (s : State) : Result :=
  match decode w with
  | .ok i => exec i s
  | .error _ => raise .illegal s

/-- `HostWrite(i, v)`: `b[i] <- v`; nothing else. Longer than BMAX it is not an action (R284). -/
def hostWrite (i : BReg) (v : Bytes) (s : State) : Result :=
  if v.length ≤ Config.bmax then .next (s.setB i v) else .refused .notAHostAction

/-- `HostRead(i)`: no effect on KPE state, returns `b[i]` with its length (R284). -/
def hostRead (i : BReg) (s : State) : Result := .next { s with reply := some (.bytes (s.getB i)) }

/-- `HostStatus()`: no effect on KPE state, returns `ST`, `VF`, `PHASE` (R284). -/
def hostStatus (s : State) : Result :=
  .next { s with reply := some (.status s.st.code s.vfBit s.sponge.phase.code) }

/-- `HostReset()`: every piece of architectural state at its reset value (70_reset_and_hazards.md R320). What the host
does after is not KPE state and stays. -/
def hostReset (s : State) : Result := .next { State.reset with inbox := s.inbox }

/-- One host action on a state whose `inbox` holds the actions after it. The reply of an earlier action is gone. -/
def hostAct (a : HostAction) (s : State) : Result :=
  match a with
  | .write i v => hostWrite i v s.noReply
  | .read i => hostRead i s.noReply
  | .status => hostStatus s.noReply
  | .command w => runWord w s.noReply
  | .reset => hostReset s

end Sys2Proof.Machine
end

