-- ==== Sys2Proof/Machine/Step.lean ====
section
/-! DEFINITION. One step of the machine: the oldest host action that is still to come (46_system.md R283, R285). -/

namespace Sys2Proof.Machine

/-- One host action, to completion. With no action to come the machine waits: nothing changes (DESIGN CHOICE, safe,
notes/assumptions/2.md). -/
def step (s : State) : Host.Outcome State Fault Refusal :=
  match s.inbox with
  | [] => .next s
  | a :: rest => hostAct a { s with inbox := rest }

/-- The state whose next action is to present the command word in the `nbits` low bits of `w`. A program is the words a
host presents (notes/assumptions/3.md). -/
def State.withFetchWord (s : State) (nbits w : Nat) : State :=
  { s with inbox := .command (BitVec.ofNat 32 (w % 2 ^ nbits)) :: s.inbox }

end Sys2Proof.Machine
end

