-- ==== Sys2Proof/Safety.lean ====
section
/-! DEFINITION. What a state of a KPE that runs from reset looks like (10_state.md R23, R24, R28, R29, R31), which
registers a command writes (10_state.md R35), and running several commands in order. Claims are stated in these
terms. -/

namespace Sys2Proof.Machine

/-- A value a point register may hold: the identity, or a point of the curve other than (0, 1), which is stored as the
identity (R31, 44_curve.md R232, R246 (g)). -/
abbrev Point.wf (c : Curve) (T : Point) : Prop := T.onCurve c = true ∧ T ≠ .affine 0 1

/-- The invariants of the sponge context. R23 (I1), sharpened: `RATE` and `SFX` are only ever written together, from the
mode table. R23 (I2) to (I5): the rest. -/
structure Sponge.Inv (sp : Sponge) : Prop where
  mode         : ∃ m : Fin 6, modeTag m = (sp.rate, sp.sfx)
  buf_short    : sp.buf.length < sp.rate.bytes
  buf_absorb   : sp.phase = .absorb ∨ sp.buf = []
  sqpos_squeeze : sp.phase = .squeeze ∨ sp.sqpos = 0
  sqpos_le     : sp.sqpos ≤ sp.rate.bytes

/-- Every action of the host that is still to come can be expressed at the port: no HostWrite is longer than BMAX
(46_system.md R284). -/
abbrev inboxOk (as : List HostAction) : Prop :=
  ∀ a ∈ as, match a with
    | .write _ v => v.length ≤ Config.bmax
    | .read _ | .status | .command _ | .reset => True

/-- The invariant of the whole state: the sponge context, `OUTLEN` a multiple of 8 (R24), every buffer within its
capacity (R28), every integer within its register (R29), every point a point of the curve in normal form (R31), and a
host that does nothing but the actions of R284. -/
structure State.Inv (s : State) : Prop where
  sponge   : s.sponge.Inv
  outlen   : s.outlen.toNat % 8 = 0
  buffers  : Memory.wf s.b
  integers : ∀ i : ZReg, fitsZ (s.getZ i) = true
  points   : ∀ i : PReg, (s.getP i).wf Config.curve
  inbox    : inboxOk s.inbox

/-- The buffer a command writes, if it writes one (R35; the destination operand of its rule). ZEROIZE, which writes all
of them, is not counted here. -/
def destB : Instr → Option BReg
  | .bclr bd | .bmov bd _ | .bcat bd _ _ | .kst bd | .squeeze bd _ => some bd
  | .lenc bd _ | .renc bd _ | .encstr bd _ | .bytepad bd _ _ => some bd
  | .sha3 bd _ _ | .xof bd _ _ _ | .kmacx bd _ _ _ => some bd
  | .zst bd _ | .zst65 bd _ | .encsig bd _ _ | .sign bd _ _ => some bd
  | .nop | .zeroize | .kclr | .kld _ | .permute | .sinit _ | .absorb _ | .final | .setlen _ => none
  | .zli _ _ | .zlds _ _ | .zldu _ _ | .zconst _ _ | .zmov _ _ | .zmul4 _ _ => none
  | .zred _ _ _ | .zeq _ _ | .madd _ _ _ _ | .msub _ _ _ _ | .mmul _ _ _ _ | .mneg _ _ _ | .minv _ _ _ => none
  | .pid _ | .pbase _ | .pset _ _ _ | .pgetx _ _ | .pgety _ _ | .pmov _ _ | .pneg _ _ | .peq _ _ => none
  | .padd _ _ _ | .pdbl _ _ | .smul _ _ _ | .decsig _ _ _ | .verify _ _ _ => none

/-- The integer registers a command writes (R35): two for DECSIG, at most one otherwise. ZEROIZE is not counted. -/
def destZ : Instr → List ZReg
  | .zli zd _ | .zlds zd _ | .zldu zd _ | .zconst zd _ | .zmov zd _ | .zmul4 zd _ => [zd]
  | .zred _ zd _ | .madd _ zd _ _ | .msub _ zd _ _ | .mmul _ zd _ _ | .mneg _ zd _ | .minv _ zd _ => [zd]
  | .pgetx zd _ | .pgety zd _ => [zd]
  | .decsig zd ze _ => [zd, ze]
  | .nop | .zeroize | .bclr _ | .bmov _ _ | .bcat _ _ _ | .kclr | .kld _ | .kst _ | .permute => []
  | .sinit _ | .absorb _ | .final | .squeeze _ _ | .lenc _ _ | .renc _ _ | .encstr _ _ | .bytepad _ _ _ => []
  | .setlen _ | .sha3 _ _ _ | .xof _ _ _ _ | .kmacx _ _ _ _ | .zst _ _ | .zst65 _ _ | .zeq _ _ => []
  | .pid _ | .pbase _ | .pset _ _ _ | .pmov _ _ | .pneg _ _ | .peq _ _ | .padd _ _ _ | .pdbl _ _ => []
  | .smul _ _ _ | .encsig _ _ _ | .sign _ _ _ | .verify _ _ _ => []

/-- The point register a command writes, if it writes one (R35). ZEROIZE is not counted. -/
def destP : Instr → Option PReg
  | .pid pd | .pbase pd | .pset pd _ _ | .pmov pd _ | .pneg pd _ | .padd pd _ _ | .pdbl pd _ | .smul pd _ _ => some pd
  | .nop | .zeroize | .bclr _ | .bmov _ _ | .bcat _ _ _ | .kclr | .kld _ | .kst _ | .permute => none
  | .sinit _ | .absorb _ | .final | .squeeze _ _ | .lenc _ _ | .renc _ _ | .encstr _ _ | .bytepad _ _ _ => none
  | .setlen _ | .sha3 _ _ _ | .xof _ _ _ _ | .kmacx _ _ _ _ => none
  | .zli _ _ | .zlds _ _ | .zldu _ _ | .zst _ _ | .zst65 _ _ | .zconst _ _ | .zmov _ _ | .zmul4 _ _ => none
  | .zred _ _ _ | .zeq _ _ | .madd _ _ _ _ | .msub _ _ _ _ | .mmul _ _ _ _ | .mneg _ _ _ | .minv _ _ _ => none
  | .pgetx _ _ | .pgety _ _ | .peq _ _ | .encsig _ _ _ | .decsig _ _ _ | .sign _ _ _ | .verify _ _ _ => none

/-- The commands that write `A` and nothing else of the sponge (40_permutation.md R132 to R134). -/
def writesLanesOnly : Instr → Bool
  | .permute | .kclr | .kld _ => true
  | _ => false

/-- The commands that work on the persistent sponge across several commands (glossary, "Streaming command"). -/
def isStreaming : Instr → Bool
  | .sinit _ | .absorb _ | .final | .squeeze _ _ => true
  | _ => false

/-- The commands that build a fresh sponge context, use it and discard it (glossary, "One-shot command"). -/
def isOneShot : Instr → Bool
  | .sha3 _ _ _ | .xof _ _ _ _ | .kmacx _ _ _ _ | .sign _ _ _ | .verify _ _ _ => true
  | _ => false

/-- The 51 pairs of match and mask of the opcode map, as the table of 30_encoding.md R96 prints them: "a word `cw` is
this command exactly when `cw & mask = match`". Only claims read it: the decoder has its own arms. -/
def opcodeRows : List (Word × Word) :=
  [(0x00000000, 0xFFFFFFFF), (0x01000000, 0xFFFFFFFF), (0x08000000, 0xFF8FFFFF), (0x09000000, 0xFF88FFFF),
   (0x0A000000, 0xFF888FFF)] ++
  [(0x10000000, 0xFFFFFFFF), (0x11000000, 0xFFF8FFFF), (0x12000000, 0xFF8FFFFF), (0x13000000, 0xFFFFFFFF)] ++
  [(0x20000000, 0xFF000000), (0x21000000, 0xFFF8FFFF), (0x22000000, 0xFFFFFFFF), (0x23000000, 0xFF8F0000)] ++
  [(0x30000000, 0xFF88FFFF), (0x31000000, 0xFF88FFFF), (0x32000000, 0xFF88FFFF), (0x33000000, 0xFF880000),
   (0x34000000, 0xFF000000), (0x35000000, 0xFF880000), (0x36000000, 0xFF8888FF), (0x37000000, 0xFF8888FF)] ++
  [(0x40000000, 0xFF8F0000), (0x41000000, 0xFF88FFFF), (0x42000000, 0xFF88FFFF), (0x43000000, 0xFF88FFFF),
   (0x44000000, 0xFF88FFFF), (0x45000000, 0xFF8FFFFE), (0x46000000, 0xFF88FFFF), (0x47000000, 0xFF88FFFF),
   (0x48000000, 0xFF88FFFE), (0x49000000, 0xFFF88FFF), (0x4A000000, 0xFF888FFE), (0x4B000000, 0xFF888FFE),
   (0x4C000000, 0xFF888FFE), (0x4D000000, 0xFF88FFFE), (0x4E000000, 0xFF88FFFE)] ++
  [(0x50000000, 0xFFCFFFFF), (0x51000000, 0xFFCFFFFF), (0x52000000, 0xFFC88FFF), (0x53000000, 0xFF8CFFFF),
   (0x54000000, 0xFF8CFFFF), (0x55000000, 0xFFCCFFFF), (0x56000000, 0xFFCCFFFF), (0x57000000, 0xFFFCCFFF),
   (0x58000000, 0xFFCCCFFF), (0x59000000, 0xFFCCFFFF), (0x5A000000, 0xFFCC8FFF)] ++
  [(0x60000000, 0xFF888FFF), (0x61000000, 0xFF888FFF), (0x62000000, 0xFF888FFF), (0x63000000, 0xFFF8C8FF)]

/-- The errors a command can raise once it is decoded, in the order its checks stand (60_exceptions.md R293). An
ill-formed ZCONST term stands for a word that does not decode (R94). -/
def errorsOf : Instr → List Status
  | .bcat _ _ _ => [.overflow]
  | .kld _ => [.length]
  | .sinit _ => [.cfgMode]
  | .absorb _ | .final => [.phase]
  | .squeeze _ _ => [.phase, .overflow]
  | .lenc _ _ | .renc _ _ => [.range]
  | .encstr _ _ => [.overflow]
  | .bytepad _ _ _ => [.cfgLen, .overflow]
  | .setlen _ => [.cfgLen]
  | .sha3 _ _ _ => [.cfgLen]
  | .xof _ _ _ _ => [.overflow]
  | .kmacx _ _ _ _ => [.cfgKey, .overflow]
  | .zlds _ _ | .zldu _ _ => [.length]
  | .zst65 _ _ | .zmul4 _ _ | .encsig _ _ _ => [.range]
  | .minv _ _ _ => [.divzero]
  | .pset _ _ _ => [.point]
  | .decsig _ _ _ => [.format]
  | .zconst _ sel => if sel.toNat < 2 then [] else [.illegal]
  | .nop | .zeroize | .bclr _ | .bmov _ _ | .kclr | .kst _ | .permute | .zli _ _ | .zst _ _ | .zmov _ _ => []
  | .zred _ _ _ | .zeq _ _ | .madd _ _ _ _ | .msub _ _ _ _ | .mmul _ _ _ _ | .mneg _ _ _ => []
  | .pid _ | .pbase _ | .pgetx _ _ | .pgety _ _ | .pmov _ _ | .pneg _ _ | .peq _ _ => []
  | .padd _ _ _ | .pdbl _ _ | .smul _ _ _ | .sign _ _ _ | .verify _ _ _ => []

/-- The commands that write `VF` (10_state.md R26). -/
def writesVF : Instr → Bool
  | .zeq _ _ | .peq _ _ | .verify _ _ _ | .zeroize => true
  | _ => false

/-- The commands of `is` executed in order, as a host presents them (20_memory.md R70). -/
def execAll : List Instr → State → Result
  | [], s => .next s
  | i :: is, s =>
    match exec i s with
    | .next t => execAll is t
    | .fault r => .fault r
    | .refused r => .refused r

/-- What 44_curve.md R246 says of a curve: the points with `padd` form a commutative group with neutral element
`Identity` and inverse `pneg`, G is a point of it, and `smul(G, R)` is the identity. The bound on R is that of R231 ("a
prime group order R just below 2^519"), by which a residue modulo R has a 65-byte form. -/
structure CurveLaws (c : Curve) : Prop where
  field_large : 2 < c.P
  order_pos : 0 < c.R
  order_small : c.R < 2 ^ 519
  base_wf : (basePoint c).wf c
  closed : ∀ T U : Point, T.wf c → U.wf c → (padd c T U).wf c
  neg_closed : ∀ T : Point, T.wf c → (pneg c T).wf c
  assoc : ∀ T U V : Point, T.wf c → U.wf c → V.wf c → padd c (padd c T U) V = padd c T (padd c U V)
  comm : ∀ T U : Point, T.wf c → U.wf c → padd c T U = padd c U T
  identity : ∀ T : Point, T.wf c → padd c T .identity = T
  inverse : ∀ T : Point, T.wf c → padd c T (pneg c T) = .identity
  base_order : smul c (basePoint c) c.R = .identity

end Sys2Proof.Machine
end

