-- ==== Sys2Proof/Certificates/Slice0/Obligations.lean ====
section
/-! DEFINITION. The statements for the provers. They are read off the numbered rules of spec/, file by file; a next state
is written as an update of the record `State`, not with the model's own update functions, so that it can be held against
the rule. The fields `inbox` and `reply` are the model's own (notes/assumptions/1.md, 4.md): no command touches them. -/

open Sys2Proof Sys2Proof.Machine

/-! ### The command word (30_encoding.md) -/

/-- R96, R102: words written out from the opcode map, one for each family and each format, decode to the commands they
stand for; two words of VERIFY with a field that must be zero and is not decode to none. That their refusal has the name
`mustBeZero` is the model's choice: the spec does not tell illegal words apart (notes/assumptions/22.md). -/
def Obligations.SampleWordsDecode : Prop :=
  decode 0x00000000 = .ok .nop ∧
  decode 0x0A123000 = .ok (.bcat 1 2 3) ∧
  decode 0x12700000 = .ok (.kst 7) ∧
  decode 0x20000005 = .ok (.sinit 5) ∧
  decode 0x23601234 = .ok (.squeeze 6 0x1234) ∧
  decode 0x37123400 = .ok (.kmacx 1 2 3 4) ∧
  decode 0x4C567001 = .ok (.mmul .orderR 5 6 7) ∧
  decode 0x45300001 = .ok (.zconst 3 1) ∧
  decode 0x5A127000 = .ok (.smul 1 2 7) ∧
  decode 0x63427500 = .error (.mustBeZero 0x63) ∧
  decode 0x63024500 = .error (.mustBeZero 0x63) ∧
  decode 0x63023500 = .ok (.verify 2 3 5)

/-- R102, `decode(encode(c)) = c` for every legal command c: no operand bit is dropped. -/
def Obligations.EncodeThenDecode : Prop :=
  ∀ i : Instr, i.wellFormed = true → decode (encode i) = .ok i

/-- R102, `encode(decode(cw)) = cw` for every legal word; a decoded command is well-formed. -/
def Obligations.DecodeThenEncode : Prop :=
  ∀ (cw : Word) (i : Instr), decode cw = .ok i → encode i = cw ∧ i.wellFormed = true

/-- R96: the table of match and mask alone decides legality, its 51 rows are pairwise disjoint, and they differ in the
opcode. -/
def Obligations.LegalWordsAreTheRows : Prop :=
  opcodeRows.length = 51 ∧
  (∀ r ∈ opcodeRows, ∀ r' ∈ opcodeRows, ∀ cw : Word, cw &&& r.2 = r.1 → cw &&& r'.2 = r'.1 → r = r') ∧
  ∀ cw : Word, (∃ i, decode cw = .ok i) ↔ ∃ r ∈ opcodeRows, cw &&& r.2 = r.1

/-- R90 to R96: the number each command is encoded as, `rd` at bit 20, `ra` at 16, `rb` at 12, `rc` at 8, the modulus
select at bit 0, the immediates at bit 0. -/
def Obligations.OperandFieldPlacement : Prop :=
  ∀ i : Instr,
    let m : Modulus → Nat := fun sel => match sel with | .fieldP => 0 | .orderR => 1
    let r2 (op a b : Nat) : Nat := op * 2 ^ 24 + a * 2 ^ 20 + b * 2 ^ 16
    let r3 (op a b c : Nat) : Nat := r2 op a b + c * 2 ^ 12
    (encode i).toNat = match i with
      | .nop => 0
      | .zeroize => 0x01 * 2 ^ 24
      | .bclr bd => r2 0x08 bd 0
      | .bmov bd ba => r2 0x09 bd ba
      | .bcat bd ba bb => r3 0x0A bd ba bb
      | .kclr => 0x10 * 2 ^ 24
      | .kld ba => r2 0x11 0 ba
      | .kst bd => r2 0x12 bd 0
      | .permute => 0x13 * 2 ^ 24
      | .sinit mode => 0x20 * 2 ^ 24 + mode.toNat
      | .absorb ba => r2 0x21 0 ba
      | .final => 0x22 * 2 ^ 24
      | .squeeze bd n => r2 0x23 bd 0 + n.toNat
      | .lenc bd za => r2 0x30 bd za
      | .renc bd za => r2 0x31 bd za
      | .encstr bd ba => r2 0x32 bd ba
      | .bytepad bd ba w => r2 0x33 bd ba + w.toNat
      | .setlen bits => 0x34 * 2 ^ 24 + bits.toNat
      | .sha3 bd ba bits => r2 0x35 bd ba + bits.toNat
      | .xof bd ba bb bc => r3 0x36 bd ba bb + bc * 2 ^ 8
      | .kmacx bd ba bb bc => r3 0x37 bd ba bb + bc * 2 ^ 8
      | .zli zd value => r2 0x40 zd 0 + value.toNat
      | .zlds zd ba => r2 0x41 zd ba
      | .zldu zd ba => r2 0x42 zd ba
      | .zst bd za => r2 0x43 bd za
      | .zst65 bd za => r2 0x44 bd za
      | .zconst zd sel => r2 0x45 zd 0 + sel.toNat
      | .zmov zd za => r2 0x46 zd za
      | .zmul4 zd za => r2 0x47 zd za
      | .zred sel zd za => r2 0x48 zd za + m sel
      | .zeq za zb => r3 0x49 0 za zb
      | .madd sel zd za zb => r3 0x4A zd za zb + m sel
      | .msub sel zd za zb => r3 0x4B zd za zb + m sel
      | .mmul sel zd za zb => r3 0x4C zd za zb + m sel
      | .mneg sel zd za => r2 0x4D zd za + m sel
      | .minv sel zd za => r2 0x4E zd za + m sel
      | .pid pd => r2 0x50 pd 0
      | .pbase pd => r2 0x51 pd 0
      | .pset pd za zb => r3 0x52 pd za zb
      | .pgetx zd pa => r2 0x53 zd pa
      | .pgety zd pa => r2 0x54 zd pa
      | .pmov pd pa => r2 0x55 pd pa
      | .pneg pd pa => r2 0x56 pd pa
      | .peq pa pb => r3 0x57 0 pa pb
      | .padd pd pa pb => r3 0x58 pd pa pb
      | .pdbl pd pa => r2 0x59 pd pa
      | .smul pd pa zb => r3 0x5A pd pa zb
      | .encsig bd za zb => r3 0x60 bd za zb
      | .decsig zd ze bb => r3 0x61 zd ze bb
      | .sign bd za bb => r3 0x62 bd za bb
      | .verify ba pb bc => r3 0x63 0 ba pb + bc * 2 ^ 8

/-- R97: executing a word that matches no row raises E_ILLEGAL, and nothing changes but `ST`. -/
def Obligations.IllegalWordsRaiseIllegal : Prop :=
  ∀ (s : State) (cw : Word), (∀ r ∈ opcodeRows, cw &&& r.2 ≠ r.1) → runWord cw s = .next { s with st := .illegal }

/-! ### The step and the host (46_system.md) -/

/-- R97, R284, R285: when the next action of the host presents a word, one step is the execution of that word: of the
command it decodes to, and E_ILLEGAL with nothing else of KPE changed where it decodes to none. What the step adds is the
model's own (notes/assumptions/1.md, 4.md): the action leaves `inbox`, and `reply` is empty. -/
def Obligations.StepRunsDecodedCommand : Prop :=
  ∀ (s : State) (cw : Word) (rest : List HostAction), s.inbox = .command cw :: rest →
    let s' : State := { s with inbox := rest, reply := none }
    step s = runWord cw s' ∧
    (∀ i : Instr, decode cw = .ok i → i.wellFormed = true → step s = exec i s') ∧
    ((∀ i : Instr, decode cw ≠ .ok i) → step s = .next { s' with st := .illegal })

/-- R23, R284: the numbers of `PHASE` at the port, and the four other actions. The model's own in it: `inbox` and
`reply`, the refusal of a HostWrite that the port cannot express (notes/assumptions/5.md), that a machine with no action
to come waits (notes/assumptions/2.md), and that HostReset keeps the actions still to come and leaves no reply
(notes/assumptions/23.md). -/
def Obligations.HostActionsDoTheirEffect : Prop :=
  Phase.idle.code = 0 ∧ Phase.absorb.code = 1 ∧ Phase.squeeze.code = 2 ∧
  ∀ (s : State) (rest : List HostAction),
    (∀ i v, s.inbox = .write i v :: rest → v.length ≤ 65535 →
      step s = .next { s with b := s.b.set i v, inbox := rest, reply := none }) ∧
    (∀ i v, s.inbox = .write i v :: rest → 65535 < v.length → step s = .refused .notAHostAction) ∧
    (∀ i, s.inbox = .read i :: rest →
      step s = .next { s with inbox := rest, reply := some (.bytes (s.getB i)) }) ∧
    (s.inbox = .status :: rest →
      step s = .next { s with inbox := rest,
                              reply := some (.status s.st.code (if s.vf then 1 else 0) s.sponge.phase.code) }) ∧
    (s.inbox = .reset :: rest → step s = .next { State.reset with inbox := rest }) ∧
    (s.inbox = [] → step s = .next s)

/-! ### Reset and the invariant (10_state.md, 70_reset_and_hazards.md) -/

/-- R34, R320: the table of reset values. -/
def Obligations.ResetValues : Prop :=
  (∀ x y, State.reset.sponge.A.lane x y = 0) ∧
  State.reset.sponge.rate.bits = 1088 ∧ State.reset.sponge.sfx = 0x1F ∧ State.reset.sponge.buf = [] ∧
  State.reset.sponge.phase.code = 0 ∧ State.reset.sponge.sqpos = 0 ∧
  State.reset.outlen = 0 ∧ State.reset.st.code = 0 ∧ State.reset.vf = false ∧
  (∀ i, State.reset.getB i = []) ∧ (∀ i, State.reset.getZ i = 0) ∧ (∀ i, State.reset.getP i = .identity)

/-- The reset state meets the invariant. -/
def Obligations.ResetMeetsTheInvariant : Prop := State.reset.Inv

/-- R23 (I1) to (I5), R24, R28, R29, R31, R246 (g): every step keeps the invariant of the whole state, from every state
that meets it. -/
def Obligations.StepKeepsTheInvariant : Prop :=
  ∀ s t : State, s.Inv → step s = .next t → t.Inv

/-- R333: every command and every host action completes from a state that meets the invariant. Two cases of it are the
model's own and not R333's: with no action to come the step answers the same state (notes/assumptions/2.md), and a ZCONST
term with a select of 2 or more, which stands for no word, answers E_ILLEGAL (notes/assumptions/14.md). -/
def Obligations.EveryStepCompletes : Prop :=
  ∀ s : State, s.Inv → (∀ i : Instr, ∃ t, exec i s = .next t) ∧ ∃ t, step s = .next t

/-! ### Status, flag and frames (10_state.md R25, R26, R35; 60_exceptions.md) -/

/-- R292: an error changes `ST` and nothing else, and after it the next command executes as it would have without the
refused one. -/
def Obligations.ErrorsArePrecise : Prop :=
  ∀ (i : Instr) (s t : State), exec i s = .next t → t.st ≠ .ok →
    t = { s with st := t.st } ∧ ∀ j : Instr, exec j t = exec j s

/-- R25, R290: no command reads `ST`, every command writes it, and its numeric values are the twelve codes 0 to 11, each
with one name. -/
def Obligations.StatusIsWrittenNeverRead : Prop :=
  (∀ (i : Instr) (s : State) (e : Status), exec i { s with st := e } = exec i s) ∧
  (([.ok, .illegal, .cfgLen, .cfgKey, .cfgMode, .format, .phase, .length, .range, .overflow, .point,
      .divzero] : List Status).map Status.code = [0, 1, 2, 3, 4, 5, 6, 7, 8, 9, 10, 11]) ∧
  (∀ e : Status, e.code.toNat < 12) ∧ State.reset.st = .ok

/-- R26: `VF` is written by VERIFY, ZEQ, PEQ and ZEROIZE and by no other command, no command reads it, and it is 0 after
reset. -/
def Obligations.FlagWritersAndReaders : Prop :=
  (∀ (i : Instr) (s t : State), writesVF i = false → exec i s = .next t → t.vf = s.vf) ∧
  (∀ (i : Instr) (s t : State) (v : Bool), exec i s = .next t →
    exec i { s with vf := v } = .next (if writesVF i then t else { t with vf := v })) ∧
  State.reset.vf = false

/-- R35, column "b operands": every byte of every buffer that is not the destination reads as before. ZEROIZE writes
all. -/
def Obligations.BufferFrame : Prop :=
  ∀ (i : Instr) (s t : State) (j : BReg) (off : Nat),
    exec i s = .next t → i ≠ .zeroize → destB i ≠ some j →
      Memory.read t.b j off = Memory.read s.b j off

/-- R35, column "z operands". -/
def Obligations.IntegerFrame : Prop :=
  ∀ (i : Instr) (s t : State) (j : ZReg),
    exec i s = .next t → i ≠ .zeroize → j ∉ destZ i → t.getZ j = s.getZ j

/-- R35, column "p operands". -/
def Obligations.PointFrame : Prop :=
  ∀ (i : Instr) (s t : State) (j : PReg),
    exec i s = .next t → i ≠ .zeroize → destP i ≠ some j → t.getP j = s.getP j

/-- R35, columns "A", "sponge context" and "OUTLEN"; R297. The raw state commands write `A` alone, ABSORB keeps `RATE`,
`SFX`, `PHASE` and `SQPOS`, FINAL and SQUEEZE keep `RATE` and `SFX`, SQUEEZE keeps `BUF` and `PHASE`; every other command
but SINIT, the one-shot commands and ZEROIZE keeps the sponge whole. That no command touches `inbox` and `reply` is the
model's own (notes/assumptions/1.md, 4.md). -/
def Obligations.SpongeAndLengthFrame : Prop :=
  ∀ (i : Instr) (s t : State), exec i s = .next t →
    (i ≠ .zeroize → isStreaming i = false → isOneShot i = false → writesLanesOnly i = false →
      t.sponge = s.sponge) ∧
    (writesLanesOnly i = true → t.sponge = { s.sponge with A := t.sponge.A }) ∧
    (∀ ba, i = .absorb ba → t.sponge = { s.sponge with A := t.sponge.A, buf := t.sponge.buf }) ∧
    (i = .final → t.sponge.rate = s.sponge.rate ∧ t.sponge.sfx = s.sponge.sfx) ∧
    (∀ bd n, i = .squeeze bd n → t.sponge = { s.sponge with A := t.sponge.A, sqpos := t.sponge.sqpos }) ∧
    (i ≠ .zeroize → (∀ bits, i ≠ .setlen bits) → t.outlen = s.outlen) ∧
    t.inbox = s.inbox ∧ t.reply = s.reply

/-- R293: a command raises only the errors of its row; a command that is not listed raises nothing. -/
def Obligations.ErrorCodesByCommand : Prop :=
  ∀ (i : Instr) (s t : State), i.wellFormed = true → exec i s = .next t → t.st = .ok ∨ t.st ∈ errorsOf i

/-! ### System commands and buffers (46_system.md) -/

/-- R280, R281, R282, R287, R288: NOP, ZEROIZE, BCLR, BMOV and BCAT, with their words. That ZEROIZE keeps `inbox` and
`reply` is the model's choice (notes/assumptions/23.md). -/
def Obligations.SystemAndBufferCommands : Prop :=
  ∀ (s : State) (bd ba bb : BReg),
    encode .nop = 0x00000000 ∧ exec .nop s = .next { s with st := .ok } ∧
    encode .zeroize = 0x01000000 ∧
    exec .zeroize s = .next
      { sponge := { A := ⟨⟨0, 0, 0, 0, 0⟩, ⟨0, 0, 0, 0, 0⟩, ⟨0, 0, 0, 0, 0⟩, ⟨0, 0, 0, 0, 0⟩, ⟨0, 0, 0, 0, 0⟩⟩,
                    rate := .r1088, sfx := 0x1F, buf := [], phase := .idle, sqpos := 0 },
        outlen := 0, st := .ok, vf := false, b := Vector.replicate 8 [], z := Vector.replicate 8 0,
        p := Vector.replicate 4 .identity, inbox := s.inbox, reply := s.reply } ∧
    (encode (.bclr bd)).toNat = 0x08000000 + bd * 2 ^ 20 ∧
    exec (.bclr bd) s = .next { s with b := s.b.set bd [], st := .ok } ∧
    (encode (.bmov bd ba)).toNat = 0x09000000 + bd * 2 ^ 20 + ba * 2 ^ 16 ∧
    exec (.bmov bd ba) s = .next { s with b := s.b.set bd (s.getB ba), st := .ok } ∧
    (encode (.bcat bd ba bb)).toNat = 0x0A000000 + bd * 2 ^ 20 + ba * 2 ^ 16 + bb * 2 ^ 12 ∧
    ((s.getB ba).length + (s.getB bb).length ≤ 65535 →
      exec (.bcat bd ba bb) s = .next { s with b := s.b.set bd (s.getB ba ++ s.getB bb), st := .ok }) ∧
    (65535 < (s.getB ba).length + (s.getB bb).length →
      exec (.bcat bd ba bb) s = .next { s with st := .overflow })

/-! ### PERM (40_permutation.md) -/

/-- R22, R133, R134, R135: KCLR clears the lanes, KLD puts together lane (x, y) from the bytes 8(5y + x) .. 8(5y + x) + 7,
least significant first, KST takes the lanes apart in that order, and KST followed by KLD of the same buffer is the
identity on `A`. -/
def Obligations.StateLoadAndStore : Prop :=
  ∀ (s : State) (ba bd : BReg),
    encode .kclr = 0x10000000 ∧
    (∃ A : KState, exec .kclr s = .next { s with sponge := { s.sponge with A := A }, st := .ok } ∧
      ∀ x y, A.lane x y = 0) ∧
    (encode (.kld ba)).toNat = 0x11000000 + ba * 2 ^ 16 ∧
    ((s.getB ba).length ≠ 200 → exec (.kld ba) s = .next { s with st := .length }) ∧
    ((s.getB ba).length = 200 →
      ∃ A : KState, exec (.kld ba) s = .next { s with sponge := { s.sponge with A := A }, st := .ok } ∧
        ∀ x y : Fin 5, (A.lane x y).toNat
          = ((List.range 8).map fun j => ((s.getB ba).getD (8 * (5 * y + x) + j) 0).toNat * 2 ^ (8 * j)).sum) ∧
    (encode (.kst bd)).toNat = 0x12000000 + bd * 2 ^ 20 ∧
    (∃ S : Bytes, exec (.kst bd) s = .next { s with b := s.b.set bd S, st := .ok } ∧ S.length = 200 ∧
      ∀ (x y : Fin 5) (j : Nat), j < 8 →
        (S.getD (8 * (5 * y + x) + j) 0).toNat = (s.sponge.A.lane x y).toNat / 2 ^ (8 * j) % 256) ∧
    (∃ t, execAll [.kst bd, .kld bd] s = .next t ∧ t.sponge = s.sponge ∧ t.st = .ok)

/-- R121, R132: PERMUTE applies the 24 rounds, the round index counting up from 0, in any phase, to `A` alone. -/
def Obligations.PermuteIsTwentyFourRounds : Prop :=
  encode .permute = 0x13000000 ∧
  ∀ s : State, ∃ B : Nat → KState,
    B 0 = s.sponge.A ∧
    (∀ ir, ir < 24 → B (ir + 1) = iota (chi (pi (rho (theta (B ir))))) (roundConstants.getD ir 0)) ∧
    exec .permute s = .next { s with sponge := { s.sponge with A := B 24 }, st := .ok }

/-- R122, R123, R125, R127, R128: the five sub-transforms, bit by bit; lane and column indexes are modulo 5. -/
def Obligations.StepMappingsBitByBit : Prop :=
  ∀ (A : KState) (x y : Fin 5) (z : Nat), z < 64 →
    let bit (A : KState) (x y : Fin 5) (z : Nat) : Bool := (A.lane x y).getLsbD z
    let parity (x : Fin 5) (z : Nat) : Bool := bit A x 0 z ^^ bit A x 1 z ^^ bit A x 2 z ^^ bit A x 3 z ^^ bit A x 4 z
    bit (theta A) x y z = (bit A x y z ^^ parity (x + 4) z ^^ parity (x + 1) ((z + 63) % 64)) ∧
    bit (rho A) x y ((z + rhoOffset x y) % 64) = bit A x y z ∧
    (pi A).lane y (2 * x + 3 * y) = A.lane x y ∧ (pi A).lane x y = A.lane (x + 3 * y) x ∧
    bit (chi A) x y z = (bit A x y z ^^ (!bit A (x + 1) y z && bit A (x + 2) y z)) ∧
    ∀ rc : Lane, (iota A rc).lane 0 0 = A.lane 0 0 ^^^ rc ∧
      ((x, y) ≠ (0, 0) → (iota A rc).lane x y = A.lane x y)

/-- R124, R126, R129, R130, R136 (d): the tables are the ones their generating rules give. The walk
(x, y) <- (y, 2x + 3y) that fills `RHO` is the lane permutation, and it is one cycle through the 24 positions other than
(0, 0). -/
def Obligations.TablesFollowTheirRules : Prop :=
  let move : Fin 5 × Fin 5 → Fin 5 × Fin 5 := fun p => (p.2, 2 * p.1 + 3 * p.2)
  let at_ : Nat → Fin 5 × Fin 5 := fun t => Nat.iterate move t (1, 0)
  rhoOffset 0 0 = 0 ∧
  (∀ t, t < 24 → rhoOffset (at_ t).1 (at_ t).2 = (t + 1) * (t + 2) / 2 % 64) ∧
  (∀ p : Fin 5 × Fin 5, p ≠ (0, 0) → ∃ t, t < 24 ∧ at_ t = p) ∧
  rhoTable.length = 25 ∧ rhoTable.Nodup ∧ (∀ v ∈ rhoTable, v < 64) ∧
  roundConstants.length = 24 ∧ (∀ ir, ir < 24 → roundConstants.getD ir 0 = generatedConstant ir) ∧
  (List.range 24).map lfsrBit
    = [true, false, false, false, false, false, false, false, true, false, true, true, false, false, false, true,
       true, true, true, false, true, false, false, false]

/-! ### SPG (41_sponge.md) -/

/-- R30, R152, R153: SINIT with a tag 0 .. 5 starts a session with the rate and the suffix of the mode table, in any
phase; any other tag raises E_CFG_MODE. -/
def Obligations.SinitOpensASession : Prop :=
  ∀ (s : State) (mode : BitVec 24),
    (encode (.sinit mode)).toNat = 0x20000000 + mode.toNat ∧
    (5 < mode.toNat → exec (.sinit mode) s = .next { s with st := .cfgMode }) ∧
    (mode.toNat ≤ 5 → ∃ (A : KState) (r : Rate) (x : Byte),
      exec (.sinit mode) s = .next
        { s with sponge := { A := A, rate := r, sfx := x, buf := [], phase := .absorb, sqpos := 0 }, st := .ok } ∧
      (∀ i j, A.lane i j = 0) ∧
      [(448, 1152, 144, 0x06), (512, 1088, 136, 0x06), (768, 832, 104, 0x06), (1024, 576, 72, 0x06),
        (512, 1088, 136, 0x1F), (512, 1088, 136, (0x04 : Byte))][mode.toNat]?
        = some (r.capacity, r.bits, r.bytes, x))

/-- R154: ABSORB appends the buffer to the pending bytes and takes whole blocks from the front while there are any, each
XORed into the front of the state and permuted; the rest stays pending. Outside the absorbing phase it raises E_PHASE. -/
def Obligations.AbsorbTakesWholeBlocks : Prop :=
  (∀ ba : BReg, (encode (.absorb ba)).toNat = 0x21000000 + ba * 2 ^ 16) ∧
  (∀ (s : State) (ba : BReg), s.sponge.phase ≠ .absorb → exec (.absorb ba) s = .next { s with st := .phase }) ∧
  (∀ (s : State) (ba : BReg), s.sponge.phase = .absorb →
    let rb := s.sponge.rate.bits / 8
    let data := s.sponge.buf ++ s.getB ba
    let k := data.length / rb
    let blks := (List.range k).map fun i => (data.drop (i * rb)).take rb
    exec (.absorb ba) s = .next
      { s with sponge := { s.sponge with A := blks.foldl (fun A blk => keccakP (A.xorBlock blk)) s.sponge.A,
                                         buf := data.drop (k * rb) },
               st := .ok }) ∧
  ∀ (A : KState) (blk : Bytes) (x y : Fin 5) (j : Nat), j < 8 →
    ((A.xorBlock blk).lane x y).toNat / 2 ^ (8 * j) % 256
      = ((A.lane x y).toNat / 2 ^ (8 * j) % 256) ^^^ (blk.getD (8 * (5 * y + x) + j) 0).toNat

/-- R151, R155: FINAL absorbs the padded last block, described byte by byte, and turns to squeezing. The premise that less
than a block is pending is R23 (I2), part of the invariant. -/
def Obligations.FinalPadsAndPermutes : Prop :=
  encode .final = 0x22000000 ∧
  (∀ s : State, s.sponge.phase ≠ .absorb → exec .final s = .next { s with st := .phase }) ∧
  ∀ s : State, s.sponge.phase = .absorb → s.sponge.buf.length < s.sponge.rate.bytes →
    ∃ blk : Bytes, blk.length = s.sponge.rate.bytes ∧
      (∀ j, j < s.sponge.rate.bytes →
        blk.getD j 0 = (if j < s.sponge.buf.length then s.sponge.buf.getD j 0 else 0)
          ^^^ (if j = s.sponge.buf.length then s.sponge.sfx else 0)
          ^^^ (if j = s.sponge.rate.bytes - 1 then 0x80 else 0)) ∧
      exec .final s = .next
        { s with sponge := { s.sponge with A := keccakP (s.sponge.A.xorBlock blk), buf := [], phase := .squeeze,
                                           sqpos := 0 },
                 st := .ok }

/-- R156: SQUEEZE n gives the next n bytes of the stream whose byte q is byte q mod rb of the state q div rb permutations
on, permutes only when a byte of a further block is needed, and moves `SQPOS`. The premise on `SQPOS` is R23 (I5), part of
the invariant. E_OVERFLOW cannot occur: n is at most 65535 = BMAX. -/
def Obligations.SqueezeContinuesTheStream : Prop :=
  (∀ (bd : BReg) (n : BitVec 16), (encode (.squeeze bd n)).toNat = 0x23000000 + bd * 2 ^ 20 + n.toNat) ∧
  (∀ (s : State) (bd : BReg) (n : BitVec 16), s.sponge.phase ≠ .squeeze →
    exec (.squeeze bd n) s = .next { s with st := .phase }) ∧
  ∀ (s : State) (bd : BReg) (n : BitVec 16), s.sponge.phase = .squeeze → s.sponge.sqpos ≤ s.sponge.rate.bytes →
    let rb := s.sponge.rate.bytes
    let pos := s.sponge.sqpos
    ∃ out : Bytes, out.length = n.toNat ∧
      (∀ j, j < n.toNat →
        out.getD j 0 = (Nat.iterate keccakP ((pos + j) / rb) s.sponge.A).toBytes.getD ((pos + j) % rb) 0) ∧
      exec (.squeeze bd n) s = .next
        { s with
          sponge := if n = 0 then s.sponge
                    else { s.sponge with A := Nat.iterate keccakP ((pos + n.toNat - 1) / rb) s.sponge.A,
                                         sqpos := (pos + n.toNat - 1) % rb + 1 }
          b := s.b.set bd out
          st := .ok }

/-- R156 (c), R159 (a), R331: absorbing two buffers one after the other leaves the sponge that absorbing their
concatenation leaves, and squeezing n1 and then n2 bytes gives the n1 + n2 bytes that one SQUEEZE gives, split in two. -/
def Obligations.SplittingChangesNothing : Prop :=
  (∀ (s : State) (ba bb : BReg), s.sponge.phase = .absorb →
    ∃ t u, execAll [.absorb ba, .absorb bb] s = .next t ∧
      exec (.absorb ba) { s with b := s.b.set ba (s.getB ba ++ s.getB bb) } = .next u ∧ t.sponge = u.sponge) ∧
  ∀ (s : State) (ba bb : BReg) (n1 n2 : BitVec 16), s.sponge.phase = .squeeze →
    s.sponge.sqpos ≤ s.sponge.rate.bytes → ba ≠ bb → n1.toNat + n2.toNat < 2 ^ 16 →
    ∃ t u, execAll [.squeeze ba n1, .squeeze bb n2] s = .next t ∧ exec (.squeeze ba (n1 + n2)) s = .next u ∧
      u.getB ba = t.getB ba ++ t.getB bb ∧ t.sponge = u.sponge

/-- R157: `SINIT mode; ABSORB (pieces of M in order, any split); FINAL; SQUEEZE n` leaves `Sponge(mode, M, n)` in the
destination buffer, from every state. -/
def Obligations.StreamingComputesTheSponge : Prop :=
  ∀ (s : State) (m : Fin 6) (pieces : List BReg) (bd : BReg) (n : BitVec 16),
    ∃ t, execAll (.sinit (BitVec.ofNat 24 m) :: (pieces.map Instr.absorb ++ [.final, .squeeze bd n])) s = .next t ∧
      t.st = .ok ∧ t.getB bd = spongeFn m (pieces.flatMap s.getB) n.toNat ∧
      ∀ j, j ≠ bd → t.getB j = s.getB j

/-- R159 (b), (d): the sponge gives exactly n bytes, and a shorter output is the front of a longer one. -/
def Obligations.SpongeOutputsArePrefixes : Prop :=
  ∀ (m : Fin 6) (M : Bytes) (n1 n2 : Nat), n1 ≤ n2 →
    (spongeFn m M n1).length = n1 ∧ spongeFn m M n1 = (spongeFn m M n2).take n1

/-! ### ENC (42_modes.md) -/

/-- R171, R172, R175, R176: the length encodings take the least number n ≥ 1 of bytes that holds the value, most
significant first, with the count in front or behind, and LENC and RENC put them into a buffer; a negative value raises
E_RANGE. -/
def Obligations.LengthEncodings : Prop :=
  (∀ x : Nat, x < 2 ^ 2040 → ∃ (n : Nat) (ds : Bytes),
    1 ≤ n ∧ n ≤ 255 ∧ x < 2 ^ (8 * n) ∧ (n = 1 ∨ 2 ^ (8 * (n - 1)) ≤ x) ∧ ds.length = n ∧ decU ds = x ∧
    leftEncode x = BitVec.ofNat 8 n :: ds ∧ rightEncode x = ds ++ [BitVec.ofNat 8 n]) ∧
  ∀ (s : State) (bd : BReg) (za : ZReg),
    (encode (.lenc bd za)).toNat = 0x30000000 + bd * 2 ^ 20 + za * 2 ^ 16 ∧
    (encode (.renc bd za)).toNat = 0x31000000 + bd * 2 ^ 20 + za * 2 ^ 16 ∧
    (s.getZ za < 0 → exec (.lenc bd za) s = .next { s with st := .range } ∧
      exec (.renc bd za) s = .next { s with st := .range }) ∧
    (∀ x : Nat, s.getZ za = x →
      exec (.lenc bd za) s = .next { s with b := s.b.set bd (leftEncode x), st := .ok } ∧
      exec (.renc bd za) s = .next { s with b := s.b.set bd (rightEncode x), st := .ok })

/-- R173, R174, R177, R178: ENCSTR puts the left-encoded bit length in front; BYTEPAD puts the left-encoded width in front
and as few zero bytes behind as make the length a multiple of the width. A width of 0 raises E_CFG_LEN, checked before
the E_OVERFLOW that a result longer than BMAX raises. -/
def Obligations.EncstrAndBytepad : Prop :=
  ∀ (s : State) (bd ba : BReg) (w : BitVec 16),
    (encode (.encstr bd ba)).toNat = 0x32000000 + bd * 2 ^ 20 + ba * 2 ^ 16 ∧
    (encode (.bytepad bd ba w)).toNat = 0x33000000 + bd * 2 ^ 20 + ba * 2 ^ 16 + w.toNat ∧
    (let v := leftEncode (8 * (s.getB ba).length) ++ s.getB ba
     (v.length ≤ 65535 → exec (.encstr bd ba) s = .next { s with b := s.b.set bd v, st := .ok }) ∧
     (65535 < v.length → exec (.encstr bd ba) s = .next { s with st := .overflow })) ∧
    (w = 0 → exec (.bytepad bd ba w) s = .next { s with st := .cfgLen }) ∧
    (w ≠ 0 → ∃ k : Nat, k < w.toNat ∧
      let v := leftEncode w.toNat ++ s.getB ba ++ List.replicate k 0
      w.toNat ∣ v.length ∧
      (v.length ≤ 65535 → exec (.bytepad bd ba w) s = .next { s with b := s.b.set bd v, st := .ok }) ∧
      (65535 < v.length → exec (.bytepad bd ba w) s = .next { s with st := .overflow }))

/-- R24, R179: SETLEN sets `OUTLEN` to a multiple of 8 and refuses any other length. -/
def Obligations.SetlenTakesMultiplesOfEight : Prop :=
  ∀ (s : State) (bits : BitVec 24),
    (encode (.setlen bits)).toNat = 0x34000000 + bits.toNat ∧
    (8 ∣ bits.toNat → exec (.setlen bits) s = .next { s with outlen := bits, st := .ok }) ∧
    (¬ 8 ∣ bits.toNat → exec (.setlen bits) s = .next { s with st := .cfgLen })

/-- R180, R183: SHA3 with one of the four lengths gives the sponge of the mode whose capacity is twice the length, and
discards the context; any other length raises E_CFG_LEN. -/
def Obligations.Sha3IsTheFixedHash : Prop :=
  ∀ (s : State) (bd ba : BReg) (bits : BitVec 16),
    (encode (.sha3 bd ba bits)).toNat = 0x35000000 + bd * 2 ^ 20 + ba * 2 ^ 16 + bits.toNat ∧
    (bits.toNat ∉ [224, 256, 384, 512] → exec (.sha3 bd ba bits) s = .next { s with st := .cfgLen }) ∧
    (bits.toNat ∈ [224, 256, 384, 512] → ∃ m : Fin 6,
      (modeTag m).1.capacity = 2 * bits.toNat ∧ (modeTag m).2 = 0x06 ∧
      (spongeFn m (s.getB ba) (bits.toNat / 8)).length * 8 = bits.toNat ∧
      exec (.sha3 bd ba bits) s = .next
        { s with sponge := Sponge.discarded, b := s.b.set bd (spongeFn m (s.getB ba) (bits.toNat / 8)), st := .ok })

/-- R181, R184: XOF is the plain sponge when the function name and the customization are both empty, and cSHAKE
otherwise; the output has OUTLEN/8 bytes, or E_OVERFLOW is raised. R24 rules out an OUTLEN that is no multiple of 8; that
OUTLEN/8 is rounded down there is the model's own choice (notes/assumptions/27.md). -/
def Obligations.XofIsTheCustomizableXof : Prop :=
  ∀ (s : State) (bd ba bb bc : BReg),
    (encode (.xof bd ba bb bc)).toNat = 0x36000000 + bd * 2 ^ 20 + ba * 2 ^ 16 + bb * 2 ^ 12 + bc * 2 ^ 8 ∧
    (65535 < s.outlen.toNat / 8 → exec (.xof bd ba bb bc) s = .next { s with st := .overflow }) ∧
    (s.outlen.toNat / 8 ≤ 65535 → ∃ out : Bytes, out.length = s.outlen.toNat / 8 ∧
      exec (.xof bd ba bb bc) s = .next { s with sponge := Sponge.discarded, b := s.b.set bd out, st := .ok } ∧
      (s.getB bb = [] ∧ s.getB bc = [] → out = spongeFn 4 (s.getB ba) (s.outlen.toNat / 8)) ∧
      (¬ (s.getB bb = [] ∧ s.getB bc = []) →
        out = spongeFn 5 (bytepad (encodeString (s.getB bb) ++ encodeString (s.getB bc)) 136 ++ s.getB ba)
                (s.outlen.toNat / 8)))

/-- R182, R185: KMACX absorbs the padded name "KMAC" and customization, the padded key, the data and 00 01, in mode 5; an
empty key raises E_CFG_KEY, checked before E_OVERFLOW. R24 rules out an OUTLEN that is no multiple of 8; that OUTLEN/8 is
rounded down there is the model's own choice (notes/assumptions/27.md). -/
def Obligations.KmacxIsTheKeyedMac : Prop :=
  ∀ (s : State) (bd ba bb bc : BReg),
    (encode (.kmacx bd ba bb bc)).toNat = 0x37000000 + bd * 2 ^ 20 + ba * 2 ^ 16 + bb * 2 ^ 12 + bc * 2 ^ 8 ∧
    (s.getB ba = [] → exec (.kmacx bd ba bb bc) s = .next { s with st := .cfgKey }) ∧
    (s.getB ba ≠ [] → 65535 < s.outlen.toNat / 8 →
      exec (.kmacx bd ba bb bc) s = .next { s with st := .overflow }) ∧
    (s.getB ba ≠ [] → s.outlen.toNat / 8 ≤ 65535 →
      exec (.kmacx bd ba bb bc) s = .next
        { s with
          sponge := Sponge.discarded
          b := s.b.set bd (spongeFn 5
                (bytepad ([0x01, 0x20, 0x4B, 0x4D, 0x41, 0x43] ++ encodeString (s.getB bc)) 136
                  ++ bytepad (encodeString (s.getB ba)) 136 ++ s.getB bb ++ [0x00, 0x01])
                (s.outlen.toNat / 8))
          st := .ok })

/-- R30, R326, R334: what a one-shot command does depends on no part of the state and sponge context it finds. It either
completes and leaves the discarded context, after which a streaming command raises E_PHASE, or it leaves the session as
it was (an error, or VERIFY of a string that is not 130 bytes). -/
def Obligations.OneShotsIgnoreTheSession : Prop :=
  ∀ (i : Instr) (s t : State) (sp : Sponge), isOneShot i = true → exec i s = .next t →
    (t.sponge = Sponge.discarded ∧ t.st = .ok ∧ exec i { s with sponge := sp } = .next t ∧
      (∀ ba, exec (.absorb ba) t = .next { t with st := .phase }) ∧
      exec .final t = .next { t with st := .phase } ∧
      (∀ bd n, exec (.squeeze bd n) t = .next { t with st := .phase })) ∨
    (t.sponge = s.sponge ∧ exec i { s with sponge := sp } = .next { t with sponge := sp } ∧
      (t.st ≠ .ok ∨ ∃ ba pb bc, i = .verify ba pb bc ∧ (s.getB ba).length ≠ 130))

/-! ### MOD (43_modarith.md) -/

/-- R201, R202, R203: the natural encoding is the shortest two's-complement form and is never empty, the fixed encoding
has 65 bytes and is the natural one sign-extended, the decoders read the sum of s[i] * 256^(len - 1 - i), decoding gives
back what was encoded, and extending the sign on the left changes no value. R203 marks these laws as derived. -/
def Obligations.IntegerCodec : Prop :=
  (∀ s : Bytes, decU s = ((List.range s.length).map fun i => (s.getD i 0).toNat * 256 ^ (s.length - 1 - i)).sum) ∧
  (∀ s : Bytes, s ≠ [] →
    decS s = if 0x80 ≤ (s.getD 0 0).toNat then (decU s : Int) - 256 ^ s.length else (decU s : Int)) ∧
  (∀ n : Int, decS (encNat n) = n ∧ (encNat n).length ≠ 0 ∧
    ∀ s : Bytes, s ≠ [] → decS s = n → (encNat n).length ≤ s.length ∧
      (s.length = (encNat n).length → s = encNat n)) ∧
  (∀ n : Int, -2 ^ 519 ≤ n → n ≤ 2 ^ 519 - 1 →
    decS (enc65 n) = n ∧ (enc65 n).length = 65 ∧
    enc65 n = List.replicate (65 - (encNat n).length) (if n < 0 then 0xFF else 0x00) ++ encNat n) ∧
  (∀ s : Bytes, decS (0x00 :: s) = decU s) ∧
  (∀ s : Bytes, s ≠ [] → decS ((if 0x80 ≤ (s.getD 0 0).toNat then 0xFF else 0x00) :: s) = decS s)

/-- R204, R205, R206, R210: ZLI, ZLDS, ZLDU and ZMOV, with their words and the lengths they refuse. -/
def Obligations.IntegerLoadsAndMoves : Prop :=
  ∀ (s : State) (zd za : ZReg) (ba : BReg) (value : BitVec 16),
    (encode (.zli zd value)).toNat = 0x40000000 + zd * 2 ^ 20 + value.toNat ∧
    exec (.zli zd value) s = .next { s with z := s.z.set zd value.toNat, st := .ok } ∧
    (encode (.zlds zd ba)).toNat = 0x41000000 + zd * 2 ^ 20 + ba * 2 ^ 16 ∧
    (1 ≤ (s.getB ba).length ∧ (s.getB ba).length ≤ 66 →
      exec (.zlds zd ba) s = .next { s with z := s.z.set zd (decS (s.getB ba)), st := .ok }) ∧
    (¬ (1 ≤ (s.getB ba).length ∧ (s.getB ba).length ≤ 66) → exec (.zlds zd ba) s = .next { s with st := .length }) ∧
    (encode (.zldu zd ba)).toNat = 0x42000000 + zd * 2 ^ 20 + ba * 2 ^ 16 ∧
    ((s.getB ba).length ≤ 65 →
      exec (.zldu zd ba) s = .next { s with z := s.z.set zd (decU (s.getB ba)), st := .ok }) ∧
    (65 < (s.getB ba).length → exec (.zldu zd ba) s = .next { s with st := .length }) ∧
    (encode (.zmov zd za)).toNat = 0x46000000 + zd * 2 ^ 20 + za * 2 ^ 16 ∧
    exec (.zmov zd za) s = .next { s with z := s.z.set zd (s.getZ za), st := .ok }

/-- R207, R208, R211: ZST, ZST65 and ZMUL4, with their words and their E_RANGE. -/
def Obligations.IntegerStoresAndCofactor : Prop :=
  ∀ (s : State) (bd : BReg) (zd za : ZReg),
    (encode (.zst bd za)).toNat = 0x43000000 + bd * 2 ^ 20 + za * 2 ^ 16 ∧
    exec (.zst bd za) s = .next { s with b := s.b.set bd (encNat (s.getZ za)), st := .ok } ∧
    (encode (.zst65 bd za)).toNat = 0x44000000 + bd * 2 ^ 20 + za * 2 ^ 16 ∧
    (-2 ^ 519 ≤ s.getZ za ∧ s.getZ za ≤ 2 ^ 519 - 1 →
      exec (.zst65 bd za) s = .next { s with b := s.b.set bd (enc65 (s.getZ za)), st := .ok }) ∧
    (s.getZ za < -2 ^ 519 ∨ 2 ^ 519 - 1 < s.getZ za → exec (.zst65 bd za) s = .next { s with st := .range }) ∧
    (encode (.zmul4 zd za)).toNat = 0x47000000 + zd * 2 ^ 20 + za * 2 ^ 16 ∧
    (-2 ^ 527 ≤ 4 * s.getZ za ∧ 4 * s.getZ za ≤ 2 ^ 527 - 1 →
      exec (.zmul4 zd za) s = .next { s with z := s.z.set zd (4 * s.getZ za), st := .ok }) ∧
    (4 * s.getZ za < -2 ^ 527 ∨ 2 ^ 527 - 1 < 4 * s.getZ za → exec (.zmul4 zd za) s = .next { s with st := .range })

/-- R200, R212, R214, R215, R216, R217: each of the five commands writes the one number in 0 .. mod(m) − 1 that is
congruent to the exact integer result, for operands of any size and sign, and for both moduli. -/
def Obligations.ModularCommandsGiveResidues : Prop :=
  ∀ (s : State) (m : Modulus) (zd za zb : ZReg),
    let p : Int := match m with | .fieldP => Config.curve.P | .orderR => Config.curve.R
    let gives (i : Instr) (n : Int) : Prop :=
      ∃ r : Int, 0 ≤ r ∧ r < p ∧ p ∣ n - r ∧ exec i s = .next { s with z := s.z.set zd r, st := .ok }
    gives (.zred m zd za) (s.getZ za) ∧
    gives (.madd m zd za zb) (s.getZ za + s.getZ zb) ∧
    gives (.msub m zd za zb) (s.getZ za - s.getZ zb) ∧
    gives (.mmul m zd za zb) (s.getZ za * s.getZ zb) ∧
    gives (.mneg m zd za) (-s.getZ za)

/-- R218: MINV of a multiple of the modulus raises E_DIVZERO; otherwise it writes a number in 1 .. mod(m) − 1, which is the
inverse. For the group order the claim is made of operands prime to it: it does not rest on the primality of R. -/
def Obligations.ModularInverse : Prop :=
  ∀ (s : State) (m : Modulus) (zd za : ZReg),
    let p : Int := match m with | .fieldP => Config.curve.P | .orderR => Config.curve.R
    (p ∣ s.getZ za → exec (.minv m zd za) s = .next { s with st := .divzero }) ∧
    (¬ p ∣ s.getZ za → ∃ r : Int, 0 ≤ r ∧ r < p ∧
      exec (.minv m zd za) s = .next { s with z := s.z.set zd r, st := .ok } ∧
      (m = .fieldP ∨ Int.gcd (s.getZ za) p = 1 → 1 ≤ r ∧ p ∣ s.getZ za * r - 1))

/-- R219: subtracting is adding the negative, an operand times its inverse is 1, and the product of residues is the residue
of the product. For the field prime the second law is claimed of every operand that is not a multiple of it, for the
group order of the operands prime to it: it does not rest on the primality of R. -/
def Obligations.ModularLaws : Prop :=
  ∀ (s : State) (m : Modulus) (zd za zb zt : ZReg), zt ≠ za →
    (∃ t u, execAll [.mneg m zt zb, .madd m zd za zt] s = .next t ∧ exec (.msub m zd za zb) s = .next u ∧
      t.getZ zd = u.getZ zd) ∧
    (let p : Int := match m with | .fieldP => Config.curve.P | .orderR => Config.curve.R
     (m = .fieldP ∧ ¬ p ∣ s.getZ za) ∨ Int.gcd (s.getZ za) p = 1 →
      ∃ t, execAll [.minv m zt za, .mmul m zd za zt] s = .next t ∧ t.getZ zd = 1) ∧
    (∃ t u, execAll [.zred m zt zb, .mmul m zd za zt] s = .next t ∧ exec (.mmul m zd zb za) s = .next u ∧
      t.getZ zd = u.getZ zd)

/-- R213, R232, R239: ZEQ compares integers, not residues; PEQ compares points by their coordinate views, which decide
equality for values in normal form. -/
def Obligations.ComparisonsSetTheFlag : Prop :=
  ∀ (s : State) (za zb : ZReg) (pa pb : PReg),
    (encode (.zeq za zb)).toNat = 0x49000000 + za * 2 ^ 16 + zb * 2 ^ 12 ∧
    (s.getZ za = s.getZ zb → exec (.zeq za zb) s = .next { s with vf := true, st := .ok }) ∧
    (s.getZ za ≠ s.getZ zb → exec (.zeq za zb) s = .next { s with vf := false, st := .ok }) ∧
    (encode (.peq pa pb)).toNat = 0x57000000 + pa * 2 ^ 16 + pb * 2 ^ 12 ∧
    ((s.getP pa).wf Config.curve → (s.getP pb).wf Config.curve →
      (((s.getP pa).x = (s.getP pb).x ∧ (s.getP pa).y = (s.getP pb).y) →
        exec (.peq pa pb) s = .next { s with vf := true, st := .ok }) ∧
      (¬ ((s.getP pa).x = (s.getP pb).x ∧ (s.getP pa).y = (s.getP pb).y) →
        exec (.peq pa pb) s = .next { s with vf := false, st := .ok })) ∧
    (s.getP pa = s.getP pb → exec (.peq pa pb) s = .next { s with vf := true, st := .ok }) ∧
    (s.getP pa ≠ s.getP pb → exec (.peq pa pb) s = .next { s with vf := false, st := .ok })

/-! ### ECP (44_curve.md) -/

/-- R209, R231, R246 (a): the constants. P is prime, d is not a square modulo P, R is the number the rule prints, G
satisfies the equation and its y is even; ZCONST loads P or R. That a ZCONST term with any other select raises E_ILLEGAL
is the model's choice for a term that stands for no word (notes/assumptions/14.md). -/
def Obligations.CurveConstants : Prop :=
  Nat.Prime Config.curve.P ∧ (¬ ∃ x : Int, (Config.curve.P : Int) ∣ x ^ 2 - Config.curve.d) ∧
  Config.curve.P = 2 ^ 521 - 1 ∧ Config.curve.d + 376014 = Config.curve.P ∧
  Config.curve.R = 0x7FFFFFFFFFFFFFFFFFFFFFFFFFFFFFFFFFFFFFFFFFFFFFFFFFFFFFFFFFFFFFFFFFD15B6C64746FC85F736B8AF5E7EC53F04FBD8C4569A8F1F4540EA2435F5180D6B ∧
  Config.curve.gx = 4 ∧ Config.curve.gy < Config.curve.P ∧ Config.curve.gy % 2 = 0 ∧
  (Config.curve.P : Int) ∣ (1 + Config.curve.d * 16 * Config.curve.gy ^ 2) - (16 + Config.curve.gy ^ 2) ∧
  (basePoint Config.curve).wf Config.curve ∧
  ∀ (s : State) (zd : ZReg) (sel : BitVec 16),
    (encode (.zconst zd sel)).toNat = 0x45000000 + zd * 2 ^ 20 + sel.toNat ∧
    (sel = 0 → exec (.zconst zd sel) s = .next { s with z := s.z.set zd Config.curve.P, st := .ok }) ∧
    (sel = 1 → exec (.zconst zd sel) s = .next { s with z := s.z.set zd Config.curve.R, st := .ok }) ∧
    (2 ≤ sel.toNat → exec (.zconst zd sel) s = .next { s with st := .illegal })

/-- R232, R236, R237, R238, R244, R245: PID, PBASE, PMOV, PGETX and PGETY, with their words. "The result is always in
0 .. P − 1" is claimed of a register that holds a point in normal form, which is R31, part of the invariant. -/
def Obligations.PointMoves : Prop :=
  ∀ (s : State) (pd pa : PReg) (zd : ZReg),
    (encode (.pid pd)).toNat = 0x50000000 + pd * 2 ^ 20 ∧
    exec (.pid pd) s = .next { s with p := s.p.set pd .identity, st := .ok } ∧
    (encode (.pbase pd)).toNat = 0x51000000 + pd * 2 ^ 20 ∧
    exec (.pbase pd) s = .next { s with p := s.p.set pd (.affine 4 Config.curve.gy), st := .ok } ∧
    (encode (.pmov pd pa)).toNat = 0x55000000 + pd * 2 ^ 20 + pa * 2 ^ 16 ∧
    exec (.pmov pd pa) s = .next { s with p := s.p.set pd (s.getP pa), st := .ok } ∧
    (encode (.pgetx zd pa)).toNat = 0x53000000 + zd * 2 ^ 20 + pa * 2 ^ 16 ∧
    (encode (.pgety zd pa)).toNat = 0x54000000 + zd * 2 ^ 20 + pa * 2 ^ 16 ∧
    (s.getP pa = .identity →
      exec (.pgetx zd pa) s = .next { s with z := s.z.set zd 0, st := .ok } ∧
      exec (.pgety zd pa) s = .next { s with z := s.z.set zd 1, st := .ok }) ∧
    ((s.getP pa).wf Config.curve →
      (∃ t, exec (.pgetx zd pa) s = .next t ∧ 0 ≤ t.getZ zd ∧ t.getZ zd < Config.curve.P) ∧
      ∃ t, exec (.pgety zd pa) s = .next t ∧ 0 ≤ t.getZ zd ∧ t.getZ zd < Config.curve.P) ∧
    ∀ x y : Int, s.getP pa = .affine x y →
      exec (.pgetx zd pa) s = .next { s with z := s.z.set zd x, st := .ok } ∧
      exec (.pgety zd pa) s = .next { s with z := s.z.set zd y, st := .ok }

/-- R232, R233, R235: PSET takes coordinates in 0 .. P − 1 that satisfy the equation, stores (0, 1) as the identity, and
raises E_POINT for any others. -/
def Obligations.PsetChecksThePoint : Prop :=
  ∀ (s : State) (pd : PReg) (za zb : ZReg),
    let x := s.getZ za
    let y := s.getZ zb
    let P : Int := Config.curve.P
    let ok := (0 ≤ x ∧ x < P) ∧ (0 ≤ y ∧ y < P) ∧ P ∣ (1 + Config.curve.d * x ^ 2 * y ^ 2) - (x ^ 2 + y ^ 2)
    (encode (.pset pd za zb)).toNat = 0x52000000 + pd * 2 ^ 20 + za * 2 ^ 16 + zb * 2 ^ 12 ∧
    (ok → x = 0 → y = 1 → exec (.pset pd za zb) s = .next { s with p := s.p.set pd .identity, st := .ok }) ∧
    (ok → ¬ (x = 0 ∧ y = 1) → exec (.pset pd za zb) s = .next { s with p := s.p.set pd (.affine x y), st := .ok }) ∧
    (¬ ok → exec (.pset pd za zb) s = .next { s with st := .point })

/-- R234, R243: PNEG mirrors a point in the y axis. The premise that the register holds a point in normal form is R31, part
of the invariant. That the result is on the curve and in normal form again is what R31 and R246 (g) mark as derived. -/
def Obligations.PnegMirrorsThePoint : Prop :=
  ∀ (s : State) (pd pa : PReg), (s.getP pa).wf Config.curve →
    (encode (.pneg pd pa)).toNat = 0x56000000 + pd * 2 ^ 20 + pa * 2 ^ 16 ∧
    ∃ Q : Point, exec (.pneg pd pa) s = .next { s with p := s.p.set pd Q, st := .ok } ∧
      Q.wf Config.curve ∧ Q.y = (s.getP pa).y ∧
      Q.x = if (s.getP pa).x = 0 then 0 else Config.curve.P - (s.getP pa).x

/-- R233, R240, R241: on points of the curve PADD completes, its result is a point of the curve in normal form and solves
the Edwards addition law, neither of whose denominators is a multiple of P; PDBL is PADD of a register with itself. The
premise is R31, part of the invariant. That the model stops off the curve is its own choice
(notes/assumptions/9.md). -/
def Obligations.PaddSolvesTheAdditionLaw : Prop :=
  ∀ (s : State) (pd pa pb : PReg),
    (encode (.padd pd pa pb)).toNat = 0x58000000 + pd * 2 ^ 20 + pa * 2 ^ 16 + pb * 2 ^ 12 ∧
    (encode (.pdbl pd pa)).toNat = 0x59000000 + pd * 2 ^ 20 + pa * 2 ^ 16 ∧
    exec (.pdbl pd pa) s = exec (.padd pd pa pa) s ∧
    (¬ ((s.getP pa).onCurve Config.curve = true ∧ (s.getP pb).onCurve Config.curve = true) →
      exec (.padd pd pa pb) s = .refused .pointNotOnCurve) ∧
    ((s.getP pa).onCurve Config.curve = true → (s.getP pb).onCurve Config.curve = true →
      let P : Int := Config.curve.P
      let x1 := (s.getP pa).x
      let y1 := (s.getP pa).y
      let x2 := (s.getP pb).x
      let y2 := (s.getP pb).y
      let e : Int := Config.curve.d * x1 * x2 * y1 * y2
      ¬ P ∣ 1 + e ∧ ¬ P ∣ 1 - e ∧
      ∃ Q : Point, exec (.padd pd pa pb) s = .next { s with p := s.p.set pd Q, st := .ok } ∧ Q.wf Config.curve ∧
        P ∣ Q.x * (1 + e) - (x1 * y2 + y1 * x2) ∧ P ∣ Q.y * (1 - e) - (y1 * y2 - x1 * x2))

/-- R233, R246 (b), (e): adding the identity gives the point back, adding the negative gives the identity, and the order
of the operands does not matter. -/
def Obligations.GroupIdentities : Prop :=
  ∀ (s : State) (pd pa pb : PReg), (s.getP pa).wf Config.curve → (s.getP pb).wf Config.curve →
    exec (.padd pd pa pb) s = exec (.padd pd pb pa) s ∧
    (s.getP pb = .identity → exec (.padd pd pa pb) s = .next { s with p := s.p.set pd (s.getP pa), st := .ok }) ∧
    (pb ≠ pa → ∃ t, execAll [.pneg pb pa, .padd pd pa pb] s = .next t ∧ t.getP pd = .identity ∧ t.st = .ok)

/-- R234, R242: SMUL completes on a point of the curve, and the multiple is the identity for k = 0, the point for k = 1,
its negative for k = −1, and follows the double-and-add scan: 2k doubles the k-fold, 2k + 1 adds the point once more, a
negative k multiplies the negated point. The premise is R31, part of the invariant. That the model stops off the curve is
its own choice (notes/assumptions/9.md). -/
def Obligations.SmulScansTheScalar : Prop :=
  ∀ (s : State) (pd pa : PReg) (zb : ZReg),
    (encode (.smul pd pa zb)).toNat = 0x5A000000 + pd * 2 ^ 20 + pa * 2 ^ 16 + zb * 2 ^ 12 ∧
    ((s.getP pa).onCurve Config.curve = false → exec (.smul pd pa zb) s = .refused .pointNotOnCurve) ∧
    ((s.getP pa).wf Config.curve →
      let T := s.getP pa
      let mul (k : Int) : Point := smul Config.curve T k
      exec (.smul pd pa zb) s = .next { s with p := s.p.set pd (mul (s.getZ zb)), st := .ok } ∧
      (mul (s.getZ zb)).wf Config.curve ∧
      mul 0 = .identity ∧ mul 1 = T ∧ mul (-1) = pneg Config.curve T ∧
      ∀ k : Nat,
        mul (2 * k) = padd Config.curve (mul k) (mul k) ∧
        mul (2 * k + 1) = padd Config.curve (padd Config.curve (mul k) (mul k)) T ∧
        (0 < k → mul (-k) = smul Config.curve (pneg Config.curve T) k))

/-- R231, R246 (a), (b), (d), (e): the points of the curve with `padd` form a commutative group with neutral element
`Identity` and inverse `pneg`, G is a point of it, and `smul(G, R)` is `Identity`: PBASE, ZCONST R and SMUL leave the
identity. That P is prime and d is not a square stands in CurveConstants; that R is prime and that there are 4R points is
not claimed. -/
def Obligations.PointsFormAGroup : Prop :=
  CurveLaws Config.curve ∧
  ∀ (s : State) (pd : PReg) (zd : ZReg),
    ∃ t, execAll [.pbase pd, .zconst zd 1, .smul pd pd zd] s = .next t ∧ t.getP pd = .identity ∧ t.st = .ok

/-- R234, R246 (c), (f): the multiple by 0 is `Identity`, the multiple by k + 1 is the multiple by k plus the point (the
defining recursion of R234), the multiple by a sum is the sum of the multiples, and a multiple of a multiple is the
multiple by the product, for all integers. The premise is R31, part of the invariant. -/
def Obligations.SmulIsRepeatedAddition : Prop :=
  ∀ T : Point, T.wf Config.curve →
    let mul (k : Int) : Point := smul Config.curve T k
    mul 0 = .identity ∧
    (∀ k : Nat, mul (k + 1) = padd Config.curve (mul k) T) ∧
    (∀ k : Int, mul (-k) = pneg Config.curve (mul k)) ∧
    (∀ j k : Int, mul (j + k) = padd Config.curve (mul j) (mul k)) ∧
    (∀ j k : Int, smul Config.curve (mul j) k = mul (j * k))

/-! ### SIG (45_schnorr.md) -/

/-- R261, R262, R263, R264, R327: ENCSIG puts h and then z into 130 bytes and raises E_RANGE outside the 65-byte range;
DECSIG reads them back, z last, so that it stays when both destinations are one register, and raises E_FORMAT for any
other length; one undoes the other. -/
def Obligations.SignatureCodec : Prop :=
  ∀ (s : State) (bd : BReg) (za zb zd ze : ZReg),
    let fits (n : Int) : Prop := -2 ^ 519 ≤ n ∧ n ≤ 2 ^ 519 - 1
    (encode (.encsig bd za zb)).toNat = 0x60000000 + bd * 2 ^ 20 + za * 2 ^ 16 + zb * 2 ^ 12 ∧
    (encode (.decsig zd ze bd)).toNat = 0x61000000 + zd * 2 ^ 20 + ze * 2 ^ 16 + bd * 2 ^ 12 ∧
    (¬ (fits (s.getZ za) ∧ fits (s.getZ zb)) → exec (.encsig bd za zb) s = .next { s with st := .range }) ∧
    (fits (s.getZ za) → fits (s.getZ zb) →
      (enc65 (s.getZ za) ++ enc65 (s.getZ zb)).length = 130 ∧
      exec (.encsig bd za zb) s = .next { s with b := s.b.set bd (enc65 (s.getZ za) ++ enc65 (s.getZ zb)), st := .ok } ∧
      (zd ≠ ze → ∃ t, execAll [.encsig bd za zb, .decsig zd ze bd] s = .next t ∧
        t.getZ zd = s.getZ za ∧ t.getZ ze = s.getZ zb ∧ t.st = .ok)) ∧
    ((s.getB bd).length ≠ 130 → exec (.decsig zd ze bd) s = .next { s with st := .format }) ∧
    ((s.getB bd).length = 130 →
      exec (.decsig zd ze bd) s = .next
        { s with z := (s.z.set zd (decS ((s.getB bd).take 65))).set ze (decS ((s.getB bd).drop 65)), st := .ok })

/-- R265, R267: SIGN follows the six steps: the nonce is 4 times the KMAC under "N", the challenge h the KMAC under "T" of
the commitment's x, z the residue of k − h s modulo R; the context is discarded and no other register changes. That the
130 bytes decode to (h, z) is the law that R262 marks as derived. -/
def Obligations.SignFollowsTheSixSteps : Prop :=
  ∀ (s : State) (bd bb : BReg) (za : ZReg),
    (encode (.sign bd za bb)).toNat = 0x62000000 + bd * 2 ^ 20 + za * 2 ^ 16 + bb * 2 ^ 12 ∧
    ∃ (k h : Nat) (z : Int),
      k = 4 * decU (kmacxof256 (encNat (s.getZ za)) (s.getB bb) 512 [0x4E]) ∧ k < 2 ^ 514 ∧
      h = decU (kmacxof256 (encNat (smul Config.curve (basePoint Config.curve) k).x) (s.getB bb) 512 [0x54]) ∧
      h < 2 ^ 512 ∧
      0 ≤ z ∧ z < Config.curve.R ∧ (Config.curve.R : Int) ∣ (k - h * s.getZ za) - z ∧
      decodeSignature (enc65 h ++ enc65 z) = some ((h : Int), z) ∧
      exec (.sign bd za bb) s = .next
        { s with sponge := Sponge.discarded, b := s.b.set bd (enc65 h ++ enc65 z), st := .ok }

/-- R266, R268, R270 (a): VERIFY of a string that is not 130 bytes clears `VF`, raises nothing and keeps the session;
otherwise it recomputes the challenge from z G + h V and compares, with the context discarded. The premise on the public
point is R31, part of the invariant. That the model stops off the curve is its own choice (notes/assumptions/9.md). -/
def Obligations.VerifyRecomputesTheChallenge : Prop :=
  ∀ (s : State) (ba bc : BReg) (pb : PReg),
    (encode (.verify ba pb bc)).toNat = 0x63000000 + ba * 2 ^ 16 + pb * 2 ^ 12 + bc * 2 ^ 8 ∧
    ((s.getB ba).length ≠ 130 → exec (.verify ba pb bc) s = .next { s with vf := false, st := .ok }) ∧
    ((s.getB ba).length = 130 → (s.getP pb).onCurve Config.curve = false →
      exec (.verify ba pb bc) s = .refused .pointNotOnCurve) ∧
    ((s.getB ba).length = 130 → (s.getP pb).onCurve Config.curve = true →
      let h := decS ((s.getB ba).take 65)
      let z := decS ((s.getB ba).drop 65)
      let U := padd Config.curve (smul Config.curve (basePoint Config.curve) z) (smul Config.curve (s.getP pb) h)
      let h' : Int := decU (kmacxof256 (encNat U.x) (s.getB bc) 512 [0x54])
      (h' = h → exec (.verify ba pb bc) s = .next { s with sponge := Sponge.discarded, vf := true, st := .ok }) ∧
      (h' ≠ h → exec (.verify ba pb bc) s = .next { s with sponge := Sponge.discarded, vf := false, st := .ok }))

/-- R269: a signature made with a scalar verifies under the public point scalar times G, for every integer scalar and
every message (that it is every integer and not only 1 .. R − 1 is R269's own inference, marked "derived"); and the
sequence of commands of R269 leaves `VF` = 1 from every state. -/
def Obligations.SignedMessagesVerify : Prop :=
  (∀ (sc : Int) (m : Bytes),
    schnorrVerify Config.curve (schnorrSign Config.curve sc m)
      (smul Config.curve (basePoint Config.curve) sc) m = true) ∧
  ∀ (s : State) (p : PReg) (z : ZReg) (b0 b1 : BReg), b1 ≠ b0 →
    ∃ t, execAll [.pbase p, .smul p p z, .sign b1 z b0, .verify b1 p b0] s = .next t ∧ t.vf = true ∧ t.st = .ok
end

