-- ==== Sys2Proof/Laws/State.lean ====
section
/-! SUPPORT. One lemma per field of State per update, the read-after-write laws of the three register files, and what
the two ends of a command are. -/

namespace Sys2Proof.Machine

section setB
@[simp] theorem State.setB_sponge (s : State) (i : BReg) (v : Bytes) : (s.setB i v).sponge = s.sponge := rfl
@[simp] theorem State.setB_outlen (s : State) (i : BReg) (v : Bytes) : (s.setB i v).outlen = s.outlen := rfl
@[simp] theorem State.setB_st (s : State) (i : BReg) (v : Bytes) : (s.setB i v).st = s.st := rfl
@[simp] theorem State.setB_vf (s : State) (i : BReg) (v : Bytes) : (s.setB i v).vf = s.vf := rfl
@[simp] theorem State.setB_b (s : State) (i : BReg) (v : Bytes) : (s.setB i v).b = s.b.set i v := rfl
@[simp] theorem State.setB_z (s : State) (i : BReg) (v : Bytes) : (s.setB i v).z = s.z := rfl
@[simp] theorem State.setB_p (s : State) (i : BReg) (v : Bytes) : (s.setB i v).p = s.p := rfl
@[simp] theorem State.setB_inbox (s : State) (i : BReg) (v : Bytes) : (s.setB i v).inbox = s.inbox := rfl
@[simp] theorem State.setB_reply (s : State) (i : BReg) (v : Bytes) : (s.setB i v).reply = s.reply := rfl
end setB

section setZ
@[simp] theorem State.setZ_sponge (s : State) (i : ZReg) (n : Int) : (s.setZ i n).sponge = s.sponge := rfl
@[simp] theorem State.setZ_outlen (s : State) (i : ZReg) (n : Int) : (s.setZ i n).outlen = s.outlen := rfl
@[simp] theorem State.setZ_st (s : State) (i : ZReg) (n : Int) : (s.setZ i n).st = s.st := rfl
@[simp] theorem State.setZ_vf (s : State) (i : ZReg) (n : Int) : (s.setZ i n).vf = s.vf := rfl
@[simp] theorem State.setZ_b (s : State) (i : ZReg) (n : Int) : (s.setZ i n).b = s.b := rfl
@[simp] theorem State.setZ_z (s : State) (i : ZReg) (n : Int) : (s.setZ i n).z = s.z.set i n := rfl
@[simp] theorem State.setZ_p (s : State) (i : ZReg) (n : Int) : (s.setZ i n).p = s.p := rfl
@[simp] theorem State.setZ_inbox (s : State) (i : ZReg) (n : Int) : (s.setZ i n).inbox = s.inbox := rfl
@[simp] theorem State.setZ_reply (s : State) (i : ZReg) (n : Int) : (s.setZ i n).reply = s.reply := rfl
end setZ

section setP
@[simp] theorem State.setP_sponge (s : State) (i : PReg) (q : Point) : (s.setP i q).sponge = s.sponge := rfl
@[simp] theorem State.setP_outlen (s : State) (i : PReg) (q : Point) : (s.setP i q).outlen = s.outlen := rfl
@[simp] theorem State.setP_st (s : State) (i : PReg) (q : Point) : (s.setP i q).st = s.st := rfl
@[simp] theorem State.setP_vf (s : State) (i : PReg) (q : Point) : (s.setP i q).vf = s.vf := rfl
@[simp] theorem State.setP_b (s : State) (i : PReg) (q : Point) : (s.setP i q).b = s.b := rfl
@[simp] theorem State.setP_z (s : State) (i : PReg) (q : Point) : (s.setP i q).z = s.z := rfl
@[simp] theorem State.setP_p (s : State) (i : PReg) (q : Point) : (s.setP i q).p = s.p.set i q := rfl
@[simp] theorem State.setP_inbox (s : State) (i : PReg) (q : Point) : (s.setP i q).inbox = s.inbox := rfl
@[simp] theorem State.setP_reply (s : State) (i : PReg) (q : Point) : (s.setP i q).reply = s.reply := rfl
end setP

section setSponge
@[simp] theorem State.setSponge_sponge (s : State) (sp : Sponge) : (s.setSponge sp).sponge = sp := rfl
@[simp] theorem State.setSponge_outlen (s : State) (sp : Sponge) : (s.setSponge sp).outlen = s.outlen := rfl
@[simp] theorem State.setSponge_st (s : State) (sp : Sponge) : (s.setSponge sp).st = s.st := rfl
@[simp] theorem State.setSponge_vf (s : State) (sp : Sponge) : (s.setSponge sp).vf = s.vf := rfl
@[simp] theorem State.setSponge_b (s : State) (sp : Sponge) : (s.setSponge sp).b = s.b := rfl
@[simp] theorem State.setSponge_z (s : State) (sp : Sponge) : (s.setSponge sp).z = s.z := rfl
@[simp] theorem State.setSponge_p (s : State) (sp : Sponge) : (s.setSponge sp).p = s.p := rfl
@[simp] theorem State.setSponge_inbox (s : State) (sp : Sponge) : (s.setSponge sp).inbox = s.inbox := rfl
@[simp] theorem State.setSponge_reply (s : State) (sp : Sponge) : (s.setSponge sp).reply = s.reply := rfl
end setSponge

section setA
@[simp] theorem State.setA_sponge (s : State) (A : KState) : (s.setA A).sponge = { s.sponge with A := A } := rfl
@[simp] theorem State.setA_outlen (s : State) (A : KState) : (s.setA A).outlen = s.outlen := rfl
@[simp] theorem State.setA_st (s : State) (A : KState) : (s.setA A).st = s.st := rfl
@[simp] theorem State.setA_vf (s : State) (A : KState) : (s.setA A).vf = s.vf := rfl
@[simp] theorem State.setA_b (s : State) (A : KState) : (s.setA A).b = s.b := rfl
@[simp] theorem State.setA_z (s : State) (A : KState) : (s.setA A).z = s.z := rfl
@[simp] theorem State.setA_p (s : State) (A : KState) : (s.setA A).p = s.p := rfl
@[simp] theorem State.setA_inbox (s : State) (A : KState) : (s.setA A).inbox = s.inbox := rfl
@[simp] theorem State.setA_reply (s : State) (A : KState) : (s.setA A).reply = s.reply := rfl
end setA

section setOutlen
@[simp] theorem State.setOutlen_sponge (s : State) (v : BitVec 24) : (s.setOutlen v).sponge = s.sponge := rfl
@[simp] theorem State.setOutlen_outlen (s : State) (v : BitVec 24) : (s.setOutlen v).outlen = v := rfl
@[simp] theorem State.setOutlen_st (s : State) (v : BitVec 24) : (s.setOutlen v).st = s.st := rfl
@[simp] theorem State.setOutlen_vf (s : State) (v : BitVec 24) : (s.setOutlen v).vf = s.vf := rfl
@[simp] theorem State.setOutlen_b (s : State) (v : BitVec 24) : (s.setOutlen v).b = s.b := rfl
@[simp] theorem State.setOutlen_z (s : State) (v : BitVec 24) : (s.setOutlen v).z = s.z := rfl
@[simp] theorem State.setOutlen_p (s : State) (v : BitVec 24) : (s.setOutlen v).p = s.p := rfl
@[simp] theorem State.setOutlen_inbox (s : State) (v : BitVec 24) : (s.setOutlen v).inbox = s.inbox := rfl
@[simp] theorem State.setOutlen_reply (s : State) (v : BitVec 24) : (s.setOutlen v).reply = s.reply := rfl
end setOutlen

section setVF
@[simp] theorem State.setVF_sponge (s : State) (v : Bool) : (s.setVF v).sponge = s.sponge := rfl
@[simp] theorem State.setVF_outlen (s : State) (v : Bool) : (s.setVF v).outlen = s.outlen := rfl
@[simp] theorem State.setVF_st (s : State) (v : Bool) : (s.setVF v).st = s.st := rfl
@[simp] theorem State.setVF_vf (s : State) (v : Bool) : (s.setVF v).vf = v := rfl
@[simp] theorem State.setVF_b (s : State) (v : Bool) : (s.setVF v).b = s.b := rfl
@[simp] theorem State.setVF_z (s : State) (v : Bool) : (s.setVF v).z = s.z := rfl
@[simp] theorem State.setVF_p (s : State) (v : Bool) : (s.setVF v).p = s.p := rfl
@[simp] theorem State.setVF_inbox (s : State) (v : Bool) : (s.setVF v).inbox = s.inbox := rfl
@[simp] theorem State.setVF_reply (s : State) (v : Bool) : (s.setVF v).reply = s.reply := rfl
end setVF

section discardCtx
@[simp] theorem State.discardCtx_sponge (s : State) : (s.discardCtx).sponge = Sponge.discarded := rfl
@[simp] theorem State.discardCtx_outlen (s : State) : (s.discardCtx).outlen = s.outlen := rfl
@[simp] theorem State.discardCtx_st (s : State) : (s.discardCtx).st = s.st := rfl
@[simp] theorem State.discardCtx_vf (s : State) : (s.discardCtx).vf = s.vf := rfl
@[simp] theorem State.discardCtx_b (s : State) : (s.discardCtx).b = s.b := rfl
@[simp] theorem State.discardCtx_z (s : State) : (s.discardCtx).z = s.z := rfl
@[simp] theorem State.discardCtx_p (s : State) : (s.discardCtx).p = s.p := rfl
@[simp] theorem State.discardCtx_inbox (s : State) : (s.discardCtx).inbox = s.inbox := rfl
@[simp] theorem State.discardCtx_reply (s : State) : (s.discardCtx).reply = s.reply := rfl
end discardCtx

section noReply
@[simp] theorem State.noReply_sponge (s : State) : (s.noReply).sponge = s.sponge := rfl
@[simp] theorem State.noReply_outlen (s : State) : (s.noReply).outlen = s.outlen := rfl
@[simp] theorem State.noReply_st (s : State) : (s.noReply).st = s.st := rfl
@[simp] theorem State.noReply_vf (s : State) : (s.noReply).vf = s.vf := rfl
@[simp] theorem State.noReply_b (s : State) : (s.noReply).b = s.b := rfl
@[simp] theorem State.noReply_z (s : State) : (s.noReply).z = s.z := rfl
@[simp] theorem State.noReply_p (s : State) : (s.noReply).p = s.p := rfl
@[simp] theorem State.noReply_inbox (s : State) : (s.noReply).inbox = s.inbox := rfl
@[simp] theorem State.noReply_reply (s : State) : (s.noReply).reply = none := rfl
end noReply

@[simp] theorem State.getB_setB_self (s : State) (i : BReg) (v : Bytes) : (s.setB i v).getB i = v := by
  simp [State.getB]

theorem State.getB_setB (s : State) (i j : BReg) (v : Bytes) :
    (s.setB i v).getB j = if i = j then v else s.getB j := by
  simp [State.getB, Vector.getElem_set, Fin.ext_iff]

@[simp] theorem State.getB_setB_ne (s : State) {i j : BReg} (v : Bytes) (h : i ≠ j) :
    (s.setB i v).getB j = s.getB j := by
  simp [State.getB_setB, h]

/-- A read of this file depends on this file alone. -/
theorem State.getB_congr {s t : State} (h : s.b = t.b) (i : BReg) : s.getB i = t.getB i := by
  simp [State.getB, h]

@[simp] theorem State.getB_setZ (s : State) (i : ZReg) (n : Int) (j : BReg) : (s.setZ i n).getB j = s.getB j := rfl
@[simp] theorem State.getB_setP (s : State) (i : PReg) (q : Point) (j : BReg) : (s.setP i q).getB j = s.getB j := rfl
@[simp] theorem State.getB_setSponge (s : State) (sp : Sponge) (j : BReg) : (s.setSponge sp).getB j = s.getB j := rfl
@[simp] theorem State.getB_setA (s : State) (A : KState) (j : BReg) : (s.setA A).getB j = s.getB j := rfl
@[simp] theorem State.getB_setOutlen (s : State) (v : BitVec 24) (j : BReg) : (s.setOutlen v).getB j = s.getB j := rfl
@[simp] theorem State.getB_setVF (s : State) (v : Bool) (j : BReg) : (s.setVF v).getB j = s.getB j := rfl
@[simp] theorem State.getB_discardCtx (s : State) (j : BReg) : (s.discardCtx).getB j = s.getB j := rfl
@[simp] theorem State.getB_noReply (s : State) (j : BReg) : (s.noReply).getB j = s.getB j := rfl

@[simp] theorem State.getZ_setZ_self (s : State) (i : ZReg) (v : Int) : (s.setZ i v).getZ i = v := by
  simp [State.getZ]

theorem State.getZ_setZ (s : State) (i j : ZReg) (v : Int) :
    (s.setZ i v).getZ j = if i = j then v else s.getZ j := by
  simp [State.getZ, Vector.getElem_set, Fin.ext_iff]

@[simp] theorem State.getZ_setZ_ne (s : State) {i j : ZReg} (v : Int) (h : i ≠ j) :
    (s.setZ i v).getZ j = s.getZ j := by
  simp [State.getZ_setZ, h]

/-- A read of this file depends on this file alone. -/
theorem State.getZ_congr {s t : State} (h : s.z = t.z) (i : ZReg) : s.getZ i = t.getZ i := by
  simp [State.getZ, h]

@[simp] theorem State.getZ_setB (s : State) (i : BReg) (v : Bytes) (j : ZReg) : (s.setB i v).getZ j = s.getZ j := rfl
@[simp] theorem State.getZ_setP (s : State) (i : PReg) (q : Point) (j : ZReg) : (s.setP i q).getZ j = s.getZ j := rfl
@[simp] theorem State.getZ_setSponge (s : State) (sp : Sponge) (j : ZReg) : (s.setSponge sp).getZ j = s.getZ j := rfl
@[simp] theorem State.getZ_setA (s : State) (A : KState) (j : ZReg) : (s.setA A).getZ j = s.getZ j := rfl
@[simp] theorem State.getZ_setOutlen (s : State) (v : BitVec 24) (j : ZReg) : (s.setOutlen v).getZ j = s.getZ j := rfl
@[simp] theorem State.getZ_setVF (s : State) (v : Bool) (j : ZReg) : (s.setVF v).getZ j = s.getZ j := rfl
@[simp] theorem State.getZ_discardCtx (s : State) (j : ZReg) : (s.discardCtx).getZ j = s.getZ j := rfl
@[simp] theorem State.getZ_noReply (s : State) (j : ZReg) : (s.noReply).getZ j = s.getZ j := rfl

@[simp] theorem State.getP_setP_self (s : State) (i : PReg) (v : Point) : (s.setP i v).getP i = v := by
  simp [State.getP]

theorem State.getP_setP (s : State) (i j : PReg) (v : Point) :
    (s.setP i v).getP j = if i = j then v else s.getP j := by
  simp [State.getP, Vector.getElem_set, Fin.ext_iff]

@[simp] theorem State.getP_setP_ne (s : State) {i j : PReg} (v : Point) (h : i ≠ j) :
    (s.setP i v).getP j = s.getP j := by
  simp [State.getP_setP, h]

/-- A read of this file depends on this file alone. -/
theorem State.getP_congr {s t : State} (h : s.p = t.p) (i : PReg) : s.getP i = t.getP i := by
  simp [State.getP, h]

@[simp] theorem State.getP_setB (s : State) (i : BReg) (v : Bytes) (j : PReg) : (s.setB i v).getP j = s.getP j := rfl
@[simp] theorem State.getP_setZ (s : State) (i : ZReg) (n : Int) (j : PReg) : (s.setZ i n).getP j = s.getP j := rfl
@[simp] theorem State.getP_setSponge (s : State) (sp : Sponge) (j : PReg) : (s.setSponge sp).getP j = s.getP j := rfl
@[simp] theorem State.getP_setA (s : State) (A : KState) (j : PReg) : (s.setA A).getP j = s.getP j := rfl
@[simp] theorem State.getP_setOutlen (s : State) (v : BitVec 24) (j : PReg) : (s.setOutlen v).getP j = s.getP j := rfl
@[simp] theorem State.getP_setVF (s : State) (v : Bool) (j : PReg) : (s.setVF v).getP j = s.getP j := rfl
@[simp] theorem State.getP_discardCtx (s : State) (j : PReg) : (s.discardCtx).getP j = s.getP j := rfl
@[simp] theorem State.getP_noReply (s : State) (j : PReg) : (s.noReply).getP j = s.getP j := rfl

/-- A completed command answers a next state: the given one with `ST` = OK. -/
@[simp] theorem complete_eq_next (s t : State) : complete s = .next t ↔ t = { s with st := .ok } := by
  simp [complete, eq_comm]

/-- A raised error answers a next state: the given one with `ST` = the code. -/
@[simp] theorem raise_eq_next (e : Status) (s t : State) : raise e s = .next t ↔ t = { s with st := e } := by
  simp [raise, eq_comm]

@[simp] theorem complete_ne_refused (s : State) (r : Refusal) : complete s ≠ .refused r := by simp [complete]
@[simp] theorem raise_ne_refused (e : Status) (s : State) (r : Refusal) : raise e s ≠ .refused r := by simp [raise]

/-- Running no command changes nothing. -/
@[simp] theorem execAll_nil (s : State) : execAll [] s = .next s := rfl

/-- A command that answers a next state hands it on to the commands after it. -/
theorem execAll_cons {i : Instr} {s t : State} (h : exec i s = .next t) (is : List Instr) :
    execAll (i :: is) s = execAll is t := by rw [execAll, h]

/-- Two runs of commands, one after the other. -/
theorem execAll_append {is : List Instr} {s t : State} (h : execAll is s = .next t) (js : List Instr) :
    execAll (is ++ js) s = execAll js t := by
  induction is generalizing s with
  | nil => obtain rfl : s = t := by simpa using h
           rfl
  | cons i is ih =>
    rw [execAll] at h
    rw [List.cons_append, execAll]
    split at h
    · next u hu => exact ih h
    · cases h
    · cases h

/-- The discarded context meets the invariant of the sponge. -/
theorem Sponge.discarded_inv : Sponge.discarded.Inv where
  mode := ⟨4, rfl⟩
  buf_short := by decide
  buf_absorb := .inr rfl
  sqpos_squeeze := .inr rfl
  sqpos_le := by decide

/-- So does a fresh context of any mode. -/
theorem Sponge.fresh_inv (m : Fin 6) : (Sponge.fresh m).Inv where
  mode := ⟨m, rfl⟩
  buf_short := by revert m; decide
  buf_absorb := .inl rfl
  sqpos_squeeze := .inr rfl
  sqpos_le := Nat.zero_le _

end Sys2Proof.Machine
end

