-- ==== Sys2Proof/Laws/Ops.lean ====
section
/-! SUPPORT. The laws of the buffer space: what a read sees after a write, and that every memory operation keeps its
form (20_memory.md R60, 10_state.md R28). -/

namespace Sys2Proof.Machine

/-- The reset memory has the form. -/
theorem Memory.reset_wf : Memory.wf State.reset.b := by decide

/-- Writing a whole buffer keeps the form when the new content fits a buffer. -/
theorem Memory.wf_set {m : Memory} (h : Memory.wf m) (i : BReg) {v : Bytes} (hv : v.length ≤ Config.bmax) :
    Memory.wf (m.set i v) := by
  intro j
  have := h j
  simp only [Fin.getElem_fin, Vector.getElem_set] at this ⊢
  split
  · exact hv
  · exact this

/-- Replacing bytes inside a buffer keeps its length, hence the form. -/
theorem Memory.wf_writeN {m m' : Memory} (h : Memory.wf m) {i : BReg} {off : Nat} {v : Bytes}
    (hw : Memory.writeN m i off v = some m') : Memory.wf m' := by
  unfold Memory.writeN at hw
  split at hw
  · next hle =>
    obtain rfl := Option.some.inj hw
    refine Memory.wf_set h i ?_
    have := h i
    simp only [List.length_append, List.length_take, List.length_drop]
    omega
  · cases hw

theorem State.setB_wf {s : State} (h : Memory.wf s.b) (i : BReg) {v : Bytes} (hv : v.length ≤ Config.bmax) :
    Memory.wf (s.setB i v).b := Memory.wf_set h i hv

/-- A write to one buffer leaves every byte of every other buffer as it was. -/
theorem Memory.read_setB_ne (s : State) {i j : BReg} (v : Bytes) (h : i ≠ j) (off : Nat) :
    Memory.read (s.setB i v).b j off = Memory.read s.b j off := by
  have : (i : Nat) ≠ j := fun e => h (Fin.ext e)
  simp [Memory.read, this]

/-- A byte written through MemWrite is the byte MemRead gives back. -/
theorem Memory.readN_writeN {m m' : Memory} {i : BReg} {off : Nat} {v : Bytes}
    (hw : Memory.writeN m i off v = some m') : Memory.readN m' i off v.length = some v := by
  unfold Memory.writeN at hw
  split at hw
  · next hle =>
    obtain rfl := Option.some.inj hw
    have hoff : min off m[i].length = off := by omega
    simp only [Fin.getElem_fin] at hoff hle
    simp [Memory.readN, hoff]
  · cases hw

/-- The whole effect of the bounded store: E_OVERFLOW above BMAX, otherwise the buffer is written. -/
theorem storeBounded_eq (bd : BReg) (v : Bytes) (s : State) :
    storeBounded bd v s
      = if v.length ≤ Config.bmax then .next { s.setB bd v with st := .ok }
        else .next { s with st := .overflow } := by
  unfold storeBounded
  split <;> split <;> first | rfl | omega

end Sys2Proof.Machine
end

