-- ==== Sys2Proof/Laws/Bytes.lean ====
section
/-! SUPPORT. The laws of the integer codec and of the length encodings (43_modarith.md R201 to R203, 42_modes.md R171 to
R174). -/

namespace Sys2Proof.Machine

set_option exponentiation.threshold 1000

/-! ### bitlen -/

/-- `bitlen(x)` is the least n with x < 2^n (00_scope.md R9). -/
theorem bitlen_le_iff (x n : Nat) : bitlen x ≤ n ↔ x < 2 ^ n := by
  unfold bitlen
  split
  · next h => subst h; simp
  · next h => rw [Nat.add_one_le_iff, Nat.log2_lt h]

theorem lt_two_pow_bitlen (x : Nat) : x < 2 ^ bitlen x := (bitlen_le_iff x _).1 le_rfl

/-! ### Big-endian bytes -/

@[simp] theorem length_beBytes (L v : Nat) : (beBytes L v).length = L := by
  induction L with
  | zero => rfl
  | succ L ih => simp [beBytes, ih]

theorem decU_append (s t : Bytes) : decU (s ++ t) = decU s * 256 ^ t.length + decU t := by
  induction s with
  | nil => simp [decU]
  | cons b s ih => simp [decU, ih, pow_add, add_mul, mul_assoc, add_assoc]

/-- `dec_u` of n bytes is below 256^n. -/
theorem decU_lt (s : Bytes) : decU s < 256 ^ s.length := by
  induction s with
  | nil => simp [decU]
  | cons b s ih =>
    have hb : b.toNat ≤ 255 := by have := b.isLt; omega
    have := Nat.mul_le_mul_right (256 ^ s.length) hb
    simp only [decU, List.length_cons, pow_succ]
    omega

/-- Decoding the L-byte form of v gives v mod 256^L. -/
@[simp] theorem decU_beBytes (L v : Nat) : decU (beBytes L v) = v % 256 ^ L := by
  induction L with
  | zero => simp [beBytes, decU, Nat.mod_one]
  | succ L ih =>
    have h : v % 256 ^ (L + 1) = v % 256 ^ L + 256 ^ L * (v / 256 ^ L % 256) := by rw [pow_succ, Nat.mod_mul]
    have hb : (BitVec.ofNat 8 (v / 256 ^ L)).toNat = v / 256 ^ L % 256 := by simp
    rw [beBytes, decU, length_beBytes, ih, hb, h, add_comm, mul_comm (256 ^ L)]

theorem decU_beBytes_of_lt {L v : Nat} (h : v < 256 ^ L) : decU (beBytes L v) = v := by
  rw [decU_beBytes, Nat.mod_eq_of_lt h]

/-! ### The signed reading -/

/-- Bit 7 of byte 0 is set exactly when the unsigned value is at least half of 256^n. -/
theorem decU_sign (b : Byte) (s : Bytes) : 0x80 ≤ b.toNat ↔ 256 ^ (s.length + 1) ≤ 2 * decU (b :: s) := by
  have hs := decU_lt s
  have hp : 0 < 256 ^ s.length := by positivity
  simp only [decU, pow_succ]
  constructor
  · intro h
    have := Nat.mul_le_mul_right (256 ^ s.length) h
    omega
  · intro h
    by_contra hc
    have := Nat.mul_le_mul_right (256 ^ s.length) (show b.toNat ≤ 127 by omega)
    omega

/-- `dec_s` by the unsigned value: the sign is the half of the range it lies in. -/
theorem decS_eq {s : Bytes} (hs : s ≠ []) :
    decS s = if 256 ^ s.length ≤ 2 * decU s then (decU s : Int) - 256 ^ s.length else decU s := by
  obtain ⟨b, t, rfl⟩ := List.exists_cons_of_ne_nil hs
  exact if_congr (decU_sign b t) (by simp) rfl

/-- `dec_s` of n bytes lies in the two's-complement range of n bytes, written without a fraction. -/
theorem decS_range {s : Bytes} (hs : s ≠ []) :
    -(256 ^ s.length : Int) ≤ 2 * decS s ∧ 2 * decS s < 256 ^ s.length := by
  have hlt : (decU s : Int) < 256 ^ s.length := by exact_mod_cast decU_lt s
  rw [decS_eq hs]
  split
  · next h =>
    have h' : (256 ^ s.length : Int) ≤ 2 * decU s := by exact_mod_cast h
    constructor <;> linarith
  · next h =>
    have h' : 2 * (decU s : Int) < 256 ^ s.length := by exact_mod_cast not_le.1 h
    constructor <;> [skip; exact h']
    have : (0 : Int) ≤ decU s := Int.natCast_nonneg _
    linarith

@[simp] theorem length_twosBytes (L : Nat) (n : Int) : (twosBytes L n).length = L := by simp [twosBytes]

theorem two_pow_eight_mul (L : Nat) : (2 : Nat) ^ (8 * L) = 256 ^ L := by rw [pow_mul]; norm_num

/-- The unsigned value of the L-byte two's-complement form is n mod 256^L. -/
theorem decU_twosBytes (L : Nat) (n : Int) : (decU (twosBytes L n) : Int) = n % 256 ^ L := by
  have hp : (0 : Int) < 256 ^ L := by positivity
  have h0 := Int.emod_nonneg n hp.ne'
  have e : ((2 : Int) ^ (8 * L)) = 256 ^ L := by exact_mod_cast two_pow_eight_mul L
  rw [twosBytes, e, decU_beBytes_of_lt]
  · exact Int.toNat_of_nonneg h0
  · have := Int.emod_lt_of_pos n hp
    zify
    rwa [Int.toNat_of_nonneg h0]

/-- Decoding the L-byte two's-complement form of n gives n back when n is in the range of L bytes (R203). -/
theorem decS_twosBytes {L : Nat} (hL : 0 < L) {n : Int} (h1 : -(256 ^ L : Int) ≤ 2 * n) (h2 : 2 * n < 256 ^ L) :
    decS (twosBytes L n) = n := by
  have hne : twosBytes L n ≠ [] := by rw [← List.length_pos_iff]; simpa using hL
  have hd := decU_twosBytes L n
  rw [decS_eq hne, length_twosBytes]
  have key : (256 ^ L ≤ 2 * decU (twosBytes L n)) ↔ (256 ^ L : Int) ≤ 2 * (n % 256 ^ L) := by
    rw [← hd]; exact_mod_cast Iff.rfl
  rw [hd]
  by_cases hn : 0 ≤ n
  · have : n % 256 ^ L = n := Int.emod_eq_of_lt hn (by linarith)
    rw [if_neg]
    · exact this
    · rw [key, this]; linarith
  · have : n % 256 ^ L = n + 256 ^ L := by
      rw [← Int.add_emod_right, Int.emod_eq_of_lt] <;> linarith
    rw [if_pos]
    · rw [this]; ring
    · rw [key, this]; linarith

/-! ### The natural and the fixed-width encoding -/

/-- An integer fits L ≥ 1 bytes exactly when the natural length is at most L (R201: the least such L). -/
theorem encNatLen_le_iff (n : Int) {L : Nat} (hL : 0 < L) :
    encNatLen n ≤ L ↔ -(2 ^ (8 * L - 1) : Int) ≤ n ∧ n < 2 ^ (8 * L - 1) := by
  have hdiv : ∀ k : Nat, k / 8 + 1 ≤ L ↔ k ≤ 8 * L - 1 := fun k => by omega
  rw [encNatLen, hdiv, bitlen_le_iff]
  split
  · next h =>
    have hp : (0 : Int) ≤ 2 ^ (8 * L - 1) := by positivity
    rw [← Int.ofNat_lt, Int.toNat_of_nonneg h]
    push_cast
    constructor
    · intro hlt; exact ⟨by linarith, hlt⟩
    · exact fun hh => hh.2
  · next h =>
    have hp : (0 : Int) ≤ 2 ^ (8 * L - 1) := by positivity
    rw [← Int.ofNat_lt, Int.toNat_of_nonneg (by omega)]
    push_cast
    constructor
    · intro hlt; exact ⟨by omega, by omega⟩
    · intro hh; omega

theorem encNatLen_pos (n : Int) : 0 < encNatLen n := Nat.succ_pos _

@[simp] theorem length_encNat (n : Int) : (encNat n).length = encNatLen n := by simp [encNat]

theorem encNat_ne_nil (n : Int) : encNat n ≠ [] := by
  rw [← List.length_pos_iff, length_encNat]; exact encNatLen_pos n

/-- `2^(8L)` is twice `2^(8L-1)`. -/
theorem pow_256_eq {L : Nat} (hL : 0 < L) : (256 : Int) ^ L = 2 * 2 ^ (8 * L - 1) := by
  rw [show (256 : Int) = 2 ^ 8 by norm_num, ← pow_mul, ← pow_succ']
  congr 1; omega

/-- `dec_s(enc_nat(n)) = n` for every n (R203). -/
theorem decS_encNat (n : Int) : decS (encNat n) = n := by
  have hL := encNatLen_pos n
  have h := (encNatLen_le_iff n hL).1 le_rfl
  refine decS_twosBytes hL ?_ ?_ <;> rw [pow_256_eq hL] <;> linarith [h.1, h.2]

@[simp] theorem length_enc65 (n : Int) : (enc65 n).length = 65 := by simp [enc65]

/-- `dec_s(enc65(n)) = n` for every n in range (R203). -/
theorem decS_enc65 {n : Int} (h : fits65 n = true) : decS (enc65 n) = n := by
  simp only [fits65, decide_eq_true_eq] at h
  refine decS_twosBytes (by norm_num) ?_ ?_ <;> rw [pow_256_eq (by norm_num)] <;> norm_num at h ⊢ <;> linarith [h.1, h.2]

/-- A register value has a natural encoding of at most 66 bytes (R201). -/
theorem encNatLen_le_66 {n : Int} (h : fitsZ n = true) : encNatLen n ≤ 66 := by
  simp only [fitsZ, decide_eq_true_eq] at h
  rw [encNatLen_le_iff n (by norm_num)]
  norm_num at h ⊢
  constructor <;> linarith [h.1, h.2]

/-! ### The length encodings -/

theorem lenBytes_pos (x : Nat) : 0 < lenBytes x := by unfold lenBytes; omega

/-- `lenBytes x` is the least n ≥ 1 with x < 2^(8n) (R171). -/
theorem lenBytes_le_iff (x : Nat) {n : Nat} (hn : 0 < n) : lenBytes x ≤ n ↔ x < 2 ^ (8 * n) := by
  rw [← bitlen_le_iff, lenBytes]; omega

theorem decU_beBytes_lenBytes (x : Nat) : decU (beBytes (lenBytes x) x) = x := by
  apply decU_beBytes_of_lt
  rw [← two_pow_eight_mul]
  exact (lenBytes_le_iff x (lenBytes_pos x)).1 le_rfl

@[simp] theorem length_leftEncode (x : Nat) : (leftEncode x).length = lenBytes x + 1 := by simp [leftEncode]

@[simp] theorem length_rightEncode (x : Nat) : (rightEncode x).length = lenBytes x + 1 := by simp [rightEncode]

/-- The length of a padded string is a multiple of the width (R174). -/
theorem length_bytepad_mod (X : Bytes) {w : Nat} (hw : 0 < w) : (bytepad X w).length % w = 0 := by
  simp only [bytepad, zeroFill, List.length_append, List.length_replicate]
  generalize (leftEncode w).length + X.length = n
  have h1 : n % w < w := Nat.mod_lt _ hw
  rw [Nat.add_mod, Nat.mod_mod]
  rcases Nat.eq_zero_or_pos (n % w) with h | h
  · simp [h]
  · rw [Nat.mod_eq_of_lt (show w - n % w < w by omega), show n % w + (w - n % w) = w by omega, Nat.mod_self]

end Sys2Proof.Machine
end

