-- ==== Sys2Proof/Laws/Mod.lean ====
section
/-! SUPPORT. The laws of modular arithmetic: residues, and that the inverse is one (43_modarith.md R200, R218, R219;
00_scope.md R9). -/

namespace Sys2Proof.Machine

set_option exponentiation.threshold 1000

/-- The loop of the extended Euclidean algorithm: with `t0 * x` congruent to `r0` and `t1 * x` congruent to `r1`, the
result times x is congruent to the greatest common divisor. -/
theorem euclid_spec (m x : Int) (fuel r0 r1 : Nat) (t0 t1 : Int) (hf : r1 < fuel)
    (h0 : m ∣ t0 * x - r0) (h1 : m ∣ t1 * x - r1) : m ∣ euclid fuel r0 r1 t0 t1 * x - Nat.gcd r0 r1 := by
  induction fuel generalizing r0 r1 t0 t1 with
  | zero => omega
  | succ fuel ih =>
    rw [euclid]
    split
    · next h => subst h; simpa using h0
    · next h =>
      have hlt : r0 % r1 < r1 := Nat.mod_lt _ (by omega)
      have hg : Nat.gcd r0 r1 = Nat.gcd r1 (r0 % r1) := by
        rw [Nat.gcd_comm r0 r1, Nat.gcd_rec r1 r0, Nat.gcd_comm]
      rw [hg]
      refine ih r1 (r0 % r1) t1 _ (by omega) h1 ?_
      have e : ((r0 % r1 : Nat) : Int) = r0 - r1 * (r0 / r1 : Nat) := by
        have := Nat.div_add_mod r0 r1
        zify at this
        push_cast
        linarith
      have : (t0 - ((r0 / r1 : Nat) : Int) * t1) * x - ((r0 % r1 : Nat) : Int)
          = (t0 * x - r0) - ((r0 / r1 : Nat) : Int) * (t1 * x - r1) := by rw [e]; ring
      rw [this]
      exact dvd_sub h0 (Dvd.dvd.mul_left h1 _)

/-- The inverse lies in 0 .. m − 1. -/
theorem invMod_range {m : Nat} (hm : 0 < m) (x : Int) : 0 ≤ invMod m x ∧ invMod m x < m :=
  ⟨Int.emod_nonneg _ (by omega), Int.emod_lt_of_pos _ (by omega)⟩

/-- The inverse times x is congruent to the greatest common divisor of x and m. -/
theorem invMod_gcd {m : Nat} (hm : 0 < m) (x : Int) : (m : Int) ∣ invMod m x * x - Int.gcd x m := by
  have hx := Int.emod_nonneg x (show (m : Int) ≠ 0 by omega)
  have hx2 := Int.emod_lt_of_pos x (show (0 : Int) < m by omega)
  have h := euclid_spec m x (m + 1) m (x % m).toNat 0 1 (by omega) (by simp) (by
    rw [Int.toNat_of_nonneg hx, one_mul]
    exact Int.dvd_self_sub_emod)
  have hg : Nat.gcd m (x % m).toNat = Int.gcd x m := by
    have : Int.gcd x m = Int.gcd (m : Int) (x % m) := by
      rw [Int.gcd_comm (m : Int), Int.gcd_emod]
    rw [this]
    conv_rhs => rw [← Int.toNat_of_nonneg hx]
    rfl
  rw [hg] at h
  have e : (m : Int) ∣ euclid (m + 1) m (x % m).toNat 0 1 - invMod m x := Int.dvd_self_sub_emod
  have h2 := dvd_sub h (Dvd.dvd.mul_right e x)
  rwa [show euclid (m + 1) m (x % m).toNat 0 1 * x - (Int.gcd x m : Int)
      - (euclid (m + 1) m (x % m).toNat 0 1 - invMod m x) * x = invMod m x * x - Int.gcd x m by ring] at h2

/-- `inv_m(x)` is an inverse of x modulo m when x has one (00_scope.md R9). -/
theorem invMod_spec {m : Nat} (hm : 0 < m) {x : Int} (h : Int.gcd x m = 1) : (m : Int) ∣ invMod m x * x - 1 := by
  simpa [h] using invMod_gcd hm x

/-- For a prime modulus every x that is no multiple of it has one (R218). -/
theorem invMod_prime {p : Nat} (hp : p.Prime) {x : Int} (h : ¬ (p : Int) ∣ x) : (p : Int) ∣ invMod p x * x - 1 := by
  apply invMod_spec hp.pos
  rw [Int.gcd_comm]
  have := (Nat.Prime.coprime_iff_not_dvd hp (n := x.natAbs)).2 (fun hd => h (Int.natCast_dvd.2 hd))
  simpa [Int.gcd] using this

/-- A residue is congruent to what it is the residue of. -/
theorem dvd_emod_sub (m x : Int) : m ∣ x % m - x := by
  rw [← dvd_neg, neg_sub]; exact Int.dvd_self_sub_emod

/-- A number is the residue when it lies in the range and is congruent (R200). -/
theorem emod_unique {m r x : Int} (h0 : 0 ≤ r) (h1 : r < m) (h : m ∣ r - x) : x % m = r := by
  rw [← Int.emod_eq_of_lt h0 h1]
  exact Int.modEq_iff_dvd.2 h

/-- The two moduli are positive. -/
theorem modulus_pos (m : Modulus) : 0 < modulus m := by
  cases m <;> norm_num [modulus, Config.curve, Config.e521]

/-- The value of a modular command lies below 2^521, so it fits an integer register (R29). -/
theorem modulus_le (m : Modulus) : modulus m < 2 ^ 521 := by
  cases m <;> norm_num [modulus, Config.curve, Config.e521]

theorem fitsZ_of_range {n : Int} (h0 : 0 ≤ n) (h1 : n < 2 ^ 521) : fitsZ n = true := by
  simp only [fitsZ, decide_eq_true_eq]
  constructor
  · have : (0 : Int) ≤ 2 ^ 527 := by positivity
    omega
  · have : (2 : Int) ^ 521 ≤ 2 ^ 527 - 1 := by norm_num
    omega

/-- The residue a modular command stores fits an integer register. -/
theorem fitsZ_residue (m : Modulus) (n : Int) : fitsZ (n % modulus m) = true := by
  have hp : (0 : Int) < modulus m := by exact_mod_cast modulus_pos m
  have hlt := Int.emod_lt_of_pos n hp
  have : (modulus m : Int) < 2 ^ 521 := by exact_mod_cast modulus_le m
  exact fitsZ_of_range (Int.emod_nonneg n hp.ne') (by omega)

end Sys2Proof.Machine
end

