-- ==== Sys2Proof/Laws/Curve.lean ====
section
/-! SUPPORT. The laws of the curve group: the Edwards addition is complete (no denominator is 0), its result is on the
curve, and the laws of the identity, the negation and the scalar multiplication (44_curve.md R231 to R234, R246). -/

namespace Sys2Proof.Machine

set_option exponentiation.threshold 1000

/-! ### The constants of the curve -/

/-- P is prime (R246 (a)). -/
theorem prime_p521 : Nat.Prime (2 ^ 521 - 1) := by
  have : (mersenne 521).Prime := lucas_lehmer_sufficiency _ (by simp) (by norm_num)
  simpa [mersenne] using this

theorem jacobi_d : jacobiSym (-376014) (2 ^ 521 - 1) = -1 := by norm_num

/-- A number congruent to one of Jacobi symbol -1 is no square. -/
theorem nonsquare_of_jacobi {P : Nat} {a : Int} {d : Nat} (h : (P : Int) ∣ d - a) (hj : jacobiSym a P = -1) :
    ¬ IsSquare (d : ZMod P) := by
  have e : (d : ZMod P) = (a : ZMod P) := by
    have := (ZMod.intCast_zmod_eq_zero_iff_dvd _ P).2 h
    push_cast at this
    linear_combination this
  rw [e]
  exact ZMod.nonsquare_of_jacobiSym_eq_neg_one hj

/-- What makes the addition law complete: the field is prime and d is not a square (R233). -/
structure CurveComplete (c : Curve) : Prop where
  prime : c.P.Prime
  nonsquare : ¬ IsSquare (c.d : ZMod c.P)

theorem config_complete : CurveComplete Config.curve where
  prime := prime_p521
  nonsquare := nonsquare_of_jacobi (a := -376014) (by norm_num [Config.curve, Config.e521]) jacobi_d

/-! ### Completeness, in a field -/

section field
variable {F : Type} [Field F]

/-- If the product d x1 x2 y1 y2 squares to 1, then d is a square: the heart of R233 ("neither denominator is 0"). -/
theorem isSquare_of_sq_eq_one {d x1 y1 x2 y2 : F} (h2 : (2 : F) ≠ 0)
    (e1 : x1 ^ 2 + y1 ^ 2 = 1 + d * x1 ^ 2 * y1 ^ 2) (e2 : x2 ^ 2 + y2 ^ 2 = 1 + d * x2 ^ 2 * y2 ^ 2)
    (he : (d * x1 * x2 * y1 * y2) ^ 2 = 1) : IsSquare d := by
  have hne : d * x1 * x2 * y1 * y2 ≠ 0 := by
    intro h
    rw [h] at he
    norm_num at he
  have hx1 : x1 ≠ 0 := by rintro rfl; simp at hne
  have hy1 : y1 ≠ 0 := by rintro rfl; simp at hne
  have hx2 : x2 ≠ 0 := by rintro rfl; simp at hne
  have hp : (x1 + (d * x1 * x2 * y1 * y2) * y1) ^ 2 = d * (x1 * y1 * (x2 + y2)) ^ 2 := by
    linear_combination e1 - d * x1 ^ 2 * y1 ^ 2 * e2 + (y1 ^ 2 - 1) * he
  have hm : (x1 - (d * x1 * x2 * y1 * y2) * y1) ^ 2 = d * (x1 * y1 * (x2 - y2)) ^ 2 := by
    linear_combination e1 - d * x1 ^ 2 * y1 ^ 2 * e2 + (y1 ^ 2 - 1) * he
  have done : ∀ {a b : F}, a ^ 2 = d * b ^ 2 → b ≠ 0 → IsSquare d := by
    intro a b h hb
    refine ⟨a / b, ?_⟩
    field_simp
    linear_combination -h
  by_cases hs : x2 + y2 = 0
  · have hd : x2 - y2 ≠ 0 := by
      intro hd
      have : (2 : F) * x2 = 0 := by linear_combination hs + hd
      rcases mul_eq_zero.1 this with h | h
      · exact h2 h
      · exact hx2 h
    exact done hm (mul_ne_zero (mul_ne_zero hx1 hy1) hd)
  · exact done hp (mul_ne_zero (mul_ne_zero hx1 hy1) hs)

/-- The sum of two points of the curve satisfies the equation. -/
theorem sum_on_curve {d x1 y1 x2 y2 x3 y3 : F}
    (e1 : x1 ^ 2 + y1 ^ 2 = 1 + d * x1 ^ 2 * y1 ^ 2) (e2 : x2 ^ 2 + y2 ^ 2 = 1 + d * x2 ^ 2 * y2 ^ 2)
    (hp : 1 + d * x1 * x2 * y1 * y2 ≠ 0) (hm : 1 - d * x1 * x2 * y1 * y2 ≠ 0)
    (h3 : x3 * (1 + d * x1 * x2 * y1 * y2) = x1 * y2 + y1 * x2)
    (h4 : y3 * (1 - d * x1 * x2 * y1 * y2) = y1 * y2 - x1 * x2) :
    x3 ^ 2 + y3 ^ 2 = 1 + d * x3 ^ 2 * y3 ^ 2 := by
  have key : (x1 * y2 + y1 * x2) ^ 2 * (1 - d * x1 * x2 * y1 * y2) ^ 2
      + (y1 * y2 - x1 * x2) ^ 2 * (1 + d * x1 * x2 * y1 * y2) ^ 2
      = ((1 + d * x1 * x2 * y1 * y2) * (1 - d * x1 * x2 * y1 * y2)) ^ 2
        + d * (x1 * y2 + y1 * x2) ^ 2 * (y1 * y2 - x1 * x2) ^ 2 := by
    linear_combination
      ((x2 ^ 2 + y2 ^ 2) * (1 + d * x1 ^ 2 * y1 ^ 2 * (d * x2 ^ 2 * y2 ^ 2))
        - d * x2 ^ 2 * y2 ^ 2 * (x1 ^ 2 + y1 ^ 2 + 1 + d * x1 ^ 2 * y1 ^ 2)) * e1
      + ((1 + d * x1 ^ 2 * y1 ^ 2) * (1 + d * x1 ^ 2 * y1 ^ 2 * (d * x2 ^ 2 * y2 ^ 2))
        - d * x1 ^ 2 * y1 ^ 2 * (x2 ^ 2 + y2 ^ 2 + 1 + d * x2 ^ 2 * y2 ^ 2)) * e2
  rw [← h3, ← h4] at key
  apply mul_left_cancel₀ (pow_ne_zero 2 (mul_ne_zero hp hm))
  linear_combination key

end field

/-! ### Points -/

@[simp] theorem norm_x (x y : Int) : (norm x y).x = x := by
  unfold norm; split
  · next h => simp [Point.x, h.1]
  · rfl

@[simp] theorem norm_y (x y : Int) : (norm x y).y = y := by
  unfold norm; split
  · next h => simp [Point.y, h.2]
  · rfl

/-- The normal form is never the pair (0, 1) (R232). -/
theorem norm_ne (x y : Int) : norm x y ≠ .affine 0 1 := by
  unfold norm; split
  · simp
  · next h => simpa using h

/-- A value in normal form is its coordinate view, put through `norm`. -/
theorem norm_coords {T : Point} (h : T ≠ .affine 0 1) : norm T.x T.y = T := by
  cases T with
  | identity => rfl
  | affine x y =>
    have h' : ¬ (x = 0 ∧ y = 1) := by simpa using h
    exact if_neg h'

/-- Two values in normal form with the same coordinates are the same value (R232). -/
theorem Point.ext_coords {T U : Point} (hT : T ≠ .affine 0 1) (hU : U ≠ .affine 0 1) (hx : T.x = U.x) (hy : T.y = U.y) :
    T = U := by rw [← norm_coords hT, ← norm_coords hU, hx, hy]

/-- A value is a point of the curve exactly when its coordinates are in range and satisfy the equation (R31, R233). -/
theorem onCurve_iff {c : Curve} (hP : 1 < c.P) (T : Point) :
    T.onCurve c = true ↔ (0 ≤ T.x ∧ T.x < c.P) ∧ (0 ≤ T.y ∧ T.y < c.P) ∧
      (T.x : ZMod c.P) ^ 2 + (T.y : ZMod c.P) ^ 2 = 1 + (c.d : ZMod c.P) * (T.x : ZMod c.P) ^ 2 * (T.y : ZMod c.P) ^ 2 := by
  cases T with
  | identity => simp [Point.onCurve, Point.x, Point.y]; omega
  | affine x y =>
    have : onCurveXY c x y = true ↔ ((x : ZMod c.P) ^ 2 + (y : ZMod c.P) ^ 2
        = 1 + (c.d : ZMod c.P) * (x : ZMod c.P) ^ 2 * (y : ZMod c.P) ^ 2) := by
      simp only [onCurveXY, decide_eq_true_eq]
      rw [show ((x * x + y * y) % (c.P : Int) = (1 + c.d * x * x * y * y) % (c.P : Int))
          ↔ ((x * x + y * y : Int) : ZMod c.P) = ((1 + c.d * x * x * y * y : Int) : ZMod c.P) from
        (ZMod.intCast_eq_intCast_iff _ _ _).symm]
      push_cast
      constructor <;> intro h <;> linear_combination h
    simp [Point.onCurve, inField, this, Point.x, Point.y, and_assoc]

/-- The inverse, in the field. -/
theorem invMod_cast {p : Nat} (hp : p.Prime) {x : Int} (h : (x : ZMod p) ≠ 0) :
    ((invMod p x : Int) : ZMod p) * (x : ZMod p) = 1 := by
  have hx : ¬ (p : Int) ∣ x := by rwa [← ZMod.intCast_zmod_eq_zero_iff_dvd]
  have := (ZMod.intCast_zmod_eq_zero_iff_dvd _ p).2 (invMod_prime hp hx)
  push_cast at this
  linear_combination this

section complete
variable {c : Curve} (hc : CurveComplete c)
include hc

theorem CurveComplete.two_ne : (2 : ZMod c.P) ≠ 0 := by
  have := Fact.mk hc.prime
  intro h
  have hd : c.P ∣ 2 := by
    rw [← ZMod.natCast_eq_zero_iff]; exact_mod_cast h
  have hP : c.P = 2 := ((Nat.dvd_prime Nat.prime_two).1 hd).resolve_left hc.prime.one_lt.ne'
  apply hc.nonsquare
  generalize (c.d : ZMod c.P) = d
  revert d
  rw [hP]
  decide

/-- Neither denominator of the addition law is 0 on the curve (R233). -/
theorem denominators_ne_zero {T U : Point} (hT : T.onCurve c = true) (hU : U.onCurve c = true) :
    (1 + (c.d : ZMod c.P) * T.x * U.x * T.y * U.y ≠ 0) ∧ (1 - (c.d : ZMod c.P) * T.x * U.x * T.y * U.y ≠ 0) := by
  have := Fact.mk hc.prime
  have e1 := ((onCurve_iff hc.prime.one_lt T).1 hT).2.2
  have e2 := ((onCurve_iff hc.prime.one_lt U).1 hU).2.2
  constructor <;> intro h <;>
    exact hc.nonsquare (isSquare_of_sq_eq_one hc.two_ne e1 e2 (by
      have := h
      first
        | (linear_combination ((c.d : ZMod c.P) * T.x * U.x * T.y * U.y - 1) * h)
        | (linear_combination (-(c.d : ZMod c.P) * T.x * U.x * T.y * U.y - 1) * h)))

/-- The coordinates of a sum solve the addition law (R233). -/
theorem padd_coords {T U : Point} (hT : T.onCurve c = true) (hU : U.onCurve c = true) :
    ((padd c T U).x : ZMod c.P) * (1 + (c.d : ZMod c.P) * T.x * U.x * T.y * U.y)
        = T.x * U.y + T.y * U.x ∧
    ((padd c T U).y : ZMod c.P) * (1 - (c.d : ZMod c.P) * T.x * U.x * T.y * U.y)
        = T.y * U.y - T.x * U.x := by
  have := Fact.mk hc.prime
  obtain ⟨hp, hm⟩ := denominators_ne_zero hc hT hU
  have ep : (((1 + c.d * T.x * U.x * T.y * U.y % c.P) % c.P : Int) : ZMod c.P)
      = 1 + (c.d : ZMod c.P) * T.x * U.x * T.y * U.y := by
    rw [ZMod.intCast_mod]; push_cast; ring
  have em : (((1 - c.d * T.x * U.x * T.y * U.y % c.P) % c.P : Int) : ZMod c.P)
      = 1 - (c.d : ZMod c.P) * T.x * U.x * T.y * U.y := by
    rw [ZMod.intCast_mod]; push_cast; ring
  have ip := invMod_cast hc.prime (ep ▸ hp)
  have im := invMod_cast hc.prime (em ▸ hm)
  rw [ep] at ip
  rw [em] at im
  simp only [padd, norm_x, norm_y, ZMod.intCast_mod]
  push_cast
  constructor
  · linear_combination (T.x * U.y + T.y * U.x : ZMod c.P) * ip
  · linear_combination (T.y * U.y - T.x * U.x : ZMod c.P) * im

/-- The sum of two points of the curve is a point of the curve in normal form (R246 (g)). -/
theorem padd_wf {T U : Point} (hT : T.onCurve c = true) (hU : U.onCurve c = true) : (padd c T U).wf c := by
  have := Fact.mk hc.prime
  have hP : (0 : Int) < c.P := by exact_mod_cast hc.prime.pos
  refine ⟨?_, norm_ne _ _⟩
  rw [onCurve_iff hc.prime.one_lt]
  have h3 := padd_coords hc hT hU
  obtain ⟨hp, hm⟩ := denominators_ne_zero hc hT hU
  refine ⟨?_, ?_, ?_⟩
  · simp only [padd, norm_x]; exact ⟨Int.emod_nonneg _ hP.ne', Int.emod_lt_of_pos _ hP⟩
  · simp only [padd, norm_y]; exact ⟨Int.emod_nonneg _ hP.ne', Int.emod_lt_of_pos _ hP⟩
  · exact sum_on_curve ((onCurve_iff hc.prime.one_lt T).1 hT).2.2 ((onCurve_iff hc.prime.one_lt U).1 hU).2.2 hp hm
      h3.1 h3.2

theorem pneg_wf {T : Point} (hT : T.onCurve c = true) : (pneg c T).wf c := by
  have := Fact.mk hc.prime
  have hP : (0 : Int) < c.P := by exact_mod_cast hc.prime.pos
  cases T with
  | identity => exact ⟨rfl, by simp [pneg]⟩
  | affine x y =>
    refine ⟨?_, norm_ne _ _⟩
    have h := (onCurve_iff hc.prime.one_lt _).1 hT
    rw [onCurve_iff hc.prime.one_lt]
    simp only [pneg, norm_x, norm_y]
    refine ⟨⟨Int.emod_nonneg _ hP.ne', Int.emod_lt_of_pos _ hP⟩, h.2.1, ?_⟩
    rw [ZMod.intCast_mod]
    push_cast
    have := h.2.2
    simp only [Point.x, Point.y] at this
    linear_combination this

/-- A multiple of a point of the curve is a point of the curve in normal form. -/
theorem smulBits_wf {T : Point} (hT : T.onCurve c = true) (k i : Nat) {acc : Point} (ha : acc.wf c) :
    (smulBits c T k i acc).wf c := by
  induction i generalizing acc with
  | zero => exact ha
  | succ i ih =>
    rw [smulBits]
    apply ih
    have h2 := padd_wf hc ha.1 ha.1
    split
    · exact padd_wf hc h2.1 hT
    · exact h2

theorem smul_wf {T : Point} (hT : T.onCurve c = true) (k : Int) : (smul c T k).wf c := by
  have hid : Point.wf c .identity := ⟨rfl, by simp⟩
  unfold smul smulNat
  split
  · exact smulBits_wf hc (pneg_wf hc hT).1 _ _ hid
  · exact smulBits_wf hc hT _ _ hid

end complete

/-! ### The scan over the bits of a scalar -/

/-- One more low bit: the scan of 2k + b is the scan of k, doubled, and T added where b is 1 (R234). -/
theorem smulBits_bit (c : Curve) (T : Point) (k : Nat) (b : Bool) (i : Nat) (acc : Point) :
    smulBits c T (2 * k + b.toNat) (i + 1) acc
      = (let r := smulBits c T k i acc
         if b then padd c (padd c r r) T else padd c r r) := by
  induction i generalizing acc with
  | zero =>
    have : (2 * k + b.toNat).testBit 0 = b := by
      rw [Nat.testBit_zero]
      cases b <;> simp
    simp [smulBits, this]
  | succ i ih =>
    have : (2 * k + b.toNat).testBit (i + 1) = k.testBit i := by
      rw [Nat.testBit_add_one]
      congr 1
      have : b.toNat ≤ 1 := Bool.toNat_le b
      omega
    rw [smulBits, ih, this, smulBits]

theorem bitlen_bit {k : Nat} {b : Bool} (h : 2 * k + b.toNat ≠ 0) : bitlen (2 * k + b.toNat) = bitlen k + 1 := by
  apply le_antisymm
  · rw [bitlen_le_iff, pow_succ]
    have := lt_two_pow_bitlen k
    have : b.toNat ≤ 1 := Bool.toNat_le b
    omega
  · by_contra hlt
    have h1 : bitlen (2 * k + b.toNat) ≤ bitlen k := by omega
    rw [bitlen_le_iff] at h1
    rcases Nat.eq_zero_or_pos (bitlen k) with h0 | h0
    · rw [h0] at h1; omega
    · have h2 : k < 2 ^ (bitlen k - 1) := by
        rw [show bitlen k = (bitlen k - 1) + 1 by omega, pow_succ] at h1
        omega
      have := (bitlen_le_iff k _).2 h2
      omega

/-- The executable form of the multiple, by the low bit of the scalar (R234). -/
theorem smulNat_bit (c : Curve) (T : Point) {k : Nat} {b : Bool} (h : 2 * k + b.toNat ≠ 0) :
    smulNat c T (2 * k + b.toNat)
      = (let r := smulNat c T k
         if b then padd c (padd c r r) T else padd c r r) := by
  rw [smulNat, bitlen_bit h, smulBits_bit, ← smulNat]

end Sys2Proof.Machine
end

