-- ==== Sys2Proof/Laws/Encoding.lean ====
section
/-! SUPPORT. The laws of the command word: each field of a word that is put together with `|||` is the `|||` of the
fields of its parts, and an operand shifted to its field touches no other field (30_encoding.md R90 to R95, R102). -/

namespace Sys2Proof

/-- A field of two words laid over each other. -/
theorem field_or (a b : Word) (lo w : Nat) :
    (a ||| b).extractLsb' lo w = a.extractLsb' lo w ||| b.extractLsb' lo w := by
  apply BitVec.eq_of_getLsbD_eq
  intro i hi
  simp [hi]

/-- A register index lies in the bits of its field and nowhere else. -/
theorem getLsbD_place {n : Nat} (r : Fin n) (lo i : Nat) (hi : i < 32) :
    (place r lo).getLsbD i = (decide (lo ≤ i) && r.val.testBit (i - lo)) := by
  rw [place, BitVec.getLsbD_shiftLeft, BitVec.getLsbD_ofNat]
  by_cases h : i < lo
  · simp [h, hi]
  · have h1 : i - lo < 32 := by omega
    simp [h, hi, h1, not_lt.1 h]

/-- A field that the index of a register does not reach is 0. -/
theorem field_place_of_disjoint {n : Nat} (r : Fin n) (k lo lo' w : Nat) (hn : n ≤ 2 ^ k) (hw : lo' + w ≤ 32)
    (h : lo + k ≤ lo' ∨ lo' + w ≤ lo) : (place r lo).extractLsb' lo' w = 0 := by
  apply BitVec.eq_of_getLsbD_eq
  intro i hi
  rw [BitVec.getLsbD_extractLsb', getLsbD_place r lo _ (by omega)]
  rcases h with h | h
  · have : r.val < 2 ^ (lo' + i - lo) :=
      lt_of_lt_of_le (lt_of_lt_of_le r.isLt hn) (Nat.pow_le_pow_right (by norm_num) (by omega))
    simp [Nat.testBit_lt_two_pow this]
  · simp [show ¬ lo ≤ lo' + i by omega]

/-- The field a register index was shifted to holds it. -/
theorem field_place_self {k : Nat} (r : Fin (2 ^ k)) (lo : Nat) (h : lo + k ≤ 32) :
    ((place r lo).extractLsb' lo k).toFin = r := by
  have : (place r lo).extractLsb' lo k = BitVec.ofFin r := by
    apply BitVec.eq_of_getLsbD_eq
    intro i hi
    rw [BitVec.getLsbD_extractLsb', getLsbD_place r lo _ (by omega)]
    simp [hi, BitVec.getLsbD]
  rw [this]

@[simp] theorem opcodeOf_or (a b : Word) : opcodeOf (a ||| b) = opcodeOf a ||| opcodeOf b := field_or a b 24 8

@[simp] theorem opcodeOf_place8 (r : Fin 8) {lo : Nat} (h : lo + 3 ≤ 24) : opcodeOf (place r lo) = 0 :=
  field_place_of_disjoint r 3 lo 24 8 (by norm_num) (by norm_num) (.inl h)

@[simp] theorem opcodeOf_place4 (r : Fin 4) {lo : Nat} (h : lo + 2 ≤ 24) : opcodeOf (place r lo) = 0 :=
  field_place_of_disjoint r 2 lo 24 8 (by norm_num) (by norm_num) (.inl h)

@[simp] theorem opcodeOf_placeMod (m : Modulus) : opcodeOf (placeMod m) = 0 := by cases m <;> rfl

@[simp] theorem opcodeOf_imm {w : Nat} (v : BitVec w) (h : w ≤ 24) : opcodeOf (v.setWidth 32) = 0 := by
  apply BitVec.eq_of_getLsbD_eq
  intro i hi
  rw [opcodeOf, BitVec.getLsbD_extractLsb', BitVec.getLsbD_setWidth]
  simp [BitVec.getLsbD_of_ge v (24 + i) (by omega)]

/-- The opcode of a constant is its top byte. -/
@[simp] theorem opcodeOf_ofNat (n : Nat) : opcodeOf (BitVec.ofNat 32 n) = BitVec.ofNat 8 (n / 2 ^ 24) := by
  apply BitVec.eq_of_toNat_eq
  simp only [opcodeOf, BitVec.extractLsb'_toNat, BitVec.toNat_ofNat, Nat.shiftRight_eq_div_pow]
  omega

/-- Two words laid over each other without a common bit are added. -/
theorem toNat_or_disjoint {n : Nat} (a b : BitVec n) (h : a &&& b = 0) : (a ||| b).toNat = a.toNat + b.toNat := by
  rw [← BitVec.add_eq_or_of_and_eq_zero a b h, BitVec.toNat_add_of_and_eq_zero h]

/-- A word whose low bits are 0 has no bit in common with an immediate. -/
theorem and_imm {w : Nat} (v : BitVec w) (m : Word) (hm : ∀ i < w, m.getLsbD i = false) : m &&& v.setWidth 32 = 0 := by
  apply BitVec.eq_of_getLsbD_eq
  intro i hi
  simp only [BitVec.getLsbD_and, BitVec.getLsbD_setWidth]
  by_cases hw : i < w
  · simp [hm i hw]
  · simp [BitVec.getLsbD_of_ge v i (by omega)]

/-- An immediate stands in its field as it is (R94: zero-extended). -/
theorem toNat_imm {w : Nat} (v : BitVec w) (h : w ≤ 32) : (v.setWidth 32).toNat = v.toNat := by
  rw [BitVec.toNat_setWidth]
  exact Nat.mod_eq_of_lt (lt_of_lt_of_le v.isLt (Nat.pow_le_pow_right (by norm_num) h))

/-- Masking two words laid over each other. -/
theorem or_and (a b m : Word) : (a ||| b) &&& m = (a &&& m) ||| (b &&& m) := by
  apply BitVec.eq_of_getLsbD_eq
  intro i _
  simp [Bool.and_or_distrib_right]

end Sys2Proof
end

