-- ==== Sys2Proof/Laws/Group.lean ====
section
/-! SUPPORT. The points of the curve form a commutative group under `padd` (44_curve.md R246 (a)): closure, associativity,
identity, inverse, order of the operands. -/

namespace Sys2Proof.Machine

set_option exponentiation.threshold 1000

/-! ### Associativity, in a field -/

section field
variable {F : Type} [Field F]

/-- The x coordinates of (T + U) + V and T + (U + V), denominators cleared. -/
theorem assoc_x_cleared {d x1 y1 x2 y2 x3 y3 : F}
    (e1 : x1 ^ 2 + y1 ^ 2 = 1 + d * x1 ^ 2 * y1 ^ 2) (e2 : x2 ^ 2 + y2 ^ 2 = 1 + d * x2 ^ 2 * y2 ^ 2)
    (e3 : x3 ^ 2 + y3 ^ 2 = 1 + d * x3 ^ 2 * y3 ^ 2) :
    ((x1 * y2 + y1 * x2) * (1 - d * x1 * x2 * y1 * y2) * y3 + (y1 * y2 - x1 * x2) * (1 + d * x1 * x2 * y1 * y2) * x3)
        * ((1 + d * x2 * x3 * y2 * y3) * (1 - d * x2 * x3 * y2 * y3) + d * (x2 * y3 + y2 * x3) * (y2 * y3 - x2 * x3) * x1 * y1)
      = (x1 * (y2 * y3 - x2 * x3) * (1 + d * x2 * x3 * y2 * y3) + y1 * (x2 * y3 + y2 * x3) * (1 - d * x2 * x3 * y2 * y3))
        * ((1 + d * x1 * x2 * y1 * y2) * (1 - d * x1 * x2 * y1 * y2) + d * (x1 * y2 + y1 * x2) * (y1 * y2 - x1 * x2) * x3 * y3) := by
  linear_combination
    (-d * y1 * x2 * y2 ^ 4 * x3 ^ 2 * y3 - d * y1 * x2 ^ 2 * y2 ^ 3 * x3
        + d * y1 * x2 ^ 2 * y2 ^ 3 * x3 ^ 3 - d * y1 * x2 ^ 3 * y2 ^ 2 * y3
        + d * y1 * x2 ^ 3 * y2 ^ 2 * y3 ^ 3 - d * y1 * x2 ^ 4 * y2 * x3 * y3 ^ 2
        + d * x1 * x2 * y2 ^ 4 * x3 * y3 ^ 2 - d * x1 * x2 ^ 2 * y2 ^ 3 * y3
        + d * x1 * x2 ^ 2 * y2 ^ 3 * y3 ^ 3 + d * x1 * x2 ^ 3 * y2 ^ 2 * x3
        - d * x1 * x2 ^ 3 * y2 ^ 2 * x3 ^ 3 - d * x1 * x2 ^ 4 * y2 * x3 ^ 2 * y3
        + d ^ 2 * y1 * x2 ^ 3 * y2 ^ 4 * x3 ^ 2 * y3 + d ^ 2 * y1 * x2 ^ 4 * y2 ^ 3 * x3 * y3 ^ 2
        - d ^ 2 * x1 * x2 ^ 3 * y2 ^ 4 * x3 * y3 ^ 2 + d ^ 2 * x1 * x2 ^ 4 * y2 ^ 3 * x3 ^ 2 * y3) * e1
    + (y1 * y2 * x3 - y1 * y2 * x3 * y3 ^ 2 - y1 * y2 * x3 ^ 3 + y1 * x2 * y3 - y1 * x2 * y3 ^ 3
        - y1 * x2 * x3 ^ 2 * y3 - y1 ^ 3 * y2 * x3 + y1 ^ 3 * y2 * x3 * y3 ^ 2
        + y1 ^ 3 * y2 * x3 ^ 3 - y1 ^ 3 * x2 * y3 + y1 ^ 3 * x2 * y3 ^ 3 + y1 ^ 3 * x2 * x3 ^ 2 * y3
        + x1 * y2 * y3 - x1 * y2 * y3 ^ 3 - x1 * y2 * x3 ^ 2 * y3 - x1 * x2 * x3
        + x1 * x2 * x3 * y3 ^ 2 + x1 * x2 * x3 ^ 3 - x1 * y1 ^ 2 * y2 * y3
        + x1 * y1 ^ 2 * y2 * y3 ^ 3 + x1 * y1 ^ 2 * y2 * x3 ^ 2 * y3 + x1 * y1 ^ 2 * x2 * x3
        - x1 * y1 ^ 2 * x2 * x3 * y3 ^ 2 - x1 * y1 ^ 2 * x2 * x3 ^ 3 - x1 ^ 2 * y1 * y2 * x3
        + x1 ^ 2 * y1 * y2 * x3 * y3 ^ 2 + x1 ^ 2 * y1 * y2 * x3 ^ 3 - x1 ^ 2 * y1 * x2 * y3
        + x1 ^ 2 * y1 * x2 * y3 ^ 3 + x1 ^ 2 * y1 * x2 * x3 ^ 2 * y3 - x1 ^ 3 * y2 * y3
        + x1 ^ 3 * y2 * y3 ^ 3 + x1 ^ 3 * y2 * x3 ^ 2 * y3 + x1 ^ 3 * x2 * x3
        - x1 ^ 3 * x2 * x3 * y3 ^ 2 - x1 ^ 3 * x2 * x3 ^ 3 + d * y1 * y2 * x3 ^ 3 * y3 ^ 2
        + d * y1 * x2 * x3 ^ 2 * y3 ^ 3 - d * y1 * x2 * y2 ^ 2 * x3 ^ 2 * y3
        - d * y1 * x2 ^ 2 * y2 * x3 * y3 ^ 2 - d * y1 ^ 3 * y2 * x3 ^ 3 * y3 ^ 2
        - d * y1 ^ 3 * x2 * x3 ^ 2 * y3 ^ 3 + d * y1 ^ 3 * x2 * y2 ^ 2 * x3 ^ 2 * y3
        + d * y1 ^ 3 * x2 ^ 2 * y2 * x3 * y3 ^ 2 + d * x1 * y2 * x3 ^ 2 * y3 ^ 3
        - d * x1 * x2 * x3 ^ 3 * y3 ^ 2 + d * x1 * x2 * y2 ^ 2 * x3 * y3 ^ 2
        - d * x1 * x2 ^ 2 * y2 * x3 ^ 2 * y3 - d * x1 * y1 ^ 2 * y2 * x3 ^ 2 * y3 ^ 3
        + d * x1 * y1 ^ 2 * x2 * x3 ^ 3 * y3 ^ 2 - d * x1 * y1 ^ 2 * x2 * y2 ^ 2 * x3 * y3 ^ 2
        + d * x1 * y1 ^ 2 * x2 ^ 2 * y2 * x3 ^ 2 * y3 - d * x1 ^ 2 * y1 * y2 * x3 ^ 3 * y3 ^ 2
        - d * x1 ^ 2 * y1 * x2 * x3 ^ 2 * y3 ^ 3 + d * x1 ^ 2 * y1 * x2 * y2 ^ 2 * x3 ^ 2 * y3
        + d * x1 ^ 2 * y1 * x2 ^ 2 * y2 * x3 * y3 ^ 2 - d * x1 ^ 3 * y2 * x3 ^ 2 * y3 ^ 3
        + d * x1 ^ 3 * x2 * x3 ^ 3 * y3 ^ 2 - d * x1 ^ 3 * x2 * y2 ^ 2 * x3 * y3 ^ 2
        + d * x1 ^ 3 * x2 ^ 2 * y2 * x3 ^ 2 * y3
        + d ^ 2 * x1 * y1 ^ 2 * x2 * y2 ^ 2 * x3 ^ 3 * y3 ^ 2
        - d ^ 2 * x1 * y1 ^ 2 * x2 ^ 2 * y2 * x3 ^ 2 * y3 ^ 3
        - d ^ 2 * x1 ^ 2 * y1 * x2 * y2 ^ 2 * x3 ^ 2 * y3 ^ 3
        - d ^ 2 * x1 ^ 2 * y1 * x2 ^ 2 * y2 * x3 ^ 3 * y3 ^ 2) * e2
    + (-y1 * y2 * x3 + y1 * y2 ^ 3 * x3 - y1 * x2 * y3 + y1 * x2 * y2 ^ 2 * y3 + y1 * x2 ^ 2 * y2 * x3
        + y1 * x2 ^ 3 * y3 + y1 ^ 3 * y2 * x3 - y1 ^ 3 * y2 ^ 3 * x3 + y1 ^ 3 * x2 * y3
        - y1 ^ 3 * x2 * y2 ^ 2 * y3 - y1 ^ 3 * x2 ^ 2 * y2 * x3 - y1 ^ 3 * x2 ^ 3 * y3
        - x1 * y2 * y3 + x1 * y2 ^ 3 * y3 + x1 * x2 * x3 - x1 * x2 * y2 ^ 2 * x3
        + x1 * x2 ^ 2 * y2 * y3 - x1 * x2 ^ 3 * x3 + x1 * y1 ^ 2 * y2 * y3
        - x1 * y1 ^ 2 * y2 ^ 3 * y3 - x1 * y1 ^ 2 * x2 * x3 + x1 * y1 ^ 2 * x2 * y2 ^ 2 * x3
        - x1 * y1 ^ 2 * x2 ^ 2 * y2 * y3 + x1 * y1 ^ 2 * x2 ^ 3 * x3 + x1 ^ 2 * y1 * y2 * x3
        - x1 ^ 2 * y1 * y2 ^ 3 * x3 + x1 ^ 2 * y1 * x2 * y3 - x1 ^ 2 * y1 * x2 * y2 ^ 2 * y3
        - x1 ^ 2 * y1 * x2 ^ 2 * y2 * x3 - x1 ^ 2 * y1 * x2 ^ 3 * y3 + x1 ^ 3 * y2 * y3
        - x1 ^ 3 * y2 ^ 3 * y3 - x1 ^ 3 * x2 * x3 + x1 ^ 3 * x2 * y2 ^ 2 * x3
        - x1 ^ 3 * x2 ^ 2 * y2 * y3 + x1 ^ 3 * x2 ^ 3 * x3 - d * x1 * y1 ^ 2 * x2 * y2 ^ 2 * x3
        + d * x1 * y1 ^ 2 * x2 ^ 2 * y2 * y3 + d * x1 ^ 2 * y1 * x2 * y2 ^ 2 * y3
        + d * x1 ^ 2 * y1 * x2 ^ 2 * y2 * x3) * e3

/-- The y coordinates of (T + U) + V and T + (U + V), denominators cleared. -/
theorem assoc_y_cleared {d x1 y1 x2 y2 x3 y3 : F}
    (e1 : x1 ^ 2 + y1 ^ 2 = 1 + d * x1 ^ 2 * y1 ^ 2) (e2 : x2 ^ 2 + y2 ^ 2 = 1 + d * x2 ^ 2 * y2 ^ 2)
    (e3 : x3 ^ 2 + y3 ^ 2 = 1 + d * x3 ^ 2 * y3 ^ 2) :
    ((y1 * y2 - x1 * x2) * (1 + d * x1 * x2 * y1 * y2) * y3 - (x1 * y2 + y1 * x2) * (1 - d * x1 * x2 * y1 * y2) * x3)
        * ((1 + d * x2 * x3 * y2 * y3) * (1 - d * x2 * x3 * y2 * y3) - d * (x2 * y3 + y2 * x3) * (y2 * y3 - x2 * x3) * x1 * y1)
      = (y1 * (y2 * y3 - x2 * x3) * (1 + d * x2 * x3 * y2 * y3) - x1 * (x2 * y3 + y2 * x3) * (1 - d * x2 * x3 * y2 * y3))
        * ((1 + d * x1 * x2 * y1 * y2) * (1 - d * x1 * x2 * y1 * y2) - d * (x1 * y2 + y1 * x2) * (y1 * y2 - x1 * x2) * x3 * y3) := by
  linear_combination
    (d * y1 * x2 * y2 ^ 4 * x3 * y3 ^ 2 - d * y1 * x2 ^ 2 * y2 ^ 3 * y3
        + d * y1 * x2 ^ 2 * y2 ^ 3 * y3 ^ 3 + d * y1 * x2 ^ 3 * y2 ^ 2 * x3
        - d * y1 * x2 ^ 3 * y2 ^ 2 * x3 ^ 3 - d * y1 * x2 ^ 4 * y2 * x3 ^ 2 * y3
        + d * x1 * x2 * y2 ^ 4 * x3 ^ 2 * y3 + d * x1 * x2 ^ 2 * y2 ^ 3 * x3
        - d * x1 * x2 ^ 2 * y2 ^ 3 * x3 ^ 3 + d * x1 * x2 ^ 3 * y2 ^ 2 * y3
        - d * x1 * x2 ^ 3 * y2 ^ 2 * y3 ^ 3 + d * x1 * x2 ^ 4 * y2 * x3 * y3 ^ 2
        - d ^ 2 * y1 * x2 ^ 3 * y2 ^ 4 * x3 * y3 ^ 2 + d ^ 2 * y1 * x2 ^ 4 * y2 ^ 3 * x3 ^ 2 * y3
        - d ^ 2 * x1 * x2 ^ 3 * y2 ^ 4 * x3 ^ 2 * y3 - d ^ 2 * x1 * x2 ^ 4 * y2 ^ 3 * x3 * y3 ^ 2) * e1
    + (y1 * y2 * y3 - y1 * y2 * y3 ^ 3 - y1 * y2 * x3 ^ 2 * y3 - y1 * x2 * x3 + y1 * x2 * x3 * y3 ^ 2
        + y1 * x2 * x3 ^ 3 - y1 ^ 3 * y2 * y3 + y1 ^ 3 * y2 * y3 ^ 3 + y1 ^ 3 * y2 * x3 ^ 2 * y3
        + y1 ^ 3 * x2 * x3 - y1 ^ 3 * x2 * x3 * y3 ^ 2 - y1 ^ 3 * x2 * x3 ^ 3 - x1 * y2 * x3
        + x1 * y2 * x3 * y3 ^ 2 + x1 * y2 * x3 ^ 3 - x1 * x2 * y3 + x1 * x2 * y3 ^ 3
        + x1 * x2 * x3 ^ 2 * y3 + x1 * y1 ^ 2 * y2 * x3 - x1 * y1 ^ 2 * y2 * x3 * y3 ^ 2
        - x1 * y1 ^ 2 * y2 * x3 ^ 3 + x1 * y1 ^ 2 * x2 * y3 - x1 * y1 ^ 2 * x2 * y3 ^ 3
        - x1 * y1 ^ 2 * x2 * x3 ^ 2 * y3 - x1 ^ 2 * y1 * y2 * y3 + x1 ^ 2 * y1 * y2 * y3 ^ 3
        + x1 ^ 2 * y1 * y2 * x3 ^ 2 * y3 + x1 ^ 2 * y1 * x2 * x3 - x1 ^ 2 * y1 * x2 * x3 * y3 ^ 2
        - x1 ^ 2 * y1 * x2 * x3 ^ 3 + x1 ^ 3 * y2 * x3 - x1 ^ 3 * y2 * x3 * y3 ^ 2
        - x1 ^ 3 * y2 * x3 ^ 3 + x1 ^ 3 * x2 * y3 - x1 ^ 3 * x2 * y3 ^ 3 - x1 ^ 3 * x2 * x3 ^ 2 * y3
        + d * y1 * y2 * x3 ^ 2 * y3 ^ 3 - d * y1 * x2 * x3 ^ 3 * y3 ^ 2
        + d * y1 * x2 * y2 ^ 2 * x3 * y3 ^ 2 - d * y1 * x2 ^ 2 * y2 * x3 ^ 2 * y3
        - d * y1 ^ 3 * y2 * x3 ^ 2 * y3 ^ 3 + d * y1 ^ 3 * x2 * x3 ^ 3 * y3 ^ 2
        - d * y1 ^ 3 * x2 * y2 ^ 2 * x3 * y3 ^ 2 + d * y1 ^ 3 * x2 ^ 2 * y2 * x3 ^ 2 * y3
        - d * x1 * y2 * x3 ^ 3 * y3 ^ 2 - d * x1 * x2 * x3 ^ 2 * y3 ^ 3
        + d * x1 * x2 * y2 ^ 2 * x3 ^ 2 * y3 + d * x1 * x2 ^ 2 * y2 * x3 * y3 ^ 2
        + d * x1 * y1 ^ 2 * y2 * x3 ^ 3 * y3 ^ 2 + d * x1 * y1 ^ 2 * x2 * x3 ^ 2 * y3 ^ 3
        - d * x1 * y1 ^ 2 * x2 * y2 ^ 2 * x3 ^ 2 * y3 - d * x1 * y1 ^ 2 * x2 ^ 2 * y2 * x3 * y3 ^ 2
        - d * x1 ^ 2 * y1 * y2 * x3 ^ 2 * y3 ^ 3 + d * x1 ^ 2 * y1 * x2 * x3 ^ 3 * y3 ^ 2
        - d * x1 ^ 2 * y1 * x2 * y2 ^ 2 * x3 * y3 ^ 2 + d * x1 ^ 2 * y1 * x2 ^ 2 * y2 * x3 ^ 2 * y3
        + d * x1 ^ 3 * y2 * x3 ^ 3 * y3 ^ 2 + d * x1 ^ 3 * x2 * x3 ^ 2 * y3 ^ 3
        - d * x1 ^ 3 * x2 * y2 ^ 2 * x3 ^ 2 * y3 - d * x1 ^ 3 * x2 ^ 2 * y2 * x3 * y3 ^ 2
        + d ^ 2 * x1 * y1 ^ 2 * x2 * y2 ^ 2 * x3 ^ 2 * y3 ^ 3
        + d ^ 2 * x1 * y1 ^ 2 * x2 ^ 2 * y2 * x3 ^ 3 * y3 ^ 2
        + d ^ 2 * x1 ^ 2 * y1 * x2 * y2 ^ 2 * x3 ^ 3 * y3 ^ 2
        - d ^ 2 * x1 ^ 2 * y1 * x2 ^ 2 * y2 * x3 ^ 2 * y3 ^ 3) * e2
    + (-y1 * y2 * y3 + y1 * y2 ^ 3 * y3 + y1 * x2 * x3 - y1 * x2 * y2 ^ 2 * x3 + y1 * x2 ^ 2 * y2 * y3
        - y1 * x2 ^ 3 * x3 + y1 ^ 3 * y2 * y3 - y1 ^ 3 * y2 ^ 3 * y3 - y1 ^ 3 * x2 * x3
        + y1 ^ 3 * x2 * y2 ^ 2 * x3 - y1 ^ 3 * x2 ^ 2 * y2 * y3 + y1 ^ 3 * x2 ^ 3 * x3
        + x1 * y2 * x3 - x1 * y2 ^ 3 * x3 + x1 * x2 * y3 - x1 * x2 * y2 ^ 2 * y3
        - x1 * x2 ^ 2 * y2 * x3 - x1 * x2 ^ 3 * y3 - x1 * y1 ^ 2 * y2 * x3
        + x1 * y1 ^ 2 * y2 ^ 3 * x3 - x1 * y1 ^ 2 * x2 * y3 + x1 * y1 ^ 2 * x2 * y2 ^ 2 * y3
        + x1 * y1 ^ 2 * x2 ^ 2 * y2 * x3 + x1 * y1 ^ 2 * x2 ^ 3 * y3 + x1 ^ 2 * y1 * y2 * y3
        - x1 ^ 2 * y1 * y2 ^ 3 * y3 - x1 ^ 2 * y1 * x2 * x3 + x1 ^ 2 * y1 * x2 * y2 ^ 2 * x3
        - x1 ^ 2 * y1 * x2 ^ 2 * y2 * y3 + x1 ^ 2 * y1 * x2 ^ 3 * x3 - x1 ^ 3 * y2 * x3
        + x1 ^ 3 * y2 ^ 3 * x3 - x1 ^ 3 * x2 * y3 + x1 ^ 3 * x2 * y2 ^ 2 * y3
        + x1 ^ 3 * x2 ^ 2 * y2 * x3 + x1 ^ 3 * x2 ^ 3 * y3 - d * x1 * y1 ^ 2 * x2 * y2 ^ 2 * y3
        - d * x1 * y1 ^ 2 * x2 ^ 2 * y2 * x3 - d * x1 ^ 2 * y1 * x2 * y2 ^ 2 * x3
        + d * x1 ^ 2 * y1 * x2 ^ 2 * y2 * y3) * e3


theorem assoc_x_field {d x1 y1 x2 y2 x3 y3 xa ya xb yb xl yl xr yr : F}
    (e1 : x1 ^ 2 + y1 ^ 2 = 1 + d * x1 ^ 2 * y1 ^ 2) (e2 : x2 ^ 2 + y2 ^ 2 = 1 + d * x2 ^ 2 * y2 ^ 2)
    (e3 : x3 ^ 2 + y3 ^ 2 = 1 + d * x3 ^ 2 * y3 ^ 2)
    (d1 : 1 + d * x1 * x2 * y1 * y2 ≠ 0 ∧ 1 - d * x1 * x2 * y1 * y2 ≠ 0)
    (d2 : 1 + d * x2 * x3 * y2 * y3 ≠ 0 ∧ 1 - d * x2 * x3 * y2 * y3 ≠ 0)
    (dl : 1 + d * xa * x3 * ya * y3 ≠ 0 ∧ 1 - d * xa * x3 * ya * y3 ≠ 0)
    (dr : 1 + d * x1 * xb * y1 * yb ≠ 0 ∧ 1 - d * x1 * xb * y1 * yb ≠ 0)
    (c1 : xa * (1 + d * x1 * x2 * y1 * y2) = x1 * y2 + y1 * x2 ∧ ya * (1 - d * x1 * x2 * y1 * y2) = y1 * y2 - x1 * x2)
    (c2 : xb * (1 + d * x2 * x3 * y2 * y3) = x2 * y3 + y2 * x3 ∧ yb * (1 - d * x2 * x3 * y2 * y3) = y2 * y3 - x2 * x3)
    (cl : xl * (1 + d * xa * x3 * ya * y3) = xa * y3 + ya * x3 ∧ yl * (1 - d * xa * x3 * ya * y3) = ya * y3 - xa * x3)
    (cr : xr * (1 + d * x1 * xb * y1 * yb) = x1 * yb + y1 * xb ∧ yr * (1 - d * x1 * xb * y1 * yb) = y1 * yb - x1 * xb) :
    xl = xr := by
  obtain ⟨c1x, c1y⟩ := c1
  obtain ⟨c2x, c2y⟩ := c2
  have key := assoc_x_cleared e1 e2 e3
  rw [← c1x, ← c1y, ← c2x, ← c2y] at key
  have hl := cl.1
  have hr := cr.1
  generalize 1 + d * x1 * x2 * y1 * y2 = p1 at *
  generalize 1 - d * x1 * x2 * y1 * y2 = m1 at *
  generalize 1 + d * x2 * x3 * y2 * y3 = p2 at *
  generalize 1 - d * x2 * x3 * y2 * y3 = m2 at *
  have key2 : (p1 * m1 * p2 * m2 * (1 + d * xa * x3 * ya * y3) * (1 + d * x1 * xb * y1 * yb)) * xl
      = (p1 * m1 * p2 * m2 * (1 + d * xa * x3 * ya * y3) * (1 + d * x1 * xb * y1 * yb)) * xr := by
    linear_combination key + p1 * m1 * p2 * m2 * (1 + d * x1 * xb * y1 * yb) * hl
      - p1 * m1 * p2 * m2 * (1 + d * xa * x3 * ya * y3) * hr
  exact mul_left_cancel₀ (mul_ne_zero (mul_ne_zero (mul_ne_zero (mul_ne_zero (mul_ne_zero d1.1 d1.2) d2.1) d2.2)
    dl.1) dr.1) key2

theorem assoc_y_field {d x1 y1 x2 y2 x3 y3 xa ya xb yb xl yl xr yr : F}
    (e1 : x1 ^ 2 + y1 ^ 2 = 1 + d * x1 ^ 2 * y1 ^ 2) (e2 : x2 ^ 2 + y2 ^ 2 = 1 + d * x2 ^ 2 * y2 ^ 2)
    (e3 : x3 ^ 2 + y3 ^ 2 = 1 + d * x3 ^ 2 * y3 ^ 2)
    (d1 : 1 + d * x1 * x2 * y1 * y2 ≠ 0 ∧ 1 - d * x1 * x2 * y1 * y2 ≠ 0)
    (d2 : 1 + d * x2 * x3 * y2 * y3 ≠ 0 ∧ 1 - d * x2 * x3 * y2 * y3 ≠ 0)
    (dl : 1 + d * xa * x3 * ya * y3 ≠ 0 ∧ 1 - d * xa * x3 * ya * y3 ≠ 0)
    (dr : 1 + d * x1 * xb * y1 * yb ≠ 0 ∧ 1 - d * x1 * xb * y1 * yb ≠ 0)
    (c1 : xa * (1 + d * x1 * x2 * y1 * y2) = x1 * y2 + y1 * x2 ∧ ya * (1 - d * x1 * x2 * y1 * y2) = y1 * y2 - x1 * x2)
    (c2 : xb * (1 + d * x2 * x3 * y2 * y3) = x2 * y3 + y2 * x3 ∧ yb * (1 - d * x2 * x3 * y2 * y3) = y2 * y3 - x2 * x3)
    (cl : xl * (1 + d * xa * x3 * ya * y3) = xa * y3 + ya * x3 ∧ yl * (1 - d * xa * x3 * ya * y3) = ya * y3 - xa * x3)
    (cr : xr * (1 + d * x1 * xb * y1 * yb) = x1 * yb + y1 * xb ∧ yr * (1 - d * x1 * xb * y1 * yb) = y1 * yb - x1 * xb) :
    yl = yr := by
  obtain ⟨c1x, c1y⟩ := c1
  obtain ⟨c2x, c2y⟩ := c2
  have key := assoc_y_cleared e1 e2 e3
  rw [← c1x, ← c1y, ← c2x, ← c2y] at key
  have hl := cl.2
  have hr := cr.2
  generalize 1 + d * x1 * x2 * y1 * y2 = p1 at *
  generalize 1 - d * x1 * x2 * y1 * y2 = m1 at *
  generalize 1 + d * x2 * x3 * y2 * y3 = p2 at *
  generalize 1 - d * x2 * x3 * y2 * y3 = m2 at *
  have key2 : (p1 * m1 * p2 * m2 * (1 - d * xa * x3 * ya * y3) * (1 - d * x1 * xb * y1 * yb)) * yl
      = (p1 * m1 * p2 * m2 * (1 - d * xa * x3 * ya * y3) * (1 - d * x1 * xb * y1 * yb)) * yr := by
    linear_combination key + p1 * m1 * p2 * m2 * (1 - d * x1 * xb * y1 * yb) * hl
      - p1 * m1 * p2 * m2 * (1 - d * xa * x3 * ya * y3) * hr
  exact mul_left_cancel₀ (mul_ne_zero (mul_ne_zero (mul_ne_zero (mul_ne_zero (mul_ne_zero d1.1 d1.2) d2.1) d2.2)
    dl.2) dr.2) key2

end field

/-! ### The group laws -/

section group
variable {c : Curve} (hc : CurveComplete c)
include hc

/-- A value in normal form is determined by the residues of its coordinates. -/
theorem Point.wf.ext_cast {T U : Point} (hT : T.wf c) (hU : U.wf c) (hx : (T.x : ZMod c.P) = U.x)
    (hy : (T.y : ZMod c.P) = U.y) : T = U := by
  have h1 := (onCurve_iff hc.prime.one_lt T).1 hT.1
  have h2 := (onCurve_iff hc.prime.one_lt U).1 hU.1
  rw [ZMod.intCast_eq_intCast_iff] at hx hy
  refine Point.ext_coords hT.2 hU.2 ?_ ?_
  · have := hx.eq
    rwa [Int.emod_eq_of_lt h1.1.1 h1.1.2, Int.emod_eq_of_lt h2.1.1 h2.1.2] at this
  · have := hy.eq
    rwa [Int.emod_eq_of_lt h1.2.1.1 h1.2.1.2, Int.emod_eq_of_lt h2.2.1.1 h2.2.1.2] at this

/-- R246 (b): associativity. -/
theorem padd_assoc {T U V : Point} (hT : T.wf c) (hU : U.wf c) (hV : V.wf c) :
    padd c (padd c T U) V = padd c T (padd c U V) := by
  have := Fact.mk hc.prime
  have w1 := padd_wf hc hT.1 hU.1
  have w2 := padd_wf hc hU.1 hV.1
  have e1 := ((onCurve_iff hc.prime.one_lt T).1 hT.1).2.2
  have e2 := ((onCurve_iff hc.prime.one_lt U).1 hU.1).2.2
  have e3 := ((onCurve_iff hc.prime.one_lt V).1 hV.1).2.2
  have c1 := padd_coords hc hT.1 hU.1
  have c2 := padd_coords hc hU.1 hV.1
  have cl := padd_coords hc w1.1 hV.1
  have cr := padd_coords hc hT.1 w2.1
  have d1 := denominators_ne_zero hc hT.1 hU.1
  have d2 := denominators_ne_zero hc hU.1 hV.1
  have dl := denominators_ne_zero hc w1.1 hV.1
  have dr := denominators_ne_zero hc hT.1 w2.1
  refine Point.wf.ext_cast hc (padd_wf hc w1.1 hV.1) (padd_wf hc hT.1 w2.1) ?_ ?_
  · exact assoc_x_field e1 e2 e3 d1 d2 dl dr c1 c2 cl cr
  · exact assoc_y_field e1 e2 e3 d1 d2 dl dr c1 c2 cl cr

omit hc in
/-- R246 (b): the order of the operands does not matter. -/
theorem padd_comm (T U : Point) : padd c T U = padd c U T := by
  unfold padd
  ring_nf

omit hc in
theorem identity_wf : Point.wf c .identity := ⟨rfl, by simp⟩

/-- R246 (b): `Identity` is neutral. -/
theorem padd_identity {T : Point} (hT : T.wf c) : padd c T .identity = T := by
  have h := padd_coords hc hT.1 (U := .identity) rfl
  refine Point.wf.ext_cast hc (padd_wf hc hT.1 rfl) hT ?_ ?_
  · simpa [Point.x, Point.y] using h.1
  · simpa [Point.x, Point.y] using h.2

/-- R246 (b): the negative is the inverse. -/
theorem padd_pneg {T : Point} (hT : T.wf c) : padd c T (pneg c T) = .identity := by
  have := Fact.mk hc.prime
  have wn := pneg_wf hc hT.1
  have h := padd_coords hc hT.1 wn.1
  have d := denominators_ne_zero hc hT.1 wn.1
  have e := ((onCurve_iff hc.prime.one_lt T).1 hT.1).2.2
  have hx : ((pneg c T).x : ZMod c.P) = -T.x := by
    cases T with
    | identity => simp [pneg, Point.x]
    | affine x y => simp only [pneg, norm_x, ZMod.intCast_mod]; simp [Point.x]
  have hy : (pneg c T).y = T.y := by
    cases T with
    | identity => rfl
    | affine x y => simp only [pneg, norm_y]; rfl
  rw [hy, hx] at h d
  refine Point.wf.ext_cast hc (padd_wf hc hT.1 wn.1) identity_wf ?_ ?_
  · apply mul_right_cancel₀ d.1
    rw [h.1]
    rw [show Point.identity.x = 0 from rfl]
    push_cast
    ring
  · apply mul_right_cancel₀ d.2
    rw [h.2]
    rw [show Point.identity.y = 1 from rfl]
    push_cast
    linear_combination e

theorem identity_padd {T : Point} (hT : T.wf c) : padd c .identity T = T := by rw [padd_comm, padd_identity hc hT]

/-- Only the negative adds up to `Identity`. -/
theorem eq_pneg_of_padd {T U : Point} (hT : T.wf c) (hU : U.wf c) (h : padd c T U = .identity) : U = pneg c T := by
  have hn := pneg_wf hc hT.1
  rw [← identity_padd hc hU, ← padd_pneg hc hT, padd_comm T, padd_assoc hc hn hT hU, h, padd_identity hc hn]

/-! ### Repeated addition -/

omit hc in
/-- T added k times: the defining recursion of `smul` (R234). -/
def times (c : Curve) (T : Point) : Nat → Point
  | 0 => .identity
  | k + 1 => padd c (times c T k) T

theorem times_wf {T : Point} (hT : T.wf c) (k : Nat) : (times c T k).wf c := by
  induction k with
  | zero => exact identity_wf
  | succ k ih => exact padd_wf hc ih.1 hT.1

theorem times_add {T : Point} (hT : T.wf c) (j k : Nat) : times c T (j + k) = padd c (times c T j) (times c T k) := by
  induction k with
  | zero => exact (padd_identity hc (times_wf hc hT j)).symm
  | succ k ih => rw [← Nat.add_assoc, times, ih, times, padd_assoc hc (times_wf hc hT j) (times_wf hc hT k) hT]

/-- The scan over the bits gives the same value as repeated addition (R234). -/
theorem smulNat_eq_times {T : Point} (hT : T.wf c) (k : Nat) : smulNat c T k = times c T k := by
  induction k using Nat.strongRecOn with
  | ind k ih =>
    rcases Nat.eq_zero_or_pos k with rfl | hk
    · rfl
    · obtain ⟨q, b, rfl⟩ : ∃ (q : Nat) (b : Bool), k = 2 * q + b.toNat :=
        ⟨k / 2, decide (k % 2 = 1), by by_cases h : k % 2 = 1 <;> simp [h] <;> omega⟩
      rw [smulNat_bit c T (by omega), ih q (by omega)]
      simp only
      rw [← times_add hc hT]
      cases b
      · simp; congr 1; omega
      · simp; rw [show 2 * q + 1 = (q + q) + 1 by omega]; rfl

/-- The multiples of the negative are the negatives of the multiples. -/
theorem times_pneg {T : Point} (hT : T.wf c) (k : Nat) : times c (pneg c T) k = pneg c (times c T k) := by
  have hn := pneg_wf hc hT.1
  apply eq_pneg_of_padd hc (times_wf hc hT k) (times_wf hc hn k)
  induction k with
  | zero => exact padd_identity hc identity_wf
  | succ k ih =>
    have w1 := times_wf hc hT k
    have w2 := times_wf hc hn k
    rw [times, times, padd_comm (times c (pneg c T) k), padd_assoc hc w1 hT (padd_wf hc hn.1 w2.1),
      ← padd_assoc hc hT hn w2, padd_pneg hc hT, identity_padd hc w2, ih]

end group

end Sys2Proof.Machine
end

