-- ==== Sys2Proof/Laws/Keccak.lean ====
section
/-! SUPPORT. The laws of the permutation state: lanes, step mappings, and the byte view (10_state.md R22,
40_permutation.md R121 to R128). -/

namespace Sys2Proof.Machine

@[simp] theorem Five.get_ofFn {α : Type} (f : Fin 5 → α) (i : Fin 5) : (Five.ofFn f).get i = f i := by
  fin_cases i <;> rfl

/-- Two columns with the same five elements are equal. -/
theorem Five.ext_get {α : Type} {u v : Five α} (h : ∀ i, u.get i = v.get i) : u = v := by
  obtain ⟨a0, a1, a2, a3, a4⟩ := u
  obtain ⟨b0, b1, b2, b3, b4⟩ := v
  have h0 := h 0
  have h1 := h 1
  have h2 := h 2
  have h3 := h 3
  have h4 := h 4
  simp only [Five.get] at h0 h1 h2 h3 h4
  rw [h0, h1, h2, h3, h4]

@[simp] theorem KState.lane_ofLanes (f : Fin 5 → Fin 5 → Lane) (x y : Fin 5) : (KState.ofLanes f).lane x y = f x y := by
  simp [KState.lane, KState.ofLanes]

/-- Two states with the same 25 lanes are equal. -/
theorem KState.ext_lane {A B : KState} (h : ∀ x y, A.lane x y = B.lane x y) : A = B :=
  Five.ext_get fun x => Five.ext_get fun y => h x y

@[simp] theorem KState.lane_zero (x y : Fin 5) : KState.zero.lane x y = 0 := by
  fin_cases x <;> fin_cases y <;> rfl

/-! ### The step mappings, lane by lane -/

/-- The column parity of column x (R122). -/
theorem columnParity_get (A : KState) (x : Fin 5) :
    (columnParity A).get x = A.lane x 0 ^^^ A.lane x 1 ^^^ A.lane x 2 ^^^ A.lane x 3 ^^^ A.lane x 4 := by
  simp [columnParity]

theorem lane_theta (A : KState) (x y : Fin 5) :
    (theta A).lane x y
      = A.lane x y ^^^ ((columnParity A).get (x + 4) ^^^ ((columnParity A).get (x + 1)).rotateLeft 1) := by
  simp [theta, thetaEffect]

theorem lane_rho (A : KState) (x y : Fin 5) : (rho A).lane x y = (A.lane x y).rotateLeft (rhoOffset x y) := by
  simp [rho]

theorem lane_pi (A : KState) (x y : Fin 5) : (pi A).lane x y = A.lane (x + 3 * y) x := by simp [pi]

theorem lane_chi (A : KState) (x y : Fin 5) :
    (chi A).lane x y = A.lane x y ^^^ (~~~(A.lane (x + 1) y) &&& A.lane (x + 2) y) := by simp [chi]

theorem lane_iota (A : KState) (rc : Lane) (x y : Fin 5) :
    (iota A rc).lane x y = if x = 0 ∧ y = 0 then A.lane x y ^^^ rc else A.lane x y := by simp [iota]

/-! ### The byte view -/

@[simp] theorem length_laneBytes (v : Lane) : (laneBytes v).length = 8 := rfl

@[simp] theorem KState.length_toBytes (A : KState) : A.toBytes.length = 200 := by
  simp [KState.toBytes, lanePositions]

/-- Byte j of a lane is bits 8j+7 .. 8j (R22). -/
theorem getD_laneBytes (v : Lane) (j : Fin 8) : (laneBytes v).getD j.val 0 = v.extractLsb' (8 * j.val) 8 := by
  fin_cases j <;> rfl

/-- Bit i of the lane that eight bytes make is bit i mod 8 of byte i div 8 (R22). -/
theorem getLsbD_laneOfBytes (bs : Bytes) {i : Nat} (hi : i < 64) :
    (laneOfBytes bs).getLsbD i = (bs.getD (i / 8) 0).getLsbD (i % 8) := by
  unfold laneOfBytes
  have h : i / 8 < 8 := by omega
  obtain ⟨q, r, hr, rfl⟩ : ∃ q r, r < 8 ∧ i = 8 * q + r := ⟨i / 8, i % 8, by omega, by omega⟩
  have e1 : (8 * q + r) / 8 = q := by omega
  have e2 : (8 * q + r) % 8 = r := by omega
  rw [e1, e2]
  have hq : q < 8 := by omega
  simp only [BitVec.getLsbD_append]
  interval_cases q <;> simp <;> (repeat' split) <;> first | rfl | omega | (congr 1; omega)

/-- Byte j of the lane that eight bytes make is the j-th of them. -/
theorem extractLsb'_laneOfBytes (bs : Bytes) (j : Fin 8) :
    (laneOfBytes bs).extractLsb' (8 * j.val) 8 = bs.getD j.val 0 := by
  apply BitVec.eq_of_getLsbD_eq
  intro i hi
  have := j.isLt
  rw [BitVec.getLsbD_extractLsb', getLsbD_laneOfBytes bs (by omega)]
  have e1 : (8 * j.val + i) / 8 = j.val := by omega
  have e2 : (8 * j.val + i) % 8 = i := by omega
  simp [hi, e1, e2]

/-- Two lanes with the same eight bytes are equal. -/
theorem Lane.ext_bytes {v w : Lane} (h : ∀ j : Fin 8, v.extractLsb' (8 * j.val) 8 = w.extractLsb' (8 * j.val) 8) :
    v = w := by
  apply BitVec.eq_of_getLsbD_eq
  intro i hi
  have := congrArg (fun b : Byte => b.getLsbD (i % 8)) (h ⟨i / 8, by omega⟩)
  simp only [BitVec.getLsbD_extractLsb'] at this
  have e : 8 * (i / 8) + i % 8 = i := by omega
  have hm : i % 8 < 8 := by omega
  simpa [e, hm] using this

/-- R22: `S[8*(5*y + x) + j]` is byte j of `A[x][y]`. -/
theorem KState.getD_toBytes (A : KState) (x y : Fin 5) (j : Fin 8) :
    A.toBytes.getD (8 * (5 * y.val + x.val) + j.val) 0 = (A.lane x y).extractLsb' (8 * j.val) 8 := by
  rw [← getD_laneBytes]
  fin_cases y <;> fin_cases x <;> fin_cases j <;> rfl

/-- R22, the other way: byte j of lane (x, y) is the byte at 8(5y + x) + j. -/
theorem KState.extractLsb'_ofBytes (bs : Bytes) (x y : Fin 5) (j : Fin 8) :
    ((KState.ofBytes bs).lane x y).extractLsb' (8 * j.val) 8 = bs.getD (8 * (5 * y.val + x.val) + j.val) 0 := by
  simp only [KState.ofBytes, KState.lane_ofLanes]
  rw [extractLsb'_laneOfBytes]
  simp [List.getD_eq_getElem?_getD, List.getElem?_drop]

/-- Every index of the byte view is one byte of one lane. -/
theorem byteIndex {k : Nat} (hk : k < 200) :
    ∃ (x y : Fin 5) (j : Fin 8), k = 8 * (5 * y.val + x.val) + j.val :=
  ⟨⟨k / 8 % 5, by omega⟩, ⟨k / 40, by omega⟩, ⟨k % 8, by omega⟩, by simp only; omega⟩

/-- Two byte lists of one length that agree at every index are equal. -/
theorem Bytes.ext_getD {s t : Bytes} (hl : s.length = t.length) (h : ∀ k < s.length, s.getD k 0 = t.getD k 0) :
    s = t := by
  apply List.ext_getElem hl
  intro k h1 h2
  have := h k h1
  rwa [List.getD_eq_getElem _ _ h1, List.getD_eq_getElem _ _ h2] at this

/-- Reading back the bytes a state was made of (KLD, then KST). -/
theorem KState.toBytes_ofBytes {bs : Bytes} (h : bs.length = 200) : (KState.ofBytes bs).toBytes = bs := by
  apply Bytes.ext_getD (by simp [h])
  intro k hk
  obtain ⟨x, y, j, rfl⟩ := byteIndex (by simpa using hk)
  rw [KState.getD_toBytes, KState.extractLsb'_ofBytes]

/-- The state made of a state's own bytes (KST, then KLD). -/
@[simp] theorem KState.ofBytes_toBytes (A : KState) : KState.ofBytes A.toBytes = A :=
  KState.ext_lane fun x y => Lane.ext_bytes fun j => by
    rw [KState.extractLsb'_ofBytes, KState.getD_toBytes]

/-! ### A block XORed into the front -/

@[simp] theorem length_xorPrefix (s blk : Bytes) : (xorPrefix s blk).length = s.length := by
  induction s generalizing blk with
  | nil => cases blk <;> rfl
  | cons a s ih => cases blk <;> simp [xorPrefix, ih]

/-- Bytewise: `S[k] ^ blk[k]` where the block reaches, `S[k]` after. -/
theorem getD_xorPrefix (s blk : Bytes) {k : Nat} (hk : k < s.length) :
    (xorPrefix s blk).getD k 0 = s.getD k 0 ^^^ blk.getD k 0 := by
  induction s generalizing blk k with
  | nil => simp at hk
  | cons a s ih =>
    cases blk with
    | nil => simp [xorPrefix]
    | cons b blk =>
      cases k with
      | zero => simp [xorPrefix]
      | succ k => simpa [xorPrefix] using ih blk (by simpa using hk)

/-- R154: XORing a block changes byte k of the state by byte k of the block (0 past its end), and no other byte. -/
theorem KState.getD_toBytes_xorBlock (A : KState) (blk : Bytes) {k : Nat} (hk : k < 200) :
    (A.xorBlock blk).toBytes.getD k 0 = A.toBytes.getD k 0 ^^^ blk.getD k 0 := by
  rw [KState.xorBlock, KState.toBytes_ofBytes (by simp), getD_xorPrefix _ _ (by simpa using hk)]

end Sys2Proof.Machine
end

