-- ==== Sys2Proof/Laws/Sponge.lean ====
section
/-! SUPPORT. The laws of the sponge: what ABSORB, FINAL and SQUEEZE do in closed form, the sponge as a function, and the
invariant of the context (41_sponge.md R151 to R159, 10_state.md R23). -/

namespace Sys2Proof.Machine

theorem Rate.bytes_pos (r : Rate) : 0 < r.bytes := by cases r <;> decide

theorem Rate.bytes_le (r : Rate) : r.bytes ≤ 144 := by cases r <;> decide

/-! ### Absorbing -/

/-- One block absorbed: XOR, then permute (R154). -/
abbrev absorbBlock (A : KState) (blk : Bytes) : KState := keccakP (A.xorBlock blk)

/-- The first k blocks of `rb` bytes of a byte string. -/
def blockList (rb k : Nat) (m : Bytes) : List Bytes := (List.range k).map fun i => (m.drop (i * rb)).take rb

theorem blockList_succ (rb k : Nat) (m : Bytes) :
    blockList rb (k + 1) m = m.take rb :: blockList rb k (m.drop rb) := by
  simp only [blockList, List.range_succ_eq_map, List.map_cons, List.map_map, Nat.zero_mul, List.drop_zero]
  congr 1
  apply List.map_congr_left
  intro i _
  simp [List.drop_drop, Nat.succ_mul, Nat.add_comm]

/-- The block loop in closed form: the whole blocks of the pending bytes are absorbed, the rest stays pending. -/
theorem absorbLoop_eq {rb : Nat} (hrb : 0 < rb) (fuel : Nat) (A : KState) (m : Bytes) (hf : m.length / rb ≤ fuel) :
    absorbLoop rb fuel A m
      = ((blockList rb (m.length / rb) m).foldl absorbBlock A, m.drop (m.length / rb * rb)) := by
  induction fuel generalizing A m with
  | zero =>
    have : m.length / rb = 0 := Nat.le_zero.1 hf
    simp [absorbLoop, this, blockList]
  | succ fuel ih =>
    rw [absorbLoop]
    split
    · next h =>
      have hd : m.length / rb = (m.length - rb) / rb + 1 := by
        rw [← Nat.sub_add_cancel h, Nat.add_div_right _ hrb]; simp
      have hlen : (m.drop rb).length / rb = m.length / rb - 1 := by simp [hd]
      rw [ih _ _ (by omega), hlen]
      obtain ⟨k, hk⟩ : ∃ k, m.length / rb = k + 1 := ⟨_, hd⟩
      rw [hk, Nat.add_sub_cancel, blockList_succ, List.foldl_cons, List.drop_drop, Nat.succ_mul, Nat.add_comm rb]
    · next h =>
      have : m.length / rb = 0 := Nat.div_eq_of_lt (by omega)
      simp [this, blockList]

/-- ABSORB on the sponge, in closed form (R154). -/
theorem Sponge.absorb_eq (sp : Sponge) (m : Bytes) :
    sp.absorb m =
      let data := sp.buf ++ m
      let k := data.length / sp.rate.bytes
      { sp with A := (blockList sp.rate.bytes k data).foldl absorbBlock sp.A, buf := data.drop (k * sp.rate.bytes) } := by
  simp only [Sponge.absorb]
  rw [absorbLoop_eq sp.rate.bytes_pos _ _ _ (Nat.div_le_self _ _)]

theorem Sponge.absorb_rate (sp : Sponge) (m : Bytes) : (sp.absorb m).rate = sp.rate := rfl

/-- After ABSORB less than a block is pending (R154 (b)). -/
theorem Sponge.absorb_buf_lt (sp : Sponge) (m : Bytes) : (sp.absorb m).buf.length < sp.rate.bytes := by
  rw [Sponge.absorb_eq]
  simp only [List.length_drop]
  have := sp.rate.bytes_pos
  have := Nat.mod_lt (sp.buf ++ m).length this
  have := Nat.div_add_mod (sp.buf ++ m).length sp.rate.bytes
  rw [Nat.mul_comm] at this
  omega

theorem blockList_append_left {rb k : Nat} {m : Bytes} (n : Bytes) (h : k * rb ≤ m.length) :
    blockList rb k (m ++ n) = blockList rb k m := by
  apply List.map_congr_left
  intro i hi
  have hi : i + 1 ≤ k := List.mem_range.1 hi
  have : (i + 1) * rb ≤ k * rb := Nat.mul_le_mul_right _ hi
  rw [Nat.succ_mul] at this
  rw [List.drop_append_of_le_length (by omega), List.take_append_of_le_length]
  simp only [List.length_drop]
  omega

theorem blockList_add (rb j k : Nat) (m : Bytes) :
    blockList rb (j + k) m = blockList rb j m ++ blockList rb k (m.drop (j * rb)) := by
  simp only [blockList, List.range_add, List.map_append, List.map_map]
  congr 1
  apply List.map_congr_left
  intro i _
  simp [List.drop_drop, Nat.add_mul]

/-- Absorbing piece after piece is absorbing the pieces at once (R159 (a)). -/
theorem Sponge.absorb_absorb (sp : Sponge) (m n : Bytes) : (sp.absorb m).absorb n = sp.absorb (m ++ n) := by
  have hrb := sp.rate.bytes_pos
  rw [Sponge.absorb_eq (sp.absorb m) n, Sponge.absorb_rate, Sponge.absorb_eq sp m, Sponge.absorb_eq sp (m ++ n)]
  simp only
  generalize sp.rate.bytes = rb at hrb
  rw [← List.append_assoc]
  generalize sp.buf ++ m = u
  have hu : u.length / rb * rb ≤ u.length := Nat.div_mul_le_self _ _
  generalize hj : u.length / rb = j at hu
  have hdrop : u.drop (j * rb) ++ n = (u ++ n).drop (j * rb) := (List.drop_append_of_le_length hu).symm
  rw [hdrop]
  have hk : (u ++ n).length / rb = j + ((u ++ n).drop (j * rb)).length / rb := by
    rw [List.length_drop]
    have : (u ++ n).length = ((u ++ n).length - j * rb) + rb * j := by
      rw [List.length_append, Nat.mul_comm rb]; omega
    conv_lhs => rw [this]
    rw [Nat.add_mul_div_left _ _ hrb, Nat.add_comm]
  rw [hk, blockList_add, List.foldl_append, blockList_append_left n hu, List.drop_drop, Nat.add_mul]

theorem Sponge.absorb_nil {sp : Sponge} (h : sp.buf.length < sp.rate.bytes) : sp.absorb [] = sp := by
  rw [Sponge.absorb_eq]
  have : sp.buf.length / sp.rate.bytes = 0 := Nat.div_eq_of_lt h
  simp [this, blockList]

/-- Absorbing a list of pieces, one after another. -/
theorem Sponge.foldl_absorb {sp : Sponge} (h : sp.buf.length < sp.rate.bytes) (ms : List Bytes) :
    ms.foldl Sponge.absorb sp = sp.absorb ms.flatten := by
  induction ms generalizing sp with
  | nil => simp [Sponge.absorb_nil h]
  | cons m ms ih =>
    rw [List.foldl_cons, ih (by rw [Sponge.absorb_rate]; exact sp.absorb_buf_lt m), Sponge.absorb_absorb,
      List.flatten_cons]

/-! ### Padding -/

@[simp] theorem length_padBlock {buf : Bytes} {rb : Nat} (sfx : Byte) (h : buf.length < rb) :
    (padBlock buf sfx rb).length = rb := by
  simp [padBlock]; omega

/-- R151, byte by byte: the pending byte, the suffix at the first free position, 0x80 at the last position of the
block. -/
theorem getD_padBlock {buf : Bytes} {rb : Nat} (sfx : Byte) (h : buf.length < rb) {j : Nat} (hj : j < rb) :
    (padBlock buf sfx rb).getD j 0
      = buf.getD j 0 ^^^ (if j = buf.length then sfx else 0) ^^^ (if j = rb - 1 then 0x80 else 0) := by
  have hbase : (buf ++ List.replicate (rb - buf.length) (0 : Byte)).getD j 0 = buf.getD j 0 := by
    simp only [List.getD_eq_getElem?_getD]
    rcases Nat.lt_or_ge j buf.length with hlt | hge
    · rw [List.getElem?_append_left hlt]
    · rw [List.getElem?_append_right hge, List.getElem?_replicate, if_pos (by omega), List.getElem?_eq_none hge]
      rfl
  have hlen : (buf ++ List.replicate (rb - buf.length) (0 : Byte)).length = rb := by simp; omega
  have hget : (buf ++ List.replicate (rb - buf.length) (0 : Byte))[j]? = some (buf.getD j 0) := by
    rw [List.getD_eq_getElem?_getD, List.getElem?_eq_getElem (by omega)] at hbase
    rw [List.getElem?_eq_getElem (by omega)]
    simpa using hbase
  simp only [padBlock, List.getD_eq_getElem?_getD, List.getElem?_modify, hget]
  simp only [eq_comm (a := j)]
  split <;> split <;> simp

/-- A block is determined by its length and its bytes: the padded last block is the one of R151. -/
theorem padBlock_unique {buf blk : Bytes} {rb : Nat} {sfx : Byte} (h : buf.length < rb) (hl : blk.length = rb)
    (hb : ∀ j < rb, blk.getD j 0
      = buf.getD j 0 ^^^ (if j = buf.length then sfx else 0) ^^^ (if j = rb - 1 then 0x80 else 0)) :
    blk = padBlock buf sfx rb := by
  apply Bytes.ext_getD (by rw [hl, length_padBlock sfx h])
  intro k hk
  rw [hb k (by omega), getD_padBlock sfx h (by omega)]

/-! ### Squeezing -/

/-- Byte q of the output stream that starts at the state `A`: the block is q / rb permutations on (R156). -/
def streamByte (rb : Nat) (A : KState) (q : Nat) : Byte := ((keccakP^[q / rb]) A).toBytes.getD (q % rb) 0

/-- The n bytes of the output stream from position q on. -/
def streamBytes (rb : Nat) (A : KState) (q n : Nat) : Bytes := (List.range n).map fun j => streamByte rb A (q + j)

@[simp] theorem length_streamBytes (rb : Nat) (A : KState) (q n : Nat) : (streamBytes rb A q n).length = n := by
  simp [streamBytes]

theorem getD_streamBytes (rb : Nat) (A : KState) (q : Nat) {n j : Nat} (h : j < n) :
    (streamBytes rb A q n).getD j 0 = streamByte rb A (q + j) := by
  simp [streamBytes, h]

theorem streamBytes_add (rb : Nat) (A : KState) (q m n : Nat) :
    streamBytes rb A q (m + n) = streamBytes rb A q m ++ streamBytes rb A (q + m) n := by
  simp [streamBytes, List.range_add, Nat.add_assoc]

theorem streamByte_keccakP {rb : Nat} (hrb : 0 < rb) (A : KState) (q : Nat) :
    streamByte rb (keccakP A) q = streamByte rb A (rb + q) := by
  simp only [streamByte, Nat.add_div_left _ hrb, Nat.add_mod_left, Function.iterate_succ_apply]

theorem streamBytes_keccakP {rb : Nat} (hrb : 0 < rb) (A : KState) (q n : Nat) :
    streamBytes rb (keccakP A) q n = streamBytes rb A (rb + q) n := by
  simp only [streamBytes, streamByte_keccakP hrb, Nat.add_assoc]

/-- Inside the current block the stream is the state's own bytes. -/
theorem take_drop_toBytes {rb pos t : Nat} (A : KState) (hrb : rb ≤ 200) (h : pos + t ≤ rb) :
    (A.toBytes.drop pos).take t = streamBytes rb A pos t := by
  apply Bytes.ext_getD
  · simp; omega
  · intro k hk
    have hk : k < t := by simp at hk; omega
    rw [getD_streamBytes _ _ _ hk, streamByte, Nat.div_eq_of_lt (by omega), Nat.mod_eq_of_lt (by omega)]
    simp [hk, List.getElem?_drop]

/-- The state after n bytes have been taken at position `pos`: as many permutations as blocks were entered. -/
def squeezedState (rb : Nat) (A : KState) (pos n : Nat) : KState :=
  if n = 0 then A else (keccakP^[(pos + n - 1) / rb]) A

/-- `SQPOS` after n bytes have been taken at position `pos`. -/
def squeezedPos (rb pos n : Nat) : Nat := if n = 0 then pos else (pos + n - 1) % rb + 1

/-- The loop of SQUEEZE in closed form (R156). -/
theorem squeezeLoop_eq {rb : Nat} (hrb : 0 < rb) (hrb2 : rb ≤ 200) (fuel n : Nat) (A : KState) (pos : Nat) (out : Bytes)
    (hf : n ≤ fuel) (hpos : pos ≤ rb) :
    squeezeLoop rb fuel n A pos out
      = (squeezedState rb A pos n, squeezedPos rb pos n, out ++ streamBytes rb A pos n) := by
  induction fuel generalizing n A pos out with
  | zero =>
    obtain rfl : n = 0 := by omega
    simp [squeezeLoop, squeezedState, squeezedPos, streamBytes]
  | succ fuel ih =>
    rw [squeezeLoop]
    split
    · next h => simp [h, squeezedState, squeezedPos, streamBytes]
    · next hn =>
      -- reduce to a position inside the block
      suffices key : ∀ (B : KState) (p : Nat), p < rb →
          squeezeLoop rb fuel (n - min n (rb - p)) B (p + min n (rb - p))
              (out ++ (B.toBytes.drop p).take (min n (rb - p)))
            = ((keccakP^[(p + n - 1) / rb]) B, (p + n - 1) % rb + 1, out ++ streamBytes rb B p n) by
        rcases Nat.lt_or_ge pos rb with h | h
        · have : pos ≠ rb := by omega
          simp only [this, if_false]
          rw [key A pos h]
          simp [squeezedState, squeezedPos, hn]
        · obtain rfl : pos = rb := by omega
          simp only [if_true]
          rw [key (keccakP A) 0 hrb]
          have e : pos + n - 1 = pos + (0 + n - 1) := by omega
          simp only [squeezedState, squeezedPos, hn, if_false]
          rw [e, Nat.add_div_left _ hrb, Nat.add_mod_left, Function.iterate_succ_apply, streamBytes_keccakP hrb]
          simp only [Nat.add_zero]
      intro B p hp
      generalize ht : min n (rb - p) = t
      have ht1 : p + t ≤ rb := by omega
      have ht2 : t ≤ n := by omega
      rw [ih (n - t) B (p + t) _ (by omega) ht1, take_drop_toBytes B hrb2 ht1]
      have hout : streamBytes rb B p t ++ streamBytes rb B (p + t) (n - t) = streamBytes rb B p n := by
        rw [← streamBytes_add]; congr 1; omega
      rw [List.append_assoc, hout]
      by_cases h0 : n - t = 0
      · obtain rfl : t = n := by omega
        have e1 : (p + t - 1) / rb = 0 := Nat.div_eq_of_lt (by omega)
        have e2 : (p + t - 1) % rb = p + t - 1 := Nat.mod_eq_of_lt (by omega)
        simp only [squeezedState, squeezedPos, h0, if_true, e1, e2, Function.iterate_zero, id]
        congr 2; omega
      · have e : p + t + (n - t) - 1 = p + n - 1 := by omega
        simp [squeezedState, squeezedPos, h0, e]

theorem Sponge.squeeze_eq {sp : Sponge} (h : sp.sqpos ≤ sp.rate.bytes) (n : Nat) :
    sp.squeeze n
      = (streamBytes sp.rate.bytes sp.A sp.sqpos n,
         { sp with A := squeezedState sp.rate.bytes sp.A sp.sqpos n, sqpos := squeezedPos sp.rate.bytes sp.sqpos n }) := by
  have := sp.rate.bytes_le
  simp only [Sponge.squeeze]
  rw [squeezeLoop_eq sp.rate.bytes_pos (by omega) n n sp.A sp.sqpos [] (le_refl n) h]
  simp

theorem squeezedPos_le {rb : Nat} (hrb : 0 < rb) {pos : Nat} (h : pos ≤ rb) (n : Nat) : squeezedPos rb pos n ≤ rb := by
  unfold squeezedPos
  have := Nat.mod_lt (pos + n - 1) hrb
  split <;> omega

/-! ### The sponge as a function -/

theorem blocks_eq {rb : Nat} (hrb : 0 < rb) (fuel k : Nat) (m : Bytes) (hm : m.length = k * rb) (hk : k ≤ fuel) :
    blocks rb fuel m = blockList rb k m := by
  induction fuel generalizing k m with
  | zero =>
    obtain rfl : k = 0 := by omega
    rfl
  | succ fuel ih =>
    rw [blocks]
    cases k with
    | zero =>
      have : m = [] := List.eq_nil_of_length_eq_zero (by simpa using hm)
      simp [this, blockList]
    | succ k =>
      have hne : m ≠ [] := by
        rintro rfl
        rw [Nat.succ_mul] at hm
        simp at hm
        omega
      rw [if_neg hne, blockList_succ, ih k (m.drop rb) (by rw [List.length_drop, hm, Nat.succ_mul]; omega) (by omega)]

theorem outputLoop_eq {rb n : Nat} (hrb : 0 < rb) (hrb2 : rb ≤ 200) (fuel k : Nat) (T : KState)
    (hf : n ≤ rb * (k + 1) + rb * fuel) :
    (outputLoop rb n fuel ((keccakP^[k]) T) (streamBytes rb T 0 (rb * (k + 1)))).take n = streamBytes rb T 0 n := by
  induction fuel generalizing k with
  | zero =>
    rw [outputLoop]
    obtain ⟨d, hd⟩ := Nat.exists_eq_add_of_le (show n ≤ rb * (k + 1) by simpa using hf)
    rw [hd, streamBytes_add, List.take_left' (length_streamBytes _ _ _ _)]
  | succ fuel ih =>
    rw [outputLoop]
    split
    · next h =>
      have hb : ((keccakP ((keccakP^[k]) T)).toBytes).take rb = streamBytes rb T (rb * (k + 1)) rb := by
        rw [← Function.iterate_succ_apply' keccakP, ← List.drop_zero (l := ((keccakP^[k + 1]) T).toBytes),
          take_drop_toBytes _ hrb2 (by omega)]
        simp only [streamBytes]
        apply List.map_congr_left
        intro j hj
        have hj : j < rb := List.mem_range.1 hj
        simp only [streamByte, Nat.zero_add, Nat.div_eq_of_lt hj, Nat.mod_eq_of_lt hj, Nat.mul_add_mod,
          Nat.mul_add_div hrb, Nat.add_zero, Function.iterate_zero, id]
      have hs : streamBytes rb T 0 (rb * (k + 1)) ++ streamBytes rb T (rb * (k + 1)) rb
          = streamBytes rb T 0 (rb * (k + 1 + 1)) := by
        rw [show rb * (k + 1 + 1) = rb * (k + 1) + rb by ring, streamBytes_add, Nat.zero_add]
      rw [hb, hs, ← Function.iterate_succ_apply' keccakP]
      exact ih (k + 1) (by rw [Nat.mul_succ] at hf ⊢; rw [Nat.mul_succ] at hf; nlinarith)
    · next h =>
      rw [length_streamBytes, not_lt] at h
      obtain ⟨d, hd⟩ := Nat.exists_eq_add_of_le h
      rw [hd, streamBytes_add, List.take_left' (length_streamBytes _ _ _ _)]

/-- The sponge as a function, in closed form: the stream from the state after the last block. -/
theorem spongeFn_eq (mode : Fin 6) (M : Bytes) (n : Nat) :
    spongeFn mode M n
      = streamBytes (modeTag mode).1.bytes (((Sponge.fresh mode).absorb M).final).A 0 n := by
  have hrb := (modeTag mode).1.bytes_pos
  have hrb2 := (modeTag mode).1.bytes_le
  have hfin : (((Sponge.fresh mode).absorb M).final).A
      = (blocks (modeTag mode).1.bytes
          (M.take (M.length - M.length % (modeTag mode).1.bytes)
            ++ padBlock (M.drop (M.length - M.length % (modeTag mode).1.bytes)) (modeTag mode).2
                (modeTag mode).1.bytes).length
          (M.take (M.length - M.length % (modeTag mode).1.bytes)
            ++ padBlock (M.drop (M.length - M.length % (modeTag mode).1.bytes)) (modeTag mode).2
                (modeTag mode).1.bytes)).foldl (fun T blk => keccakP (T.xorBlock blk)) KState.zero := by
    rw [Sponge.absorb_eq]
    simp only [Sponge.final, Sponge.fresh, List.nil_append]
    generalize (modeTag mode).1.bytes = rb at *
    generalize (modeTag mode).2 = sfx
    have hmod := Nat.mod_lt M.length hrb
    have hdm := Nat.div_add_mod M.length rb
    rw [Nat.mul_comm] at hdm
    have hq : M.length - M.length % rb = M.length / rb * rb := by omega
    rw [hq]
    generalize hk : M.length / rb = k at *
    have hle : k * rb ≤ M.length := by omega
    have hpend : (M.drop (k * rb)).length < rb := by rw [List.length_drop]; omega
    have htl : (M.take (k * rb)).length = k * rb := by rw [List.length_take]; omega
    have hlen : (M.take (k * rb) ++ padBlock (M.drop (k * rb)) sfx rb).length = (k + 1) * rb := by
      rw [List.length_append, htl, length_padBlock sfx hpend, Nat.succ_mul]
    rw [blocks_eq hrb _ (k + 1) _ hlen (by rw [hlen]; exact Nat.le_mul_of_pos_right _ hrb), blockList_add,
      List.foldl_append, blockList_append_left _ htl.ge]
    have h1 : blockList rb k (M.take (k * rb)) = blockList rb k M := by
      conv_rhs => rw [← List.take_append_drop (k * rb) M]
      rw [blockList_append_left _ htl.ge]
    have h2 : blockList rb 1 ((M.take (k * rb) ++ padBlock (M.drop (k * rb)) sfx rb).drop (k * rb))
        = [padBlock (M.drop (k * rb)) sfx rb] := by
      rw [List.drop_left' htl]
      simp [blockList, List.take_of_length_le, length_padBlock sfx hpend]
    rw [h1, h2]
    simp only [List.foldl_cons, List.foldl_nil]
  rw [hfin, spongeFn]
  generalize ((blocks _ _ _).foldl _ _ : KState) = T
  generalize (modeTag mode).1.bytes = rb at *
  have h0 := take_drop_toBytes (rb := rb) (pos := 0) (t := rb) T (by omega) (by omega)
  rw [List.drop_zero] at h0
  rw [h0]
  have := outputLoop_eq (n := n) hrb (by omega) n 0 T (by nlinarith)
  simpa using this

/-- What the one-shot commands compute is the sponge as a function (R157, 42_modes.md R180). -/
theorem oneShot_eq_spongeFn (mode : Fin 6) (M : Bytes) (n : Nat) : oneShot mode M n = spongeFn mode M n := by
  rw [oneShot, spongeFn_eq, Sponge.squeeze_eq (by simp [Sponge.final])]
  simp only [Sponge.final, Sponge.absorb_rate, Sponge.fresh]

@[simp] theorem length_oneShot (mode : Fin 6) (M : Bytes) (n : Nat) : (oneShot mode M n).length = n := by
  rw [oneShot_eq_spongeFn, spongeFn_eq, length_streamBytes]

/-! ### The invariant of the context -/

theorem Sponge.absorb_inv {sp : Sponge} (h : sp.Inv) (hp : sp.phase = .absorb) (m : Bytes) : (sp.absorb m).Inv where
  mode := h.mode
  buf_short := sp.absorb_buf_lt m
  buf_absorb := .inl hp
  sqpos_squeeze := h.sqpos_squeeze
  sqpos_le := h.sqpos_le

theorem Sponge.final_inv {sp : Sponge} (h : sp.Inv) : sp.final.Inv where
  mode := h.mode
  buf_short := sp.rate.bytes_pos
  buf_absorb := .inr rfl
  sqpos_squeeze := .inl rfl
  sqpos_le := Nat.zero_le _

theorem Sponge.squeeze_inv {sp : Sponge} (h : sp.Inv) (hp : sp.phase = .squeeze) (n : Nat) : (sp.squeeze n).2.Inv := by
  rw [Sponge.squeeze_eq h.sqpos_le]
  exact {
    mode := h.mode
    buf_short := h.buf_short
    buf_absorb := h.buf_absorb
    sqpos_squeeze := .inl hp
    sqpos_le := squeezedPos_le sp.rate.bytes_pos h.sqpos_le n }

theorem Sponge.length_squeeze {sp : Sponge} (h : sp.sqpos ≤ sp.rate.bytes) (n : Nat) : (sp.squeeze n).1.length = n := by
  rw [Sponge.squeeze_eq h, length_streamBytes]

end Sys2Proof.Machine
end

