-- ==== Sys2Proof/Laws/Invariant.lean ====
section
/-! SUPPORT. The invariant under each update of the state, and the ranges of the values the commands write (10_state.md
R23, R24, R28, R29, R31). -/

namespace Sys2Proof.Machine

set_option exponentiation.threshold 1000

/-! ### The invariant under each update -/

theorem State.Inv.setSt {s : State} (h : s.Inv) (e : Status) : State.Inv { s with st := e } where
  sponge := h.sponge
  outlen := h.outlen
  buffers := h.buffers
  integers := h.integers
  points := h.points
  inbox := h.inbox

theorem State.Inv.setVF {s : State} (h : s.Inv) (v : Bool) : (s.setVF v).Inv where
  sponge := h.sponge
  outlen := h.outlen
  buffers := h.buffers
  integers := h.integers
  points := h.points
  inbox := h.inbox

theorem State.Inv.setB {s : State} (h : s.Inv) (i : BReg) {v : Bytes} (hv : v.length ≤ Config.bmax) : (s.setB i v).Inv where
  sponge := h.sponge
  outlen := h.outlen
  buffers := State.setB_wf h.buffers i hv
  integers := h.integers
  points := h.points
  inbox := h.inbox

theorem State.Inv.setZ {s : State} (h : s.Inv) (i : ZReg) {n : Int} (hn : fitsZ n = true) : (s.setZ i n).Inv where
  sponge := h.sponge
  outlen := h.outlen
  buffers := h.buffers
  integers := fun j => by
    rw [State.getZ_setZ]
    split
    · exact hn
    · exact h.integers j
  points := h.points
  inbox := h.inbox

theorem State.Inv.setP {s : State} (h : s.Inv) (i : PReg) {q : Point} (hq : q.wf Config.curve) : (s.setP i q).Inv where
  sponge := h.sponge
  outlen := h.outlen
  buffers := h.buffers
  integers := h.integers
  points := fun j => by
    rw [State.getP_setP]
    split
    · exact hq
    · exact h.points j
  inbox := h.inbox

theorem State.Inv.setSponge {s : State} (h : s.Inv) {sp : Sponge} (hsp : sp.Inv) : (s.setSponge sp).Inv where
  sponge := hsp
  outlen := h.outlen
  buffers := h.buffers
  integers := h.integers
  points := h.points
  inbox := h.inbox

theorem State.Inv.setA {s : State} (h : s.Inv) (A : KState) : (s.setA A).Inv where
  sponge := ⟨h.sponge.mode, h.sponge.buf_short, h.sponge.buf_absorb, h.sponge.sqpos_squeeze, h.sponge.sqpos_le⟩
  outlen := h.outlen
  buffers := h.buffers
  integers := h.integers
  points := h.points
  inbox := h.inbox

theorem State.Inv.setOutlen {s : State} (h : s.Inv) {v : BitVec 24} (hv : v.toNat % 8 = 0) : (s.setOutlen v).Inv where
  sponge := h.sponge
  outlen := hv
  buffers := h.buffers
  integers := h.integers
  points := h.points
  inbox := h.inbox

theorem State.Inv.discardCtx {s : State} (h : s.Inv) : s.discardCtx.Inv := h.setSponge Sponge.discarded_inv

/-- A host action taken from the front leaves a host that does only the actions of R284. -/
theorem State.Inv.takeAction {s : State} (h : s.Inv) {a : HostAction} {rest : List HostAction} (hi : s.inbox = a :: rest)
    (r : Option HostReply) : State.Inv { s with inbox := rest, reply := r } where
  sponge := h.sponge
  outlen := h.outlen
  buffers := h.buffers
  integers := h.integers
  points := h.points
  inbox := fun b hb => h.inbox b (by rw [hi]; exact List.mem_cons_of_mem a hb)

/-- The reset state, with any host, meets the invariant when the host does. -/
theorem State.reset_inv {as : List HostAction} (h : inboxOk as) (r : Option HostReply) :
    State.Inv { State.reset with inbox := as, reply := r } where
  sponge := Sponge.discarded_inv
  outlen := rfl
  buffers := Memory.reset_wf
  integers := show ∀ i, fitsZ (State.reset.getZ i) = true by decide
  points := show ∀ i, (State.reset.getP i).wf Config.curve by decide
  inbox := h

/-! ### The ranges of the values commands write -/

theorem fitsZ_decS {s : Bytes} (h1 : s ≠ []) (h2 : s.length ≤ 66) : fitsZ (decS s) = true := by
  obtain ⟨hl, hu⟩ := decS_range h1
  have hp : (256 : Int) ^ s.length ≤ 256 ^ 66 := pow_le_pow_right₀ (by norm_num) h2
  simp only [fitsZ, decide_eq_true_eq]
  norm_num at hp ⊢
  constructor <;> linarith

theorem fitsZ_decU {s : Bytes} (h : s.length ≤ 65) : fitsZ (decU s) = true := by
  have h1 := decU_lt s
  have hp : 256 ^ s.length ≤ 256 ^ 65 := Nat.pow_le_pow_right (by norm_num) h
  apply fitsZ_of_range (Int.natCast_nonneg _)
  have : decU s < 2 ^ 521 := by norm_num at hp ⊢; omega
  exact_mod_cast this

/-- The coordinates of a point of the curve fit an integer register. -/
theorem fitsZ_coords {T : Point} (h : T.onCurve Config.curve = true) : fitsZ T.x = true ∧ fitsZ T.y = true := by
  have hp := (onCurve_iff config_complete.prime.one_lt T).1 h
  have : (Config.curve.P : Int) < 2 ^ 521 := by norm_num [Config.curve, Config.e521]
  exact ⟨fitsZ_of_range hp.1.1 (by linarith [hp.1.2]), fitsZ_of_range hp.2.1.1 (by linarith [hp.2.1.2])⟩

/-- The base point is a point of the curve in normal form (R231, R246 (a)). -/
theorem basePoint_wf : (basePoint Config.curve).wf Config.curve := by decide +kernel

theorem length_leftEncode_le {n : Int} (h : fitsZ n = true) (h0 : 0 ≤ n) : (leftEncode n.toNat).length ≤ 67 := by
  simp only [fitsZ, decide_eq_true_eq] at h
  have hn : n.toNat < 2 ^ (8 * 66) := by
    zify
    rw [Int.toNat_of_nonneg h0]
    have := h.2
    norm_num at this ⊢
    linarith
  have := (lenBytes_le_iff n.toNat (by norm_num)).2 hn
  simp
  omega

@[simp] theorem length_encodeSignature (h z : Int) : (encodeSignature h z).length = 130 := by simp [encodeSignature]

end Sys2Proof.Machine
end

