-- ==== Sys2Proof/Laws/Order.lean ====
section
/-! SUPPORT. The order of the base point, R231: the multiple by R is computed by Lean's kernel with the addition law in a
form that has no division (projective coordinates), which is proved to follow `padd`. -/

namespace Sys2Proof.Machine

set_option exponentiation.threshold 1000

/-- Hands a number on in evaluated form: what the kernel computes is the literal, not the term. -/
def force {α : Type} (n : Nat) (k : Nat → α) : α :=
  match n with
  | 0 => k 0
  | m + 1 => k (m + 1)

theorem force_eq {α : Type} (n : Nat) (k : Nat → α) : force n k = k n := by cases n <;> rfl

/-- Three coordinates X, Y, Z: the point with x Z = X and y Z = Y. -/
structure Proj where
  X : Nat
  Y : Nat
  Z : Nat
deriving DecidableEq, Repr

/-- The addition law without a division. -/
def projAdd (P d : Nat) (T U : Proj) : Proj :=
  force (T.Z * U.Z % P) fun a =>
  force (a * a % P) fun b =>
  force (T.X * U.X % P) fun cc =>
  force (T.Y * U.Y % P) fun dd =>
  force (d * (cc * dd % P) % P) fun e =>
  force ((b + (P - e)) % P) fun f =>
  force (b + e) fun g =>
  force (a * f % P * (T.X * U.Y + T.Y * U.X) % P) fun x =>
  force (a * g % P * (dd + (P - cc)) % P) fun y =>
  force (f * g % P) fun z => ⟨x, y, z⟩

/-- The scan of `smulBits`. -/
def projBits (P d : Nat) (T : Proj) (k : Nat) : Nat → Proj → Proj
  | 0, acc => acc
  | i + 1, acc =>
    match projAdd P d acc acc with
    | ⟨x, y, z⟩ =>
      match k.testBit i with
      | true => projBits P d T k i (projAdd P d ⟨x, y, z⟩ T)
      | false => projBits P d T k i ⟨x, y, z⟩

/-- Three coordinates stand for a point. -/
def Proj.rep (c : Curve) (T : Point) (p : Proj) : Prop :=
  (p.Z : ZMod c.P) ≠ 0 ∧ (T.x : ZMod c.P) * p.Z = p.X ∧ (T.y : ZMod c.P) * p.Z = p.Y

section
variable {c : Curve} (hc : CurveComplete c)
include hc

/-- The division-free sum stands for the sum. -/
theorem projAdd_rep {T U : Point} {p q : Proj} (hT : T.onCurve c = true) (hU : U.onCurve c = true)
    (h1 : Proj.rep c T p) (h2 : Proj.rep c U q) : Proj.rep c (padd c T U) (projAdd c.P c.d p q) := by
  have := Fact.mk hc.prime
  obtain ⟨hp, hm⟩ := denominators_ne_zero hc hT hU
  obtain ⟨k1, k2⟩ := padd_coords hc hT hU
  obtain ⟨z1, x1, y1⟩ := h1
  obtain ⟨z2, x2, y2⟩ := h2
  have sub : ∀ n : Nat, ((c.P - n % c.P : Nat) : ZMod c.P) = -(n : ZMod c.P) := by
    intro n
    rw [Nat.cast_sub (Nat.mod_lt _ hc.prime.pos).le]
    simp
  simp only [projAdd, force_eq, Proj.rep]
  simp only [ZMod.natCast_mod, Nat.cast_mul, Nat.cast_add, sub]
  rw [← x1, ← y1, ← x2, ← y2]
  refine ⟨?_, ?_, ?_⟩
  · have hz : ((p.Z : ZMod c.P) * q.Z * (p.Z * q.Z) + -(c.d * (T.x * p.Z * (U.x * q.Z) * (T.y * p.Z * (U.y * q.Z)))))
        * (p.Z * q.Z * (p.Z * q.Z) + c.d * (T.x * p.Z * (U.x * q.Z) * (T.y * p.Z * (U.y * q.Z))))
        = (p.Z * q.Z) ^ 4 * ((1 + c.d * T.x * U.x * T.y * U.y) * (1 - c.d * T.x * U.x * T.y * U.y)) := by ring
    rw [hz]
    exact mul_ne_zero (pow_ne_zero 4 (mul_ne_zero z1 z2)) (mul_ne_zero hp hm)
  · linear_combination
      (p.Z * q.Z : ZMod c.P) ^ 4 * (1 - c.d * T.x * U.x * T.y * U.y) * k1
  · linear_combination
      (p.Z * q.Z : ZMod c.P) ^ 4 * (1 + c.d * T.x * U.x * T.y * U.y) * k2

/-- The division-free scan stands for the scan. -/
theorem projBits_rep {T : Point} {p : Proj} (hT : T.onCurve c = true) (h : Proj.rep c T p) (k i : Nat) {acc : Point}
    {q : Proj} (ha : acc.onCurve c = true) (h2 : Proj.rep c acc q) :
    Proj.rep c (smulBits c T k i acc) (projBits c.P c.d p k i q) := by
  induction i generalizing acc q with
  | zero => exact h2
  | succ i ih =>
    have w := padd_wf hc ha ha
    have r := projAdd_rep hc ha ha h2 h2
    rw [smulBits, projBits]
    cases k.testBit i with
    | true => exact ih (padd_wf hc w.1 hT).1 (projAdd_rep hc w.1 hT r h)
    | false => exact ih w.1 r

/-- A multiple whose division-free scan ends in X = 0 and Y = Z is the identity. -/
theorem smulNat_identity {T : Point} {p : Proj} (hT : T.onCurve c = true) (h : Proj.rep c T p) (k : Nat)
    (hx : (projBits c.P c.d p k (bitlen k) ⟨0, 1, 1⟩).X = 0)
    (hy : (projBits c.P c.d p k (bitlen k) ⟨0, 1, 1⟩).Y = (projBits c.P c.d p k (bitlen k) ⟨0, 1, 1⟩).Z) :
    smulNat c T k = .identity := by
  have := Fact.mk hc.prime
  have hi : Point.wf c .identity := identity_wf
  have h0 : Proj.rep c .identity ⟨0, 1, 1⟩ := by simp [Proj.rep, Point.x, Point.y]
  obtain ⟨z, x, y⟩ := projBits_rep hc hT h k (bitlen k) hi.1 h0
  rw [hx, Nat.cast_zero] at x
  rw [hy] at y
  have w := smulBits_wf hc hT k (bitlen k) hi
  refine Point.wf.ext_cast hc w hi ?_ ?_
  · simpa [Point.x, smulNat, z] using x
  · simpa [Point.y, smulNat, z] using y
end

/-- The division-free scan of R for the base point ends in X = 0 and Y = Z: about 900 additions, by the kernel. -/
theorem base_scan :
    (let q := projBits Config.curve.P Config.curve.d ⟨Config.curve.gx, Config.curve.gy, 1⟩ Config.curve.R
        (bitlen Config.curve.R) ⟨0, 1, 1⟩
     q.X == 0 && q.Y == q.Z) = true := by decide +kernel

end Sys2Proof.Machine
end

