-- ==== Sys2Proof/Laws/PerInstr.lean ====
section
/-! SUPPORT. The per-instruction family OpcodeByte: the opcode byte of every command word is the one its row of
30_encoding.md R96 gives ("Bits 31:24 are the opcode in every format", R90). -/

namespace Sys2Proof

/-- The opcode of a command (R96, column "op"). -/
def opcodeByte : Instr → Byte
  | .nop => 0x00
  | .zeroize => 0x01
  | .bclr _ => 0x08
  | .bmov _ _ => 0x09
  | .bcat _ _ _ => 0x0A
  | .kclr => 0x10
  | .kld _ => 0x11
  | .kst _ => 0x12
  | .permute => 0x13
  | .sinit _ => 0x20
  | .absorb _ => 0x21
  | .final => 0x22
  | .squeeze _ _ => 0x23
  | .lenc _ _ => 0x30
  | .renc _ _ => 0x31
  | .encstr _ _ => 0x32
  | .bytepad _ _ _ => 0x33
  | .setlen _ => 0x34
  | .sha3 _ _ _ => 0x35
  | .xof _ _ _ _ => 0x36
  | .kmacx _ _ _ _ => 0x37
  | .zli _ _ => 0x40
  | .zlds _ _ => 0x41
  | .zldu _ _ => 0x42
  | .zst _ _ => 0x43
  | .zst65 _ _ => 0x44
  | .zconst _ _ => 0x45
  | .zmov _ _ => 0x46
  | .zmul4 _ _ => 0x47
  | .zred _ _ _ => 0x48
  | .zeq _ _ => 0x49
  | .madd _ _ _ _ => 0x4A
  | .msub _ _ _ _ => 0x4B
  | .mmul _ _ _ _ => 0x4C
  | .mneg _ _ _ => 0x4D
  | .minv _ _ _ => 0x4E
  | .pid _ => 0x50
  | .pbase _ => 0x51
  | .pset _ _ _ => 0x52
  | .pgetx _ _ => 0x53
  | .pgety _ _ => 0x54
  | .pmov _ _ => 0x55
  | .pneg _ _ => 0x56
  | .peq _ _ => 0x57
  | .padd _ _ _ => 0x58
  | .pdbl _ _ => 0x59
  | .smul _ _ _ => 0x5A
  | .encsig _ _ _ => 0x60
  | .decsig _ _ _ => 0x61
  | .sign _ _ _ => 0x62
  | .verify _ _ _ => 0x63

/-- The word of the instruction carries its opcode, whatever the operands are. -/
def Laws.OpcodeByte.Statement (i : Instr) : Prop := opcodeOf (encode i) = opcodeByte i

theorem Laws.OpcodeByte.nop : Laws.OpcodeByte.Statement (.nop) := by
  show opcodeOf (0x00000000) = 0x00
  simp

theorem Laws.OpcodeByte.zeroize : Laws.OpcodeByte.Statement (.zeroize) := by
  show opcodeOf (0x01000000) = 0x01
  simp

theorem Laws.OpcodeByte.bclr (bd : BReg) : Laws.OpcodeByte.Statement (.bclr bd) := by
  show opcodeOf (0x08000000 ||| place bd 20) = 0x08
  simp

theorem Laws.OpcodeByte.bmov (bd ba : BReg) : Laws.OpcodeByte.Statement (.bmov bd ba) := by
  show opcodeOf (0x09000000 ||| place bd 20 ||| place ba 16) = 0x09
  simp

theorem Laws.OpcodeByte.bcat (bd ba bb : BReg) : Laws.OpcodeByte.Statement (.bcat bd ba bb) := by
  show opcodeOf (0x0A000000 ||| place bd 20 ||| place ba 16 ||| place bb 12) = 0x0A
  simp

theorem Laws.OpcodeByte.kclr : Laws.OpcodeByte.Statement (.kclr) := by
  show opcodeOf (0x10000000) = 0x10
  simp

theorem Laws.OpcodeByte.kld (ba : BReg) : Laws.OpcodeByte.Statement (.kld ba) := by
  show opcodeOf (0x11000000 ||| place ba 16) = 0x11
  simp

theorem Laws.OpcodeByte.kst (bd : BReg) : Laws.OpcodeByte.Statement (.kst bd) := by
  show opcodeOf (0x12000000 ||| place bd 20) = 0x12
  simp

theorem Laws.OpcodeByte.permute : Laws.OpcodeByte.Statement (.permute) := by
  show opcodeOf (0x13000000) = 0x13
  simp

theorem Laws.OpcodeByte.sinit (mode : BitVec 24) : Laws.OpcodeByte.Statement (.sinit mode) := by
  show opcodeOf (0x20000000 ||| mode.setWidth 32) = 0x20
  simp

theorem Laws.OpcodeByte.absorb (ba : BReg) : Laws.OpcodeByte.Statement (.absorb ba) := by
  show opcodeOf (0x21000000 ||| place ba 16) = 0x21
  simp

theorem Laws.OpcodeByte.final : Laws.OpcodeByte.Statement (.final) := by
  show opcodeOf (0x22000000) = 0x22
  simp

theorem Laws.OpcodeByte.squeeze (bd : BReg) (n : BitVec 16) : Laws.OpcodeByte.Statement (.squeeze bd n) := by
  show opcodeOf (0x23000000 ||| place bd 20 ||| n.setWidth 32) = 0x23
  simp

theorem Laws.OpcodeByte.lenc (bd : BReg) (za : ZReg) : Laws.OpcodeByte.Statement (.lenc bd za) := by
  show opcodeOf (0x30000000 ||| place bd 20 ||| place za 16) = 0x30
  simp

theorem Laws.OpcodeByte.renc (bd : BReg) (za : ZReg) : Laws.OpcodeByte.Statement (.renc bd za) := by
  show opcodeOf (0x31000000 ||| place bd 20 ||| place za 16) = 0x31
  simp

theorem Laws.OpcodeByte.encstr (bd ba : BReg) : Laws.OpcodeByte.Statement (.encstr bd ba) := by
  show opcodeOf (0x32000000 ||| place bd 20 ||| place ba 16) = 0x32
  simp

theorem Laws.OpcodeByte.bytepad (bd ba : BReg) (w : BitVec 16) : Laws.OpcodeByte.Statement (.bytepad bd ba w) := by
  show opcodeOf (0x33000000 ||| place bd 20 ||| place ba 16 ||| w.setWidth 32) = 0x33
  simp

theorem Laws.OpcodeByte.setlen (bits : BitVec 24) : Laws.OpcodeByte.Statement (.setlen bits) := by
  show opcodeOf (0x34000000 ||| bits.setWidth 32) = 0x34
  simp

theorem Laws.OpcodeByte.sha3 (bd ba : BReg) (bits : BitVec 16) : Laws.OpcodeByte.Statement (.sha3 bd ba bits) := by
  show opcodeOf (0x35000000 ||| place bd 20 ||| place ba 16 ||| bits.setWidth 32) = 0x35
  simp

theorem Laws.OpcodeByte.xof (bd ba bb bc : BReg) : Laws.OpcodeByte.Statement (.xof bd ba bb bc) := by
  show opcodeOf (0x36000000 ||| place bd 20 ||| place ba 16 ||| place bb 12 ||| place bc 8) = 0x36
  simp

theorem Laws.OpcodeByte.kmacx (bd ba bb bc : BReg) : Laws.OpcodeByte.Statement (.kmacx bd ba bb bc) := by
  show opcodeOf (0x37000000 ||| place bd 20 ||| place ba 16 ||| place bb 12 ||| place bc 8) = 0x37
  simp

theorem Laws.OpcodeByte.zli (zd : ZReg) (value : BitVec 16) : Laws.OpcodeByte.Statement (.zli zd value) := by
  show opcodeOf (0x40000000 ||| place zd 20 ||| value.setWidth 32) = 0x40
  simp

theorem Laws.OpcodeByte.zlds (zd : ZReg) (ba : BReg) : Laws.OpcodeByte.Statement (.zlds zd ba) := by
  show opcodeOf (0x41000000 ||| place zd 20 ||| place ba 16) = 0x41
  simp

theorem Laws.OpcodeByte.zldu (zd : ZReg) (ba : BReg) : Laws.OpcodeByte.Statement (.zldu zd ba) := by
  show opcodeOf (0x42000000 ||| place zd 20 ||| place ba 16) = 0x42
  simp

theorem Laws.OpcodeByte.zst (bd : BReg) (za : ZReg) : Laws.OpcodeByte.Statement (.zst bd za) := by
  show opcodeOf (0x43000000 ||| place bd 20 ||| place za 16) = 0x43
  simp

theorem Laws.OpcodeByte.zst65 (bd : BReg) (za : ZReg) : Laws.OpcodeByte.Statement (.zst65 bd za) := by
  show opcodeOf (0x44000000 ||| place bd 20 ||| place za 16) = 0x44
  simp

theorem Laws.OpcodeByte.zconst (zd : ZReg) (sel : BitVec 16) : Laws.OpcodeByte.Statement (.zconst zd sel) := by
  show opcodeOf (0x45000000 ||| place zd 20 ||| sel.setWidth 32) = 0x45
  simp

theorem Laws.OpcodeByte.zmov (zd za : ZReg) : Laws.OpcodeByte.Statement (.zmov zd za) := by
  show opcodeOf (0x46000000 ||| place zd 20 ||| place za 16) = 0x46
  simp

theorem Laws.OpcodeByte.zmul4 (zd za : ZReg) : Laws.OpcodeByte.Statement (.zmul4 zd za) := by
  show opcodeOf (0x47000000 ||| place zd 20 ||| place za 16) = 0x47
  simp

theorem Laws.OpcodeByte.zred (m : Modulus) (zd za : ZReg) : Laws.OpcodeByte.Statement (.zred m zd za) := by
  show opcodeOf (0x48000000 ||| placeMod m ||| place zd 20 ||| place za 16) = 0x48
  simp

theorem Laws.OpcodeByte.zeq (za zb : ZReg) : Laws.OpcodeByte.Statement (.zeq za zb) := by
  show opcodeOf (0x49000000 ||| place za 16 ||| place zb 12) = 0x49
  simp

theorem Laws.OpcodeByte.madd (m : Modulus) (zd za zb : ZReg) : Laws.OpcodeByte.Statement (.madd m zd za zb) := by
  show opcodeOf (0x4A000000 ||| placeMod m ||| place zd 20 ||| place za 16 ||| place zb 12) = 0x4A
  simp

theorem Laws.OpcodeByte.msub (m : Modulus) (zd za zb : ZReg) : Laws.OpcodeByte.Statement (.msub m zd za zb) := by
  show opcodeOf (0x4B000000 ||| placeMod m ||| place zd 20 ||| place za 16 ||| place zb 12) = 0x4B
  simp

theorem Laws.OpcodeByte.mmul (m : Modulus) (zd za zb : ZReg) : Laws.OpcodeByte.Statement (.mmul m zd za zb) := by
  show opcodeOf (0x4C000000 ||| placeMod m ||| place zd 20 ||| place za 16 ||| place zb 12) = 0x4C
  simp

theorem Laws.OpcodeByte.mneg (m : Modulus) (zd za : ZReg) : Laws.OpcodeByte.Statement (.mneg m zd za) := by
  show opcodeOf (0x4D000000 ||| placeMod m ||| place zd 20 ||| place za 16) = 0x4D
  simp

theorem Laws.OpcodeByte.minv (m : Modulus) (zd za : ZReg) : Laws.OpcodeByte.Statement (.minv m zd za) := by
  show opcodeOf (0x4E000000 ||| placeMod m ||| place zd 20 ||| place za 16) = 0x4E
  simp

theorem Laws.OpcodeByte.pid (pd : PReg) : Laws.OpcodeByte.Statement (.pid pd) := by
  show opcodeOf (0x50000000 ||| place pd 20) = 0x50
  simp

theorem Laws.OpcodeByte.pbase (pd : PReg) : Laws.OpcodeByte.Statement (.pbase pd) := by
  show opcodeOf (0x51000000 ||| place pd 20) = 0x51
  simp

theorem Laws.OpcodeByte.pset (pd : PReg) (za zb : ZReg) : Laws.OpcodeByte.Statement (.pset pd za zb) := by
  show opcodeOf (0x52000000 ||| place pd 20 ||| place za 16 ||| place zb 12) = 0x52
  simp

theorem Laws.OpcodeByte.pgetx (zd : ZReg) (pa : PReg) : Laws.OpcodeByte.Statement (.pgetx zd pa) := by
  show opcodeOf (0x53000000 ||| place zd 20 ||| place pa 16) = 0x53
  simp

theorem Laws.OpcodeByte.pgety (zd : ZReg) (pa : PReg) : Laws.OpcodeByte.Statement (.pgety zd pa) := by
  show opcodeOf (0x54000000 ||| place zd 20 ||| place pa 16) = 0x54
  simp

theorem Laws.OpcodeByte.pmov (pd pa : PReg) : Laws.OpcodeByte.Statement (.pmov pd pa) := by
  show opcodeOf (0x55000000 ||| place pd 20 ||| place pa 16) = 0x55
  simp

theorem Laws.OpcodeByte.pneg (pd pa : PReg) : Laws.OpcodeByte.Statement (.pneg pd pa) := by
  show opcodeOf (0x56000000 ||| place pd 20 ||| place pa 16) = 0x56
  simp

theorem Laws.OpcodeByte.peq (pa pb : PReg) : Laws.OpcodeByte.Statement (.peq pa pb) := by
  show opcodeOf (0x57000000 ||| place pa 16 ||| place pb 12) = 0x57
  simp

theorem Laws.OpcodeByte.padd (pd pa pb : PReg) : Laws.OpcodeByte.Statement (.padd pd pa pb) := by
  show opcodeOf (0x58000000 ||| place pd 20 ||| place pa 16 ||| place pb 12) = 0x58
  simp

theorem Laws.OpcodeByte.pdbl (pd pa : PReg) : Laws.OpcodeByte.Statement (.pdbl pd pa) := by
  show opcodeOf (0x59000000 ||| place pd 20 ||| place pa 16) = 0x59
  simp

theorem Laws.OpcodeByte.smul (pd pa : PReg) (zb : ZReg) : Laws.OpcodeByte.Statement (.smul pd pa zb) := by
  show opcodeOf (0x5A000000 ||| place pd 20 ||| place pa 16 ||| place zb 12) = 0x5A
  simp

theorem Laws.OpcodeByte.encsig (bd : BReg) (za zb : ZReg) : Laws.OpcodeByte.Statement (.encsig bd za zb) := by
  show opcodeOf (0x60000000 ||| place bd 20 ||| place za 16 ||| place zb 12) = 0x60
  simp

theorem Laws.OpcodeByte.decsig (zd ze : ZReg) (bb : BReg) : Laws.OpcodeByte.Statement (.decsig zd ze bb) := by
  show opcodeOf (0x61000000 ||| place zd 20 ||| place ze 16 ||| place bb 12) = 0x61
  simp

theorem Laws.OpcodeByte.sign (bd : BReg) (za : ZReg) (bb : BReg) : Laws.OpcodeByte.Statement (.sign bd za bb) := by
  show opcodeOf (0x62000000 ||| place bd 20 ||| place za 16 ||| place bb 12) = 0x62
  simp

theorem Laws.OpcodeByte.verify (ba : BReg) (pb : PReg) (bc : BReg) : Laws.OpcodeByte.Statement (.verify ba pb bc) := by
  show opcodeOf (0x63000000 ||| place ba 16 ||| place pb 12 ||| place bc 8) = 0x63
  simp

end Sys2Proof
end

