-- ==== Sys2Proof/Tests/Slice0.lean ====
section
/-! SUPPORT. The model's own tests. Expected values are printed in 95_test_vectors.md and 96_test_vectors_families.md (the
vector is named in each docstring) or worked out from the rule that is named. Then one witness for each statement that has
hypotheses: concrete states and operands that meet them, at the boundary of each clause. -/

namespace Sys2Proof.Tests

open Sys2Proof Sys2Proof.Machine

set_option exponentiation.threshold 1000
set_option Elab.async false

/-! ### Well-formedness -/

/-- A constant select above 1 is no command (30_encoding.md R94); it is the only check. -/
theorem test_wellFormed_refuses : (Instr.zconst 0 2).wellFormed = false ∧ (Instr.zconst 7 0xFFFF).wellFormed = false := by
  decide

theorem test_wellFormed_accepts : (Instr.zconst 0 0).wellFormed = true ∧ (Instr.zconst 0 1).wellFormed = true ∧
    (Instr.sinit 9).wellFormed = true ∧ (Instr.bytepad 0 1 0).wellFormed = true := by decide

/-! ### Words, 96_test_vectors_families.md section 3 -/

/-- Encoding vectors of the system and buffer commands. -/
theorem test_words_system :
    decode 0x00000000 = .ok .nop ∧ encode .nop = 0x00000000 ∧
    decode 0x01000000 = .ok .zeroize ∧ encode .zeroize = 0x01000000 ∧
    decode 0x08700000 = .ok (.bclr 7) ∧ encode (.bclr 7) = 0x08700000 ∧
    decode 0x09650000 = .ok (.bmov 6 5) ∧ encode (.bmov 6 5) = 0x09650000 ∧
    decode 0x0A712000 = .ok (.bcat 7 1 2) ∧ encode (.bcat 7 1 2) = 0x0A712000 := by decide

/-- Encoding vectors of PERM. -/
theorem test_words_perm :
    decode 0x10000000 = .ok .kclr ∧ encode .kclr = 0x10000000 ∧
    decode 0x11030000 = .ok (.kld 3) ∧ encode (.kld 3) = 0x11030000 ∧
    decode 0x12400000 = .ok (.kst 4) ∧ encode (.kst 4) = 0x12400000 ∧
    decode 0x13000000 = .ok .permute ∧ encode .permute = 0x13000000 := by decide

/-- Encoding vectors of SPG. -/
theorem test_words_spg :
    decode 0x20000005 = .ok (.sinit 5) ∧ encode (.sinit 5) = 0x20000005 ∧
    decode 0x21060000 = .ok (.absorb 6) ∧ encode (.absorb 6) = 0x21060000 ∧
    decode 0x22000000 = .ok .final ∧ encode .final = 0x22000000 ∧
    decode 0x23200040 = .ok (.squeeze 2 64) ∧ encode (.squeeze 2 64) = 0x23200040 := by decide

/-- Encoding vectors of ENC. -/
theorem test_words_enc :
    decode 0x30170000 = .ok (.lenc 1 7) ∧ encode (.lenc 1 7) = 0x30170000 ∧
    decode 0x31170000 = .ok (.renc 1 7) ∧ encode (.renc 1 7) = 0x31170000 ∧
    decode 0x32340000 = .ok (.encstr 3 4) ∧ encode (.encstr 3 4) = 0x32340000 ∧
    decode 0x33230088 = .ok (.bytepad 2 3 136) ∧ encode (.bytepad 2 3 136) = 0x33230088 ∧
    decode 0x34000200 = .ok (.setlen 512) ∧ encode (.setlen 512) = 0x34000200 ∧
    decode 0x35010100 = .ok (.sha3 0 1 256) ∧ encode (.sha3 0 1 256) = 0x35010100 ∧
    decode 0x35770200 = .ok (.sha3 7 7 512) ∧ encode (.sha3 7 7 512) = 0x35770200 ∧
    decode 0x36012300 = .ok (.xof 0 1 2 3) ∧ encode (.xof 0 1 2 3) = 0x36012300 ∧
    decode 0x37456700 = .ok (.kmacx 4 5 6 7) ∧ encode (.kmacx 4 5 6 7) = 0x37456700 := by decide

/-- Encoding vectors of MOD. -/
theorem test_words_mod :
    decode 0x40300088 = .ok (.zli 3 136) ∧ encode (.zli 3 136) = 0x40300088 ∧
    decode 0x4070FFFF = .ok (.zli 7 65535) ∧ encode (.zli 7 65535) = 0x4070FFFF ∧
    decode 0x41120000 = .ok (.zlds 1 2) ∧ encode (.zlds 1 2) = 0x41120000 ∧
    decode 0x42340000 = .ok (.zldu 3 4) ∧ encode (.zldu 3 4) = 0x42340000 ∧
    decode 0x43560000 = .ok (.zst 5 6) ∧ encode (.zst 5 6) = 0x43560000 ∧
    decode 0x44770000 = .ok (.zst65 7 7) ∧ encode (.zst65 7 7) = 0x44770000 ∧
    decode 0x45200000 = .ok (.zconst 2 0) ∧ encode (.zconst 2 0) = 0x45200000 ∧
    decode 0x45200001 = .ok (.zconst 2 1) ∧ encode (.zconst 2 1) = 0x45200001 ∧
    decode 0x46450000 = .ok (.zmov 4 5) ∧ encode (.zmov 4 5) = 0x46450000 ∧
    decode 0x47110000 = .ok (.zmul4 1 1) ∧ encode (.zmul4 1 1) = 0x47110000 ∧
    decode 0x48120000 = .ok (.zred .fieldP 1 2) ∧ encode (.zred .fieldP 1 2) = 0x48120000 ∧
    decode 0x48120001 = .ok (.zred .orderR 1 2) ∧ encode (.zred .orderR 1 2) = 0x48120001 ∧
    decode 0x49067000 = .ok (.zeq 6 7) ∧ encode (.zeq 6 7) = 0x49067000 ∧
    decode 0x4A123000 = .ok (.madd .fieldP 1 2 3) ∧ encode (.madd .fieldP 1 2 3) = 0x4A123000 ∧
    decode 0x4A123001 = .ok (.madd .orderR 1 2 3) ∧ encode (.madd .orderR 1 2 3) = 0x4A123001 ∧
    decode 0x4B765001 = .ok (.msub .orderR 7 6 5) ∧ encode (.msub .orderR 7 6 5) = 0x4B765001 ∧
    decode 0x4C000000 = .ok (.mmul .fieldP 0 0 0) ∧ encode (.mmul .fieldP 0 0 0) = 0x4C000000 ∧
    decode 0x4C201001 = .ok (.mmul .orderR 2 0 1) ∧ encode (.mmul .orderR 2 0 1) = 0x4C201001 ∧
    decode 0x4D340000 = .ok (.mneg .fieldP 3 4) ∧ encode (.mneg .fieldP 3 4) = 0x4D340000 ∧
    decode 0x4E560001 = .ok (.minv .orderR 5 6) ∧ encode (.minv .orderR 5 6) = 0x4E560001 := by decide

/-- Encoding vectors of ECP. -/
theorem test_words_ecp :
    decode 0x50300000 = .ok (.pid 3) ∧ encode (.pid 3) = 0x50300000 ∧
    decode 0x51200000 = .ok (.pbase 2) ∧ encode (.pbase 2) = 0x51200000 ∧
    decode 0x52167000 = .ok (.pset 1 6 7) ∧ encode (.pset 1 6 7) = 0x52167000 ∧
    decode 0x53530000 = .ok (.pgetx 5 3) ∧ encode (.pgetx 5 3) = 0x53530000 ∧
    decode 0x54420000 = .ok (.pgety 4 2) ∧ encode (.pgety 4 2) = 0x54420000 ∧
    decode 0x55310000 = .ok (.pmov 3 1) ∧ encode (.pmov 3 1) = 0x55310000 ∧
    decode 0x56230000 = .ok (.pneg 2 3) ∧ encode (.pneg 2 3) = 0x56230000 ∧
    decode 0x57023000 = .ok (.peq 2 3) ∧ encode (.peq 2 3) = 0x57023000 ∧
    decode 0x58312000 = .ok (.padd 3 1 2) ∧ encode (.padd 3 1 2) = 0x58312000 ∧
    decode 0x59110000 = .ok (.pdbl 1 1) ∧ encode (.pdbl 1 1) = 0x59110000 ∧
    decode 0x5A327000 = .ok (.smul 3 2 7) ∧ encode (.smul 3 2 7) = 0x5A327000 := by decide

/-- Encoding vectors of SIG. -/
theorem test_words_sig :
    decode 0x60123000 = .ok (.encsig 1 2 3) ∧ encode (.encsig 1 2 3) = 0x60123000 ∧
    decode 0x61456000 = .ok (.decsig 4 5 6) ∧ encode (.decsig 4 5 6) = 0x61456000 ∧
    decode 0x62100000 = .ok (.sign 1 0 0) ∧ encode (.sign 1 0 0) = 0x62100000 ∧
    decode 0x63010000 = .ok (.verify 1 0 0) ∧ encode (.verify 1 0 0) = 0x63010000 ∧
    decode 0x63073600 = .ok (.verify 7 3 6) ∧ encode (.verify 7 3 6) = 0x63073600 := by decide

/-- Illegal words of the same section. -/
theorem test_words_illegal :
    ([0x02000000, 0xFFFFFFFF, 0x00000001, 0x13000100, 0x08800000, 0x08010000, 0x50400000, 0x5A308000, 0x4C201003, 0x4C201100,
      0x58123001, 0x45200002, 0x45210000, 0x23010004, 0x63110000, 0x4F000000, 0x64000000] : List Word).all
      (fun w => match decode w with
        | .ok _ => false
        | .error _ => true) = true := by decide

/-- The words as the opcode table numbers them. -/
theorem test_decodeTableWord : decodeTableWord 32 0x37456700 = some (.kmacx 4 5 6 7) ∧
    decodeTableWord 32 0x4C201003 = none ∧ decodeTableWord 40 0 = none := by decide

/-! ### One step on a small state -/

/-- The reset state with three buffers, three integers and two points. -/
def small (b0 b1 b2 : Bytes) (z0 z1 z2 : Int) (p0 p1 : Point) : State :=
  { State.reset with
    b := #v[b0, b1, b2, [], [], [], [], []]
    z := #v[z0, z1, z2, 0, 0, 0, 0, 0]
    p := #v[p0, p1, .identity, .identity] }

/-- Buffers alone. -/
def buf (b0 b1 b2 : Bytes) : State := small b0 b1 b2 0 0 0 .identity .identity

/-- Integers alone. -/
def int (z0 z1 z2 : Int) : State := small [] [] [] z0 z1 z2 .identity .identity

/-- Points alone. -/
def pts (p0 p1 : Point) : State := small [] [] [] 0 0 0 p0 p1

/-- One step that presents the word `w`, and what `f` sees of the next state. -/
def see {α : Type} (s : State) (w : Nat) (f : State → α) : Option α :=
  match step (s.withFetchWord 32 w) with
  | .next t => some (f t)
  | .fault _ => none
  | .refused _ => none

/-- 00 01 02 .. C7. -/
def x200 : Bytes := (List.range 200).map (BitVec.ofNat 8)

/-- "abc". -/
def abc : Bytes := [0x61, 0x62, 0x63]

/-- NOP clears `ST` (96_test_vectors_families.md 4.6). -/
theorem test_nop : see { State.reset with st := .cfgMode } 0 (·.st) = some .ok := by decide

/-- ZEROIZE (4.6). -/
theorem test_zeroize : see { int 0 9 0 with vf := true, outlen := 512 } 0x01000000 (· == State.reset) = some true := by
  decide

/-- BCAT with the destination both sources (4.6). -/
theorem test_bcat : see (buf [1, 2, 3] [] []) 0x0A000000 (·.getB 0) = some [1, 2, 3, 1, 2, 3] := by decide

/-- BMOV and BCLR (4.6). -/
theorem test_bmov : see (buf [1, 2, 3] [] []) 0x09300000 (fun t => (t.getB 3, t.getB 0)) = some ([1, 2, 3], [1, 2, 3]) := by
  decide
theorem test_bclr : see (buf [1, 2, 3] [4] []) 0x08000000 (fun t => (t.getB 0, t.getB 1)) = some ([], [4]) := by decide

/-- V-P2: the lanes KLD puts together. -/
theorem test_kld : see (buf x200 [] []) 0x11000000 (fun t => (t.sponge.A.lane 1 0, t.sponge.A.lane 0 1, t.sponge.A.lane 4 4))
    = some (0x0F0E0D0C0B0A0908, 0x2F2E2D2C2B2A2928, 0xC7C6C5C4C3C2C1C0) := by decide +kernel

/-- V-P5. -/
theorem test_kld_length : see (buf (x200.take 199) [] []) 0x11000000 (fun t => (t.st, t.sponge == Sponge.discarded))
    = some (.length, true) := by decide +kernel

/-- V-P1: the permutation of the zero state. -/
theorem test_permute : see State.reset 0x13000000 (fun t => (t.sponge.A.lane 0 0, t.sponge.A.lane 3 1, t.sponge.A.lane 4 4))
    = some (0xF1258F7940E1DDE7, 0xAD30A6F71B19059C, 0xEAF1FF7B5CECA249) := by decide +kernel

/-- A state of two lanes. -/
def twoLanes : KState :=
  ⟨⟨0, 0, 0, 0, 0⟩, ⟨1, 0, 0, 0, 0⟩, ⟨0, 0, 0, 1, 0⟩, ⟨0, 0, 0, 0, 0⟩, ⟨0, 0, 0, 0, 0⟩⟩

/-- V-P4: rho and pi. The value 0x8000 is that of the row, and of `RHO`[2][3] = 15 (notes/assumptions/19.md). -/
theorem test_rho : rho twoLanes = ⟨⟨0, 0, 0, 0, 0⟩, ⟨2, 0, 0, 0, 0⟩, ⟨0, 0, 0, 0x8000, 0⟩, ⟨0, 0, 0, 0, 0⟩, ⟨0, 0, 0, 0, 0⟩⟩ := by
  decide +kernel
theorem test_pi : pi twoLanes = ⟨⟨0, 0, 1, 0, 0⟩, ⟨0, 0, 0, 0, 0⟩, ⟨0, 0, 0, 0, 0⟩, ⟨0, 0, 0, 1, 0⟩, ⟨0, 0, 0, 0, 0⟩⟩ := by
  decide +kernel

/-- V-P4: theta and chi. -/
theorem test_theta : theta ⟨⟨1, 0, 0, 0, 0⟩, ⟨0, 0, 0, 0, 0⟩, ⟨0, 0, 0, 0, 0⟩, ⟨0, 0, 0, 0, 0⟩, ⟨0, 0, 0, 0, 0⟩⟩
    = ⟨⟨1, 0, 0, 0, 0⟩, ⟨1, 1, 1, 1, 1⟩, ⟨0, 0, 0, 0, 0⟩, ⟨0, 0, 0, 0, 0⟩, ⟨2, 2, 2, 2, 2⟩⟩ := by decide +kernel
theorem test_chi : chi ⟨⟨0xFF, 0, 0, 0, 0⟩, ⟨0x0F, 0, 0, 0, 0⟩, ⟨0x33, 0, 0, 0, 0⟩, ⟨0, 0, 0, 0, 0⟩, ⟨0, 0, 0, 0, 0⟩⟩
    = ⟨⟨0xCF, 0, 0, 0, 0⟩, ⟨0x0F, 0, 0, 0, 0⟩, ⟨0x33, 0, 0, 0, 0⟩, ⟨0xFF, 0, 0, 0, 0⟩, ⟨0, 0, 0, 0, 0⟩⟩ := by
  decide +kernel

/-- A mode without a row (V-S13), and the rate and suffix of mode 2 (R152). -/
theorem test_sinit : see State.reset 0x20000006 (·.st) = some .cfgMode ∧
    see State.reset 0x20000002 (fun t => (t.sponge.rate.bits, t.sponge.sfx, t.sponge.phase)) = some (832, 0x06, .absorb) := by
  decide

/-- V-S5: 136 bytes are taken at once, 137 leave one pending (V-S6). -/
theorem test_absorb : see { buf (List.replicate 137 0xA3) [] [] with sponge := Sponge.fresh 1 } 0x21000000
    (fun t => (t.sponge.buf, t.sponge.A == KState.zero)) = some ([0xA3], false) := by decide +kernel

/-- V-S1: the state after FINAL begins with the digest of the empty string. -/
theorem test_final : see { State.reset with sponge := Sponge.fresh 1 } 0x22000000
    (fun t => (t.sponge.A.toBytes.take 4, t.sponge.phase, t.sponge.sqpos)) = some ([0xA7, 0xFF, 0xC6, 0xF8], .squeeze, 0) := by
  decide +kernel

/-- V-S11: the permutation waits for the next byte; the bytes are those of V-P1. -/
theorem test_squeeze : see { State.reset with sponge := { Sponge.discarded with phase := .squeeze, sqpos := 136 } } 0x23000002
    (fun t => (t.getB 0, t.sponge.sqpos)) = some ([0xE7, 0xDD], 2) := by decide +kernel
theorem test_squeeze_phase : see { State.reset with sponge := Sponge.fresh 1 } 0x23000001 (·.st) = some .phase := by decide

/-- The encoder rows of 4.3. -/
theorem test_lenc : see (int 256 0 0) 0x30000000 (·.getB 0) = some [0x02, 0x01, 0x00] ∧
    see (int (-1) 0 0) 0x30000000 (·.st) = some .range := by decide +kernel
theorem test_renc : see (int 256 0 0) 0x31000000 (·.getB 0) = some [0x01, 0x00, 0x02] ∧
    see (int 0 0 0) 0x31000000 (·.getB 0) = some [0x00, 0x01] := by decide +kernel
theorem test_encstr : see (buf [] [0x4B, 0x4D, 0x41, 0x43] []) 0x32010000 (·.getB 0)
    = some [0x01, 0x20, 0x4B, 0x4D, 0x41, 0x43] := by decide +kernel
theorem test_bytepad : see (buf [] abc []) 0x33010004 (·.getB 0) = some [0x01, 0x04, 0x61, 0x62, 0x63, 0, 0, 0] ∧
    see (buf [] abc []) 0x33010000 (·.st) = some .cfgLen := by decide +kernel

/-- V-M13. -/
theorem test_setlen : see { State.reset with outlen := 512 } 0x34000101 (fun t => (t.st, t.outlen)) = some (.cfgLen, 512) := by
  decide

/-- V-M16 and V-M15. -/
theorem test_sha3 : see (buf abc [] []) 0x35000100 (fun t => (t.getB 0).take 4) = some [0x3A, 0x98, 0x5D, 0xA7] := by
  decide +kernel
theorem test_sha3_length : see State.reset 0x35010080 (·.st) = some .cfgLen := by decide

/-- V-M7, with the customization in b2. -/
theorem test_xof : see { buf [] abc [0x53] with outlen := 8 } 0x36013200 (·.getB 0) = some [0x57] := by decide +kernel

/-- V-M11. -/
theorem test_kmacx : see { buf [] [0x6B, 0x65, 0x79] [] with outlen := 256 } 0x37012300 (fun t => (t.getB 0).take 4)
    = some [0xDA, 0x0D, 0x4D, 0xE0] := by decide +kernel

/-- R294: the key is looked at before the length. -/
theorem test_kmacx_priority : see { State.reset with outlen := 524288 } 0x37012300 (·.st) = some .cfgKey := by decide

/-- The codec rows of 4.4. -/
theorem test_zlds : see (buf [0xFF, 0x7F] [] []) 0x41000000 (·.getZ 0) = some (-129) ∧
    see (buf [] [] []) 0x41000000 (·.st) = some .length := by decide +kernel
theorem test_zldu : see (buf [0xFF, 0x7F] [] []) 0x42000000 (·.getZ 0) = some 65407 ∧
    see (buf [] [] []) 0x42000000 (fun t => (t.getZ 0, t.st)) = some (0, .ok) := by decide +kernel
theorem test_zst : see (int (-129) 0 0) 0x43000000 (·.getB 0) = some [0xFF, 0x7F] ∧
    see (int 128 0 0) 0x43000000 (·.getB 0) = some [0x00, 0x80] := by decide +kernel
theorem test_zst65 : see (int (-2) 0 0) 0x44000000 (·.getB 0) = some (List.replicate 64 0xFF ++ [0xFE]) ∧
    see (int (2 ^ 519) 0 0) 0x44000000 (·.st) = some .range := by decide +kernel

/-- The last paragraph and the arithmetic rows of 4.4. -/
theorem test_zli : see State.reset 0x4000FFFF (·.getZ 0) = some 65535 := by decide
theorem test_zconst : see State.reset 0x45000000 (fun t => t.getZ 0 == 2 ^ 521 - 1) = some true := by decide +kernel
theorem test_zmov : see (int 0 5 0) 0x46210000 (fun t => (t.getZ 2, t.getZ 1)) = some (5, 5) := by decide
theorem test_zmul4 : see (int 0 (2 ^ 525) 0) 0x47010000 (·.st) = some .range ∧
    see (int 0 (-2 ^ 525) 0) 0x47010000 (fun t => t.getZ 0 == -2 ^ 527) = some true := by decide +kernel
theorem test_zred : see (int 0 (2 ^ 521 - 1) 0) 0x48010001
    (fun t => t.getZ 0 == 0xBA924E6E2E40DE823251D428604EB03EC109CEEA595C382EAFC576F282B9FCA53) = some true := by
  decide +kernel
theorem test_zeq : see (int 0 Config.curve.R 0) 0x49001000 (·.vf) = some false ∧
    see (int 5 5 0) 0x49001000 (·.vf) = some true := by decide +kernel
theorem test_madd : see (int 0 (-5) 3) 0x4A012000 (fun t => t.getZ 0 == 2 ^ 521 - 3) = some true := by decide +kernel
theorem test_msub : see (int 0 5 7) 0x4B012001 (fun t => t.getZ 0 == Config.curve.R - 2) = some true := by decide +kernel
theorem test_mmul : see (int 0 2 (2 ^ 520)) 0x4C012000 (·.getZ 0) = some 1 := by decide +kernel
theorem test_mneg : see (int 0 4 0) 0x4D010000 (fun t => t.getZ 0 == 2 ^ 521 - 5) = some true := by decide +kernel
theorem test_minv : see (int 0 2 0) 0x4E010000 (fun t => t.getZ 0 == 2 ^ 520) = some true ∧
    see (int 0 (-Config.curve.R) 0) 0x4E010001 (·.st) = some .divzero := by decide +kernel

/-- V-E4 and V-E10: the identity and the base point. -/
theorem test_pid : see (pts (.affine 1 0) .identity) 0x50000000 (·.getP 0) = some .identity := by decide
theorem test_pbase : see State.reset 0x51100000 (fun t => (t.getP 1).x) = some 4 := by decide +kernel

/-- V-E9 and 4.7: the pair (0, 1) is stored as the identity, and (1, 1) is not on the curve. -/
theorem test_pset : see (int 0 1 0) 0x52101000 (·.getP 1) = some .identity ∧
    see (int 1 1 0) 0x52101000 (·.st) = some .point := by decide +kernel

/-- V-E3: the coordinate view of the identity. -/
theorem test_pgetx : see (int 7 7 7) 0x53010000 (·.getZ 0) = some 0 := by decide
theorem test_pgety : see (int 7 7 7) 0x54010000 (·.getZ 0) = some 1 := by decide
theorem test_pmov : see (pts (.affine 1 0) .identity) 0x55100000 (·.getP 1) = some (.affine 1 0) := by decide

/-- V-E3: the negative of the base point is (P − 4, yG). -/
theorem test_pneg : see (pts (basePoint Config.curve) .identity) 0x56100000
    (fun t => ((t.getP 1).x == 2 ^ 521 - 5, (t.getP 1).y == Config.curve.gy)) = some (true, true) := by decide +kernel
theorem test_peq : see (pts (.affine 1 0) .identity) 0x57001000 (·.vf) = some false ∧
    see (pts (.affine 1 0) (.affine 1 0)) 0x57001000 (·.vf) = some true := by decide

/-- V-E11: a sum of points of order 4, (1, 0) + (0, P − 1) = (P − 1, 0). -/
theorem test_padd : see (pts (.affine 1 0) (.affine 0 (2 ^ 521 - 2))) 0x58201000 (fun t => t.getP 2 == .affine (2 ^ 521 - 2) 0)
    = some true := by decide +kernel

/-- V-E1: 2G. -/
theorem test_pdbl : see (pts (basePoint Config.curve) .identity) 0x59100000
    (fun t => ((t.getP 1).x == 0x6EEB7B013F129EA438E3C20718D31970649E584406B3D8CB65FDB712CE93FAB60FC5BE0C62987D287174A21E555FBE43AC0084480A3EFC77BE676A69618D42B608,
      (t.getP 1).y == 0x1CD24F86E41D6100036972E63E25FE9A62369926575D001F18A26F2788FCE6AEB2D9AF77E39AA610F9C2DB5590905A11914925BAEFCFD84EDFDFF2BC2E6D39A7079))
    = some (true, true) := by decide +kernel

/-- V-E7: the multiple by −1. -/
theorem test_smul : see (small [] [] [] (-1) 0 0 (.affine 1 0) .identity) 0x5A100000 (fun t => t.getP 1 == .affine (2 ^ 521 - 2) 0)
    = some true := by decide +kernel

/-- V-G1: h first, then z; read back into one register, z stays. -/
theorem test_encsig : see (int 1 (-2) 0) 0x60001000 (fun t => t.getB 0 == List.replicate 64 0 ++ [1] ++ List.replicate 64 0xFF ++ [0xFE])
    = some true := by decide +kernel
theorem test_decsig : see (buf (List.replicate 64 0 ++ [1] ++ List.replicate 64 0xFF ++ [0xFE]) [] []) 0x61220000 (·.getZ 2)
    = some (-2) := by decide +kernel

/-- Program 3, steps 11 and 12: a string of 129 bytes clears `VF`, raises nothing and keeps the session. -/
theorem test_verify_format : see { buf (List.replicate 129 0) [] [] with sponge := Sponge.fresh 1, vf := true } 0x63000100
    (fun t => (t.vf, t.st, t.sponge.phase)) = some (false, .ok, .absorb) := by decide +kernel

/-- SIGN completes from reset and discards the context (V-G9). -/
theorem test_sign : see { State.reset with sponge := Sponge.fresh 1 } 0x62100000 (fun t => (t.st, t.sponge == Sponge.discarded))
    = some (.ok, true) := by decide +kernel

/-- An illegal word changes `ST` alone (4.7). -/
theorem test_illegal : see (int 1 2 3) 0x02000000 (· == { int 1 2 3 with st := .illegal }) = some true := by decide +kernel

/-- R284: what HostStatus returns after a command. -/
theorem test_hostStatus : (match step { State.reset with inbox := [.status], st := .phase, vf := true } with
    | .next t => t.reply
    | .fault _ => none
    | .refused _ => none) = some (.status 6 1 0) := by decide

/-- R23: the number of `PHASE` inside a session. -/
theorem test_hostStatus_phase : (match step { State.reset with inbox := [.status], sponge := Sponge.fresh 1 } with
    | .next t => t.reply
    | .fault _ => none
    | .refused _ => none) = some (.status 0 0 1) := by decide

/-- Each row of the opcode map, with operand fields of zeros, decodes and runs as the first word after reset. -/
theorem test_every_row_runs :
    opcodeRows.all (fun r => (decodeTableWord 32 r.1.toNat).isSome && (see State.reset r.1.toNat (fun _ => ())).isSome)
      = true := by decide +kernel

/-! ### Witnesses: states and operands that meet the hypotheses of each statement -/

/-- A buffer of n zero bytes. -/
def zeros (n : Nat) : Bytes := List.replicate n 0

theorem length_zeros (n : Nat) : (zeros n).length = n := List.length_replicate

/-- The state whose buffer b0 holds `v`. -/
def holding (v : Bytes) : State := { State.reset with b := State.reset.b.set 0 v }

theorem length_holding (v : Bytes) : ((holding v).getB 0) = v := rfl

theorem witness_EncodeThenDecode : (Instr.zconst 7 1).wellFormed = true := by decide

theorem witness_DecodeThenEncode : decode 0x45700001 = .ok (.zconst 7 1) := by decide

theorem witness_LegalWordsAreTheRows : (0x63000000, 0xFFF8C8FF) ∈ opcodeRows ∧
    (0x63073600 : Word) &&& 0xFFF8C8FF = 0x63000000 := by decide

theorem witness_IllegalWordsRaiseIllegal : ∀ r ∈ opcodeRows, (0x45200002 : Word) &&& r.2 ≠ r.1 := by
  have h : opcodeRows.all (fun r => (0x45200002 : Word) &&& r.2 != r.1) = true := by decide +kernel
  intro r hr
  simpa using List.all_eq_true.1 h r hr

theorem witness_StepRunsDecodedCommand :
    ({ State.reset with inbox := [.command 0x45700001] } : State).inbox = .command 0x45700001 :: [] ∧
    decode 0x45700001 = .ok (.zconst 7 1) ∧ (Instr.zconst 7 1).wellFormed = true ∧
    ({ State.reset with inbox := [.command 0x45700002] } : State).inbox = .command 0x45700002 :: [] ∧
    ∀ i : Instr, decode 0x45700002 ≠ .ok i := by
  refine ⟨rfl, by decide, rfl, rfl, fun i h => ?_⟩
  have : decode 0x45700002 = .error (.mustBeZero 0x45) := by decide
  rw [this] at h
  cases h

theorem witness_HostActionsDoTheirEffect :
    ({ State.reset with inbox := [.write 7 (zeros 65535)] } : State).inbox = [.write 7 (zeros 65535)] ∧
    (zeros 65535).length ≤ 65535 ∧
    ({ State.reset with inbox := [.write 7 (zeros 65536)] } : State).inbox = [.write 7 (zeros 65536)] ∧
    65535 < (zeros 65536).length ∧
    ({ State.reset with inbox := [.read 7, .status] } : State).inbox = .read 7 :: [.status] ∧
    ({ State.reset with inbox := [.status] } : State).inbox = [.status] ∧
    ({ State.reset with inbox := [.reset, .read 0] } : State).inbox = .reset :: [.read 0] ∧
    State.reset.inbox = [] := by
  refine ⟨rfl, (length_zeros 65535).le, rfl, ?_, rfl, rfl, rfl, rfl⟩
  rw [length_zeros]
  decide

theorem witness_StepKeepsTheInvariant :
    State.Inv { State.reset with inbox := [.command 0x13000000] } ∧
    ∃ t, step { State.reset with inbox := [.command 0x13000000] } = .next t :=
  ⟨State.reset_inv (by simp [inboxOk]) none, _, rfl⟩

theorem witness_EveryStepCompletes : State.Inv { State.reset with inbox := [.status] } :=
  State.reset_inv (by simp [inboxOk]) none

theorem witness_ErrorsArePrecise : ∃ t, exec .final State.reset = .next t ∧ t.st ≠ .ok := ⟨_, rfl, by decide⟩

theorem witness_FlagWritersAndReaders :
    (writesVF .kclr = false ∧ ∃ t, exec .kclr State.reset = .next t) ∧
    (writesVF (.zeq 0 0) = true ∧ ∃ t, exec (.zeq 0 0) State.reset = .next t) := ⟨⟨rfl, _, rfl⟩, ⟨rfl, _, rfl⟩⟩

theorem witness_BufferFrame : (∃ t, exec (.bclr 0) State.reset = .next t) ∧ Instr.bclr 0 ≠ .zeroize ∧
    destB (.bclr 0) ≠ some 7 := ⟨⟨_, rfl⟩, by decide, by decide⟩

theorem witness_IntegerFrame : (∃ t, exec (.zli 0 5) State.reset = .next t) ∧ Instr.zli 0 5 ≠ .zeroize ∧
    (7 : ZReg) ∉ destZ (.zli 0 5) := ⟨⟨_, rfl⟩, by decide, by decide⟩

theorem witness_PointFrame : (∃ t, exec (.pbase 0) State.reset = .next t) ∧ Instr.pbase 0 ≠ .zeroize ∧
    destP (.pbase 0) ≠ some 3 := ⟨⟨_, rfl⟩, by decide, by decide⟩

/-- One command for each clause, each with a next state: NOP, PERMUTE, ABSORB, FINAL, SQUEEZE. -/
theorem witness_SpongeAndLengthFrame :
    (∃ t, exec .nop State.reset = .next t) ∧ isStreaming .nop = false ∧ isOneShot .nop = false ∧
    writesLanesOnly .nop = false ∧ (∃ t, exec .permute State.reset = .next t) ∧ writesLanesOnly .permute = true ∧
    (∃ t, exec (.absorb 0) { State.reset with sponge := Sponge.fresh 0 } = .next t ∧ t.st = .ok) ∧
    (∃ t, exec .final { State.reset with sponge := Sponge.fresh 0 } = .next t ∧ t.st = .ok) ∧
    (∃ t, exec (.squeeze 0 0) { State.reset with sponge := { Sponge.discarded with phase := .squeeze } } = .next t ∧
      t.st = .ok) :=
  ⟨⟨_, rfl⟩, rfl, rfl, rfl, ⟨_, rfl⟩, rfl, ⟨_, rfl, rfl⟩, ⟨_, rfl, rfl⟩, ⟨_, rfl, rfl⟩⟩

theorem witness_ErrorCodesByCommand : (Instr.sinit 6).wellFormed = true ∧
    ∃ t, exec (.sinit 6) State.reset = .next t ∧ t.st ≠ .ok := ⟨rfl, _, rfl, by decide⟩

/-- BCAT at 65535 bytes and at 65536. -/
theorem witness_SystemAndBufferCommands :
    ((holding (zeros 65535)).getB 0).length + ((holding (zeros 65535)).getB 1).length ≤ 65535 ∧
    65535 < ((holding (zeros 32768)).getB 0).length + ((holding (zeros 32768)).getB 0).length := by
  constructor
  · have h : (holding (zeros 65535)).getB 1 = [] := rfl
    rw [length_holding, h, length_zeros]
    decide
  · simp only [length_holding, length_zeros]
    decide

theorem witness_StateLoadAndStore : ((holding (zeros 200)).getB 0).length = 200 ∧
    ((holding (zeros 199)).getB 0).length ≠ 200 ∧ ((holding (zeros 201)).getB 0).length ≠ 200 := by
  simp only [length_holding, length_zeros]
  decide

theorem witness_SinitOpensASession : (5 : BitVec 24).toNat ≤ 5 ∧ 5 < (6 : BitVec 24).toNat := by decide

theorem witness_AbsorbTakesWholeBlocks :
    (Sponge.fresh 0).phase = .absorb ∧ Sponge.discarded.phase ≠ .absorb := by decide

/-- One byte less than a block pending, the most FINAL meets. -/
theorem witness_FinalPadsAndPermutes :
    Sponge.discarded.phase ≠ .absorb ∧ ({ Sponge.fresh 3 with buf := zeros 71 } : Sponge).phase = .absorb ∧
    ({ Sponge.fresh 3 with buf := zeros 71 } : Sponge).buf.length < (Sponge.fresh 3).rate.bytes := by decide

/-- A block wholly put out, the most SQUEEZE meets. -/
theorem witness_SqueezeContinuesTheStream :
    Sponge.discarded.phase ≠ .squeeze ∧ ({ Sponge.discarded with phase := .squeeze, sqpos := 136 } : Sponge).phase = .squeeze ∧
    ({ Sponge.discarded with phase := .squeeze, sqpos := 136 } : Sponge).sqpos ≤ Sponge.discarded.rate.bytes := by decide

theorem witness_SplittingChangesNothing : (Sponge.fresh 0).phase = .absorb ∧
    ({ Sponge.discarded with phase := .squeeze, sqpos := 136 } : Sponge).sqpos ≤ Sponge.discarded.rate.bytes ∧
    (0 : BReg) ≠ 1 ∧ (65535 : BitVec 16).toNat + (0 : BitVec 16).toNat < 2 ^ 16 := by decide

theorem witness_LengthEncodings : 2 ^ 2040 - 1 < 2 ^ 2040 ∧ (int (-1) 0 0).getZ 0 < 0 ∧ (int 0 0 0).getZ 0 = (0 : Nat) ∧
    (int (2 ^ 527 - 1) 0 0).getZ 0 = (2 ^ 527 - 1 : Nat) := by
  set_option exponentiation.threshold 3000 in
  refine ⟨by norm_num, by decide, by decide, by decide +kernel⟩

/-- ENCSTR at 65535 and 65536 bytes, BYTEPAD at width 0 and at a width that fills the buffer. -/
theorem witness_EncstrAndBytepad :
    (leftEncode (8 * 65531) ++ zeros 65531).length ≤ 65535 ∧ 65535 < (leftEncode (8 * 65532) ++ zeros 65532).length ∧
    (0 : BitVec 16) = 0 ∧ (65535 : BitVec 16) ≠ 0 ∧
    (leftEncode 65535 ++ zeros 65532 ++ List.replicate 0 0).length ≤ 65535 ∧
    65535 < (leftEncode 65535 ++ zeros 65533 ++ List.replicate 65534 0).length := by
  have h1 : (leftEncode (8 * 65531)).length = 4 := by decide +kernel
  have h2 : (leftEncode (8 * 65532)).length = 4 := by decide +kernel
  have h3 : (leftEncode 65535).length = 3 := by decide +kernel
  simp only [List.length_append, h1, h2, h3, length_zeros, List.length_replicate]
  decide

theorem witness_SetlenTakesMultiplesOfEight : 8 ∣ (0xFFFFF8 : BitVec 24).toNat ∧ ¬ 8 ∣ (0xFFFFFF : BitVec 24).toNat := by
  decide

theorem witness_Sha3IsTheFixedHash : (512 : BitVec 16).toNat ∈ [224, 256, 384, 512] ∧
    (255 : BitVec 16).toNat ∉ [224, 256, 384, 512] := by decide

/-- OUTLEN at 65535 and at 65536 bytes; empty and not empty strings. -/
theorem witness_XofIsTheCustomizableXof : (524280 : BitVec 24).toNat / 8 ≤ 65535 ∧ 65535 < (524288 : BitVec 24).toNat / 8 ∧
    (State.reset.getB 1 = [] ∧ State.reset.getB 2 = []) ∧ ¬ ((holding [0x53]).getB 0 = [] ∧ State.reset.getB 2 = []) := by
  decide

theorem witness_KmacxIsTheKeyedMac : State.reset.getB 0 = [] ∧ (holding [0x53]).getB 0 ≠ [] ∧
    (524280 : BitVec 24).toNat / 8 ≤ 65535 ∧ 65535 < (524288 : BitVec 24).toNat / 8 := by decide

/-- A one-shot command that completes, one that raises an error, and VERIFY of an empty string. -/
theorem witness_OneShotsIgnoreTheSession :
    isOneShot (.sha3 0 1 256) = true ∧ (∃ t, exec (.sha3 0 1 256) State.reset = .next t ∧ t.st = .ok) ∧
    (∃ t, exec (.sha3 0 1 255) State.reset = .next t ∧ t.st ≠ .ok) ∧
    (isOneShot (.verify 0 0 0) = true ∧ ∃ t, exec (.verify 0 0 0) State.reset = .next t ∧ t.st = .ok) :=
  ⟨rfl, ⟨_, rfl, rfl⟩, ⟨_, rfl, by decide⟩, rfl, _, rfl, rfl⟩

theorem witness_IntegerCodec : ([0x80] : Bytes) ≠ [] ∧ decS [0xFF, 0x80] = -128 ∧ decS (encNat (-128)) = -128 ∧
    (-2 ^ 519 : Int) ≤ -2 ^ 519 ∧ (-2 ^ 519 : Int) ≤ 2 ^ 519 - 1 := by
  refine ⟨by decide, by decide, by decide +kernel, le_refl _, by norm_num⟩

theorem witness_IntegerLoadsAndMoves :
    (1 ≤ ((holding (zeros 1)).getB 0).length ∧ ((holding (zeros 1)).getB 0).length ≤ 66) ∧
    (1 ≤ ((holding (zeros 66)).getB 0).length ∧ ((holding (zeros 66)).getB 0).length ≤ 66) ∧
    ¬ (1 ≤ ((holding []).getB 0).length ∧ ((holding []).getB 0).length ≤ 66) ∧
    ((holding (zeros 65)).getB 0).length ≤ 65 ∧ 65 < ((holding (zeros 66)).getB 0).length := by
  simp only [length_holding, length_zeros]
  decide

theorem witness_IntegerStoresAndCofactor :
    (-2 ^ 519 ≤ (int (-2 ^ 519) 0 0).getZ 0 ∧ (int (-2 ^ 519) 0 0).getZ 0 ≤ 2 ^ 519 - 1) ∧
    2 ^ 519 - 1 < (int (2 ^ 519) 0 0).getZ 0 ∧
    (-2 ^ 527 ≤ 4 * (int (-2 ^ 525) 0 0).getZ 0 ∧ 4 * (int (-2 ^ 525) 0 0).getZ 0 ≤ 2 ^ 527 - 1) ∧
    2 ^ 527 - 1 < 4 * (int (2 ^ 525) 0 0).getZ 0 := by decide +kernel

theorem witness_ModularInverse : (Config.curve.P : Int) ∣ (int 0 0 0).getZ 0 ∧
    ¬ (Config.curve.R : Int) ∣ (int 1 0 0).getZ 0 ∧ Int.gcd ((int 1 0 0).getZ 0) Config.curve.R = 1 := by decide +kernel

theorem witness_ModularLaws : (2 : ZReg) ≠ 1 ∧ ¬ (Config.curve.P : Int) ∣ (int 0 (-1) 0).getZ 1 ∧
    Int.gcd ((int 0 (-1) 0).getZ 1) Config.curve.R = 1 := by decide +kernel

theorem witness_ComparisonsSetTheFlag :
    (int 5 5 0).getZ 0 = (int 5 5 0).getZ 1 ∧ (int 0 5 0).getZ 0 ≠ (int 0 5 0).getZ 1 ∧
    ((pts (.affine 1 0) .identity).getP 0).wf Config.curve ∧ ((pts (.affine 1 0) .identity).getP 1).wf Config.curve ∧
    ¬ ((Point.affine 1 0).x = Point.identity.x ∧ (Point.affine 1 0).y = Point.identity.y) := by decide +kernel

theorem witness_CurveConstants : (0 : BitVec 16) = 0 ∧ (1 : BitVec 16) = 1 ∧ 2 ≤ (2 : BitVec 16).toNat := by decide

theorem witness_PointMoves : State.reset.getP 0 = .identity ∧ (pts (.affine 1 0) .identity).getP 0 = .affine 1 0 ∧
    ((pts (.affine 1 0) .identity).getP 0).wf Config.curve ∧ (State.reset.getP 0).wf Config.curve := by decide +kernel

/-- (0, 1), (1, 0), and coordinates that are not reduced. -/
theorem witness_PsetChecksThePoint :
    (let x : Int := 0
     let y : Int := 1
     (0 ≤ x ∧ x < (Config.curve.P : Int)) ∧ (0 ≤ y ∧ y < (Config.curve.P : Int)) ∧
       (Config.curve.P : Int) ∣ (1 + Config.curve.d * x ^ 2 * y ^ 2) - (x ^ 2 + y ^ 2)) ∧
    (let x : Int := 1
     let y : Int := 0
     ((0 ≤ x ∧ x < (Config.curve.P : Int)) ∧ (0 ≤ y ∧ y < (Config.curve.P : Int)) ∧
       (Config.curve.P : Int) ∣ (1 + Config.curve.d * x ^ 2 * y ^ 2) - (x ^ 2 + y ^ 2)) ∧ ¬ (x = 0 ∧ y = 1)) ∧
    ¬ ((Config.curve.P : Int) + 4 < Config.curve.P) := by decide +kernel

theorem witness_PnegMirrorsThePoint : ((pts (.affine 1 0) .identity).getP 0).wf Config.curve ∧
    (State.reset.getP 0).wf Config.curve := by decide +kernel

theorem witness_PaddSolvesTheAdditionLaw :
    ¬ (((pts (.affine 2 2) .identity).getP 0).onCurve Config.curve = true ∧
      ((pts (.affine 2 2) .identity).getP 1).onCurve Config.curve = true) ∧
    (basePoint Config.curve).onCurve Config.curve = true ∧ (Point.affine 1 0).onCurve Config.curve = true := by
  decide +kernel

theorem witness_GroupIdentities : ((pts (.affine 1 0) .identity).getP 0).wf Config.curve ∧
    ((pts (.affine 1 0) .identity).getP 1).wf Config.curve ∧ (pts (.affine 1 0) .identity).getP 1 = .identity ∧
    (1 : PReg) ≠ 0 := by decide +kernel

theorem witness_SmulScansTheScalar : ((pts (.affine 2 2) .identity).getP 0).onCurve Config.curve = false ∧
    (basePoint Config.curve).wf Config.curve := by decide +kernel

theorem witness_SmulIsRepeatedAddition : (basePoint Config.curve).wf Config.curve := by decide +kernel

theorem witness_SignatureCodec :
    (-2 ^ 519 ≤ (int (-2 ^ 519) (2 ^ 519 - 1) 0).getZ 0 ∧ (int (-2 ^ 519) (2 ^ 519 - 1) 0).getZ 1 ≤ 2 ^ 519 - 1) ∧
    ¬ ((int (2 ^ 519) 0 0).getZ 0 ≤ 2 ^ 519 - 1) ∧ (2 : ZReg) ≠ 3 ∧ ((holding (zeros 130)).getB 0).length = 130 ∧
    ((holding (zeros 129)).getB 0).length ≠ 130 := by decide +kernel

/-- The challenge that the empty message gives for the commitment `Identity`. -/
def challengeOfIdentity : Nat := decU (kmacxof256 (encNat 0) [] 512 [0x54])

theorem padd_identity_identity : padd Config.curve .identity .identity = .identity := by decide +kernel

theorem smulBits_identity (k i : Nat) : smulBits Config.curve .identity k i .identity = .identity := by
  induction i with
  | zero => rfl
  | succ i ih =>
    rw [smulBits, padd_identity_identity]
    split
    · rw [padd_identity_identity, ih]
    · exact ih

theorem smul_identity (k : Nat) : smul Config.curve .identity k = .identity := by
  rw [smul, if_neg (by exact not_lt.2 (Int.natCast_nonneg k))]
  exact smulBits_identity _ _

/-- The public point `Identity`: 0 G + h V is `Identity` for every h, so the string h, 0 verifies for h its challenge and
does not for h = 0. A string of 129 bytes and a public point off the curve for the other clauses. -/
theorem witness_VerifyRecomputesTheChallenge :
    (enc65 challengeOfIdentity ++ zeros 65).length = 130 ∧
    decS ((enc65 challengeOfIdentity ++ zeros 65).take 65) = challengeOfIdentity ∧
    decS ((enc65 challengeOfIdentity ++ zeros 65).drop 65) = 0 ∧
    padd Config.curve (smul Config.curve (basePoint Config.curve) 0) (smul Config.curve .identity challengeOfIdentity)
      = .identity ∧
    challengeOfIdentity ≠ 0 ∧ (zeros 129).length ≠ 130 ∧ (Point.affine 2 2).onCurve Config.curve = false := by
  refine ⟨by decide +kernel, by decide +kernel, by decide +kernel, ?_, by decide +kernel, by decide +kernel,
    by decide +kernel⟩
  rw [smul_identity]
  exact padd_identity_identity

theorem witness_SignedMessagesVerify : (1 : BReg) ≠ 0 := by decide

theorem witness_StepMappingsBitByBit : 63 < 64 ∧ ((4, 4) : Fin 5 × Fin 5) ≠ (0, 0) := by decide

end Sys2Proof.Tests
end

section
/-! SUPPORT. What a command can end in, said once for all 51 commands (10_state.md R35, 60_exceptions.md R292). -/

namespace Sys2Proof.Machine

open Sys2Proof

/-! ### The values the commands write fit the registers -/

theorem length_rightEncode_le {n : Int} (h : fitsZ n = true) (h0 : 0 ≤ n) : (rightEncode n.toNat).length ≤ 67 := by
  simpa using length_leftEncode_le h h0

@[simp] theorem length_cshake256 (X : Bytes) (L : Nat) (N C : Bytes) : (cshake256 X L N C).length = L / 8 := by
  unfold cshake256
  split <;> simp

@[simp] theorem length_kmacxof256 (K X : Bytes) (L : Nat) (C : Bytes) : (kmacxof256 K X L C).length = L / 8 := by
  simp [kmacxof256]

@[simp] theorem length_schnorrSign (c : Curve) (sc : Int) (m : Bytes) : (schnorrSign c sc m).length = 130 := by
  simp [schnorrSign]

theorem fitsZ_imm16 (v : BitVec 16) : fitsZ (v.toNat : Int) = true := by
  apply fitsZ_of_range (Int.natCast_nonneg _)
  have := v.isLt
  omega

theorem fitsZ_constSel {sel : BitVec 16} {v : Int} (h : constSel sel = some v) : fitsZ v = true := by
  unfold constSel at h
  split at h
  · obtain rfl := Option.some.inj h
    decide +kernel
  · split at h
    · obtain rfl := Option.some.inj h
      decide +kernel
    · cases h

theorem fitsZ_invMod (m : Modulus) (x : Int) : fitsZ (invMod (modulus m) x) = true := by
  obtain ⟨h0, h1⟩ := invMod_range (modulus_pos m) x
  exact fitsZ_of_range h0 (h1.trans (by exact_mod_cast modulus_le m))

/-- Both halves of a signature that decodes fit an integer register. -/
theorem fitsZ_decodeSignature {sig : Bytes} {h z : Int} (hd : decodeSignature sig = some (h, z)) :
    fitsZ h = true ∧ fitsZ z = true := by
  unfold decodeSignature at hd
  split at hd
  · next hl =>
    obtain ⟨rfl, rfl⟩ := Prod.mk.inj (Option.some.inj hd)
    have ht : (sig.take 65).length = 65 := by simp [hl]
    have hr : (sig.drop 65).length = 65 := by simp [hl]
    exact ⟨fitsZ_decS (List.ne_nil_of_length_pos (by omega)) (by omega),
      fitsZ_decS (List.ne_nil_of_length_pos (by omega)) (by omega)⟩
  · cases hd

/-- The normal form of coordinates that PSET accepts is a point a register may hold (R235). -/
theorem norm_wf {c : Curve} {x y : Int} (h : (inField c x && inField c y && onCurveXY c x y) = true) :
    (norm x y).wf c := by
  refine ⟨?_, norm_ne x y⟩
  unfold norm
  split
  · rfl
  · exact h

/-! ### The ends of a command -/

/-- The states in which the command `i` can end when it runs from `s`: one of its errors, or its result in the
destinations of R35. Where the invariant of `s` bounds the value written, the bound stands beside it. -/
inductive Ends (i : Instr) (s : State) : State → Prop
  | error {e : Status} (he : e ∈ errorsOf i) : Ends i s { s with st := e }
  | nop (hi : i = .nop) : Ends i s { s with st := .ok }
  | zeroize (hi : i = .zeroize) : Ends i s { State.reset with inbox := s.inbox, reply := s.reply }
  | buffer {bd : BReg} {v : Bytes} (hd : destB i = some bd) (hv : s.Inv → v.length ≤ Config.bmax) :
      Ends i s { s.setB bd v with st := .ok }
  | integer {zd : ZReg} {n : Int} (hd : destZ i = [zd]) (hn : s.Inv → fitsZ n = true) :
      Ends i s { s.setZ zd n with st := .ok }
  | integers {zd ze : ZReg} {m n : Int} (hd : destZ i = [zd, ze]) (hm : fitsZ m = true) (hn : fitsZ n = true) :
      Ends i s { (s.setZ zd m).setZ ze n with st := .ok }
  | point {pd : PReg} {T : Point} (hd : destP i = some pd) (hT : s.Inv → T.wf Config.curve) :
      Ends i s { s.setP pd T with st := .ok }
  | flag {v : Bool} (hi : writesVF i = true) : Ends i s { s.setVF v with st := .ok }
  | lanes {A : KState} (hi : writesLanesOnly i = true) : Ends i s { s.setA A with st := .ok }
  | outlen {bits : BitVec 24} (hi : i = .setlen bits) (hb : bits.toNat % 8 = 0) :
      Ends i s { s.setOutlen bits with st := .ok }
  | sinit {mode : BitVec 24} {m : Fin 6} (hi : i = .sinit mode) :
      Ends i s { s.setSponge (Sponge.fresh m) with st := .ok }
  | absorb {ba : BReg} (hi : i = .absorb ba) (hp : s.sponge.phase = .absorb) :
      Ends i s { s.setSponge (s.sponge.absorb (s.getB ba)) with st := .ok }
  | final (hi : i = .final) : Ends i s { s.setSponge s.sponge.final with st := .ok }
  | squeeze {bd : BReg} {n : BitVec 16} (hi : i = .squeeze bd n) (hp : s.sponge.phase = .squeeze)
      (hn : n.toNat ≤ Config.bmax) :
      Ends i s { (s.setSponge (s.sponge.squeeze n.toNat).2).setB bd (s.sponge.squeeze n.toNat).1 with st := .ok }
  | oneShot {bd : BReg} {v : Bytes} (hi : isOneShot i = true) (hd : destB i = some bd) (hv : v.length ≤ Config.bmax) :
      Ends i s { s.discardCtx.setB bd v with st := .ok }
  | verify {v : Bool} (hi : isOneShot i = true) (hf : writesVF i = true) :
      Ends i s { s.discardCtx.setVF v with st := .ok }

/-- Every next state of the result `r` is an end of the command. -/
def EndsIn (i : Instr) (s : State) (r : Result) : Prop := ∀ t, r = .next t → Ends i s t

section
variable {i : Instr} {s : State}

theorem EndsIn.complete {u : State} (h : Ends i s { u with st := .ok }) : EndsIn i s (complete u) :=
  fun t ht => (complete_eq_next u t).1 ht ▸ h

theorem EndsIn.raise {e : Status} (he : e ∈ errorsOf i := by simp [errorsOf]) : EndsIn i s (raise e s) :=
  fun t ht => (raise_eq_next e s t).1 ht ▸ .error he

theorem EndsIn.refused {r : Refusal} : EndsIn i s (.refused r) := fun _ h => nomatch h

theorem EndsIn.ite {p : Prop} [Decidable p] {a b : Result} (ha : p → EndsIn i s a) (hb : ¬ p → EndsIn i s b) :
    EndsIn i s (if p then a else b) := by
  split
  · exact ha ‹_›
  · exact hb ‹_›

theorem EndsIn.storeBounded {bd : BReg} {v : Bytes} (hd : destB i = some bd)
    (he : .overflow ∈ errorsOf i := by simp [errorsOf]) : EndsIn i s (storeBounded bd v s) :=
  .ite (fun _ => .raise he) fun hv => .complete (.buffer hd fun _ => not_lt.1 hv)

theorem EndsIn.storeResidue {m : Modulus} {zd : ZReg} {n : Int} (hd : destZ i = [zd]) :
    EndsIn i s (storeResidue m zd n s) := .complete (.integer hd fun _ => fitsZ_residue m n)

theorem EndsIn.sha3 (bd ba : BReg) (bits : BitVec 16) : EndsIn (.sha3 bd ba bits) s (execSha3 bd ba bits s) := by
  unfold execSha3
  split
  · exact .raise
  · exact .complete (.oneShot rfl rfl (by have := bits.isLt; rw [length_oneShot, Config.bmax]; omega))

theorem EndsIn.zconst (zd : ZReg) (sel : BitVec 16) : EndsIn (.zconst zd sel) s (execZconst zd sel s) := by
  unfold execZconst
  split
  · exact .complete (.integer rfl fun _ => fitsZ_constSel ‹_›)
  · next h =>
    refine .raise ?_
    have hs : ¬ sel.toNat < 2 := fun hlt => by
      have h01 : sel = 0 ∨ sel = 1 := by bv_omega
      rcases h01 with rfl | rfl <;> cases h
    simp [errorsOf, hs]

theorem EndsIn.decsig (zd ze : ZReg) (bb : BReg) : EndsIn (.decsig zd ze bb) s (execDecsig zd ze bb s) := by
  unfold execDecsig
  split
  · exact .raise
  · next hd => exact .complete (.integers rfl (fitsZ_decodeSignature hd).1 (fitsZ_decodeSignature hd).2)

theorem EndsIn.sinit (mode : BitVec 24) : EndsIn (.sinit mode) s (execSinit mode s) := by
  unfold execSinit
  split
  · exact .raise
  · exact .complete (.sinit rfl)

end

/-- A buffer value of at most 200 bytes fits a buffer. -/
theorem le_bmax_of_le_200 {n : Nat} (h : n ≤ 200) : n ≤ Config.bmax := h.trans (by decide)

/-- Whatever a command answers as a next state is one of its ends. -/
theorem exec_endsIn (i : Instr) (s : State) : EndsIn i s (exec i s) := by
  cases i with
  | nop => exact .complete (.nop rfl)
  | zeroize => exact .complete (.zeroize rfl)
  | bclr bd => exact .complete (.buffer rfl fun _ => Nat.zero_le _)
  | bmov bd ba => exact .complete (.buffer rfl fun h => h.buffers ba)
  | bcat bd ba bb => exact .storeBounded rfl
  | kclr => exact .complete (.lanes rfl)
  | kld ba => exact .ite (fun _ => .raise) fun _ => .complete (.lanes rfl)
  | kst bd => exact .complete (.buffer rfl fun _ => le_bmax_of_le_200 (by simp))
  | permute => exact .complete (.lanes rfl)
  | sinit mode => exact .sinit mode
  | absorb ba =>
    exact .ite (fun _ => .raise) fun hp => .complete (.absorb rfl (not_not.1 hp))
  | final => exact .ite (fun _ => .raise) fun _ => .complete (.final rfl)
  | squeeze bd n =>
    exact .ite (fun _ => .raise) fun hp => .ite (fun _ => .raise) fun hn =>
      .complete (.squeeze rfl (not_not.1 hp) (not_lt.1 hn))
  | lenc bd za =>
    exact .ite (fun _ => .raise) fun h0 => .complete (.buffer rfl fun h =>
      le_bmax_of_le_200 ((length_leftEncode_le (h.integers za) (not_lt.1 h0)).trans (by decide)))
  | renc bd za =>
    exact .ite (fun _ => .raise) fun h0 => .complete (.buffer rfl fun h =>
      le_bmax_of_le_200 ((length_rightEncode_le (h.integers za) (not_lt.1 h0)).trans (by decide)))
  | encstr bd ba => exact .storeBounded rfl
  | bytepad bd ba w =>
    exact .ite (fun _ => .raise) fun _ => .storeBounded rfl
  | setlen bits =>
    exact .ite (fun _ => .raise) fun hb => .complete (.outlen rfl (not_not.1 hb))
  | sha3 bd ba bits => exact .sha3 bd ba bits
  | xof bd ba bb bc =>
    exact .ite (fun _ => .raise) fun hl => .complete (.oneShot rfl rfl (by simpa using hl))
  | kmacx bd ba bb bc =>
    exact .ite (fun _ => .raise) fun _ => .ite (fun _ => .raise) fun hl =>
      .complete (.oneShot rfl rfl (by simpa using hl))
  | zli zd value => exact .complete (.integer rfl fun _ => fitsZ_imm16 value)
  | zlds zd ba =>
    exact .ite (fun _ => .raise) fun hl => .complete (.integer rfl fun _ =>
      fitsZ_decS (List.ne_nil_of_length_pos (by omega)) (by omega))
  | zldu zd ba =>
    exact .ite (fun _ => .raise) fun hl =>
      .complete (.integer rfl fun _ => fitsZ_decU (not_lt.1 hl))
  | zst bd za =>
    exact .complete (.buffer rfl fun h => le_bmax_of_le_200 (by
      have := encNatLen_le_66 (h.integers za)
      rw [length_encNat]
      omega))
  | zst65 bd za =>
    exact .ite (fun _ => .complete (.buffer rfl fun _ => le_bmax_of_le_200 (by simp)))
      fun _ => .raise
  | zconst zd sel => exact .zconst zd sel
  | zmov zd za => exact .complete (.integer rfl fun h => h.integers za)
  | zmul4 zd za =>
    exact .ite (fun hf => .complete (.integer rfl fun _ => hf)) fun _ => .raise
  | zred m zd za => exact .storeResidue rfl
  | zeq za zb => exact .complete (.flag rfl)
  | madd m zd za zb => exact .storeResidue rfl
  | msub m zd za zb => exact .storeResidue rfl
  | mmul m zd za zb => exact .storeResidue rfl
  | mneg m zd za => exact .storeResidue rfl
  | minv m zd za =>
    exact .ite (fun _ => .raise) fun _ => .complete (.integer rfl fun _ => fitsZ_invMod m _)
  | pid pd => exact .complete (.point rfl fun _ => identity_wf)
  | pbase pd => exact .complete (.point rfl fun _ => basePoint_wf)
  | pset pd za zb =>
    exact .ite (fun hc => .complete (.point rfl fun _ => norm_wf hc)) fun _ => .raise
  | pgetx zd pa => exact .complete (.integer rfl fun h => (fitsZ_coords (h.points pa).1).1)
  | pgety zd pa => exact .complete (.integer rfl fun h => (fitsZ_coords (h.points pa).1).2)
  | pmov pd pa => exact .complete (.point rfl fun h => h.points pa)
  | pneg pd pa => exact .complete (.point rfl fun h => pneg_wf config_complete (h.points pa).1)
  | peq pa pb => exact .complete (.flag rfl)
  | padd pd pa pb =>
    exact .ite (fun _ => .complete (.point rfl fun h => padd_wf config_complete (h.points pa).1 (h.points pb).1))
      fun _ => .refused
  | pdbl pd pa =>
    exact .ite (fun hT => .complete (.point rfl fun _ => padd_wf config_complete hT hT)) fun _ => .refused
  | smul pd pa zb =>
    exact .ite (fun hT => .complete (.point rfl fun _ => smul_wf config_complete hT _)) fun _ => .refused
  | encsig bd za zb =>
    exact .ite (fun _ => .complete (.buffer rfl fun _ => le_bmax_of_le_200 (by simp)))
      fun _ => .raise
  | decsig zd ze bb => exact .decsig zd ze bb
  | sign bd za bb => exact .complete (.oneShot rfl rfl (le_bmax_of_le_200 (by simp)))
  | verify ba pb bc =>
    exact .ite (fun _ => .complete (.flag rfl)) fun _ => .ite (fun _ => .complete (.verify rfl rfl)) fun _ => .refused

end Sys2Proof.Machine
end

section
/-! SUPPORT. The invariant of the state, kept by every step, and what each command leaves unchanged (10_state.md R23 to
R35), from the ends of a command. -/

namespace Sys2Proof.Machine

open Sys2Proof

/-! ### The step, by the inbox -/

/-- With an action to come, the step is that action on the state whose inbox holds the others. -/
theorem step_of_inbox {s : State} {a : HostAction} {rest : List HostAction} (h : s.inbox = a :: rest) :
    step s = hostAct a { s with inbox := rest } := by
  rw [step, h]

/-- With no action to come the machine waits. -/
theorem step_of_inbox_nil {s : State} (h : s.inbox = []) : step s = .next s := by
  rw [step, h]

/-! ### The invariant -/

theorem State.Inv.setReply {s : State} (h : s.Inv) (r : Option HostReply) : State.Inv { s with reply := r } where
  sponge := h.sponge
  outlen := h.outlen
  buffers := h.buffers
  integers := h.integers
  points := h.points
  inbox := h.inbox

/-- From a state that meets the invariant a command ends in one that meets it. -/
theorem Ends.inv {i : Instr} {s t : State} (h : s.Inv) (he : Ends i s t) : t.Inv := by
  cases he with
  | error _ => exact h.setSt _
  | nop _ => exact h.setSt _
  | zeroize _ => exact State.reset_inv h.inbox _
  | buffer _ hv => exact (h.setB _ (hv h)).setSt _
  | integer _ hn => exact (h.setZ _ (hn h)).setSt _
  | integers _ hm hn => exact ((h.setZ _ hm).setZ _ hn).setSt _
  | point _ hT => exact (h.setP _ (hT h)).setSt _
  | flag _ => exact (h.setVF _).setSt _
  | lanes _ => exact (h.setA _).setSt _
  | outlen _ hb => exact (h.setOutlen hb).setSt _
  | sinit _ => exact (h.setSponge (Sponge.fresh_inv _)).setSt _
  | absorb _ hp => exact (h.setSponge (Sponge.absorb_inv h.sponge hp _)).setSt _
  | final _ => exact (h.setSponge (Sponge.final_inv h.sponge)).setSt _
  | squeeze _ hp hn =>
    have hl := Sponge.length_squeeze h.sponge.sqpos_le
    exact ((h.setSponge (Sponge.squeeze_inv h.sponge hp _)).setB _ ((hl _).trans_le hn)).setSt _
  | oneShot _ _ hv => exact (h.discardCtx.setB _ hv).setSt _
  | verify _ _ => exact (h.discardCtx.setVF _).setSt _

theorem exec_inv {i : Instr} {s t : State} (h : s.Inv) (he : exec i s = .next t) : t.Inv :=
  (exec_endsIn i s t he).inv h

/-- Executing a word, legal or not, keeps the invariant. -/
theorem runWord_inv {w : Word} {s t : State} (h : s.Inv) (he : runWord w s = .next t) : t.Inv := by
  unfold runWord at he
  split at he
  · exact exec_inv h he
  · obtain rfl := (raise_eq_next _ _ _).1 he
    exact h.setSt _

/-- A host action whose data the port can express keeps the invariant. -/
theorem hostAct_inv {a : HostAction} {s t : State} (h : s.Inv) (ha : inboxOk [a]) (he : hostAct a s = .next t) :
    t.Inv := by
  have hn : s.noReply.Inv := h.setReply none
  cases a with
  | write i v =>
    have hv : v.length ≤ Config.bmax := ha _ (List.mem_singleton_self _)
    obtain rfl := Host.Outcome.next.inj ((if_pos hv).symm.trans he)
    exact hn.setB i hv
  | read i =>
    obtain rfl := Host.Outcome.next.inj he
    exact h.setReply _
  | status =>
    obtain rfl := Host.Outcome.next.inj he
    exact h.setReply _
  | command w => exact runWord_inv hn he
  | reset =>
    obtain rfl := Host.Outcome.next.inj he
    exact State.reset_inv h.inbox none

theorem step_inv {s t : State} (h : s.Inv) (he : step s = .next t) : t.Inv := by
  cases hi : s.inbox with
  | nil =>
    rw [step_of_inbox_nil hi] at he
    exact Host.Outcome.next.inj he ▸ h
  | cons a rest =>
    have ha : inboxOk [a] := fun b hb => h.inbox b (by rw [hi, List.mem_singleton.1 hb]; exact List.mem_cons_self)
    rw [step_of_inbox hi] at he
    exact hostAct_inv (h.takeAction hi s.reply) ha he

/-- Settles O11: a command ends in a state of `Ends`, whose values fit, and the host actions keep the invariant. -/
theorem stepKeepsTheInvariant : Obligations.StepKeepsTheInvariant := fun _ _ h he => step_inv h he

/-- Settles O10: the reset state with no action to come. -/
theorem resetMeetsTheInvariant : Obligations.ResetMeetsTheInvariant :=
  State.reset_inv (as := []) (fun _ hb => nomatch hb) none

/-! ### The frame of each file -/

/-- A command that is not ZEROIZE writes no buffer but its destination. -/
theorem Ends.read_b {i : Instr} {s t : State} (he : Ends i s t) (hz : i ≠ .zeroize) {j : BReg} (hj : destB i ≠ some j)
    (off : Nat) : Memory.read t.b j off = Memory.read s.b j off := by
  have hne {bd : BReg} (hd : destB i = some bd) : bd ≠ j := fun e => hj (e ▸ hd)
  cases he with
  | zeroize hi => exact absurd hi hz
  | buffer hd _ => exact Memory.read_setB_ne _ _ (hne hd) off
  | squeeze hi _ _ => exact Memory.read_setB_ne (s.setSponge _) _ (hne (hi ▸ rfl)) off
  | oneShot _ hd _ => exact Memory.read_setB_ne s.discardCtx _ (hne hd) off
  | _ => rfl

/-- A command that is not ZEROIZE writes no integer register but its destinations. -/
theorem Ends.getZ {i : Instr} {s t : State} (he : Ends i s t) (hz : i ≠ .zeroize) {j : ZReg} (hj : j ∉ destZ i) :
    t.getZ j = s.getZ j := by
  cases he with
  | zeroize hi => exact absurd hi hz
  | @integer zd n hd _ =>
    have hne : zd ≠ j := by rintro rfl; simp [hd] at hj
    exact s.getZ_setZ_ne n hne
  | @integers zd ze m n hd _ _ =>
    obtain ⟨hd', he'⟩ : zd ≠ j ∧ ze ≠ j := by simpa [hd, eq_comm] using hj
    exact ((s.setZ zd m).getZ_setZ_ne n he').trans (s.getZ_setZ_ne m hd')
  | _ => rfl

/-- A command that is not ZEROIZE writes no point register but its destination. -/
theorem Ends.getP {i : Instr} {s t : State} (he : Ends i s t) (hz : i ≠ .zeroize) {j : PReg} (hj : destP i ≠ some j) :
    t.getP j = s.getP j := by
  cases he with
  | zeroize hi => exact absurd hi hz
  | @point pd T hd _ => exact s.getP_setP_ne T fun e => hj (e ▸ hd)
  | _ => rfl

theorem Ends.vf {i : Instr} {s t : State} (he : Ends i s t) (hw : writesVF i = false) : t.vf = s.vf := by
  cases he with
  | zeroize hi => cases hi; cases hw
  | flag hi => rw [hi] at hw; cases hw
  | verify _ hf => rw [hf] at hw; cases hw
  | _ => rfl

/-- Settles O16, from the ends of a command. -/
theorem bufferFrame : Obligations.BufferFrame := fun i s t _ off h hz hj => (exec_endsIn i s t h).read_b hz hj off

/-- Settles O17, from the ends of a command. -/
theorem integerFrame : Obligations.IntegerFrame := fun i s t _ h hz hj => (exec_endsIn i s t h).getZ hz hj

/-- Settles O18, from the ends of a command. -/
theorem pointFrame : Obligations.PointFrame := fun i s t _ h hz hj => (exec_endsIn i s t h).getP hz hj

/-! ### The frame of the sponge, of OUTLEN and of the host's fields -/

/-- Outside the streaming and the one-shot commands only the lanes of the sponge can change. -/
theorem Ends.sponge_eq_setA {i : Instr} {s t : State} (he : Ends i s t) (hz : i ≠ .zeroize)
    (hs : isStreaming i = false) (ho : isOneShot i = false) : t.sponge = { s.sponge with A := t.sponge.A } := by
  cases he with
  | zeroize hi => exact absurd hi hz
  | sinit hi | absorb hi | final hi | squeeze hi => subst hi; cases hs
  | oneShot hi | verify hi => cases hi.symm.trans ho
  | _ => rfl

/-- There the raw state commands alone change the lanes. -/
theorem Ends.sponge_eq {i : Instr} {s t : State} (he : Ends i s t) (hz : i ≠ .zeroize) (hs : isStreaming i = false)
    (ho : isOneShot i = false) (hl : writesLanesOnly i = false) : t.sponge = s.sponge := by
  cases he with
  | zeroize hi => exact absurd hi hz
  | lanes hi => cases hi.symm.trans hl
  | sinit hi | absorb hi | final hi | squeeze hi => subst hi; cases hs
  | oneShot hi | verify hi => cases hi.symm.trans ho
  | _ => rfl

theorem Ends.sponge_absorb {ba : BReg} {s t : State} (he : Ends (.absorb ba) s t) :
    t.sponge = { s.sponge with A := t.sponge.A, buf := t.sponge.buf } := by
  cases he with
  | zeroize hi | sinit hi | final hi | squeeze hi | oneShot hi | verify hi => cases hi
  | _ => rfl

theorem Ends.sponge_final {s t : State} (he : Ends .final s t) :
    t.sponge.rate = s.sponge.rate ∧ t.sponge.sfx = s.sponge.sfx := by
  cases he with
  | zeroize hi | sinit hi | absorb hi | squeeze hi | oneShot hi | verify hi => cases hi
  | _ => exact ⟨rfl, rfl⟩

theorem Ends.sponge_squeeze {bd : BReg} {n : BitVec 16} {s t : State} (he : Ends (.squeeze bd n) s t) :
    t.sponge = { s.sponge with A := t.sponge.A, sqpos := t.sponge.sqpos } := by
  cases he with
  | zeroize hi | sinit hi | absorb hi | final hi | oneShot hi | verify hi => cases hi
  | _ => rfl

theorem Ends.outlen_eq {i : Instr} {s t : State} (he : Ends i s t) (hz : i ≠ .zeroize) (hl : ∀ bits, i ≠ .setlen bits) :
    t.outlen = s.outlen := by
  cases he with
  | zeroize hi => exact absurd hi hz
  | outlen hi _ => exact absurd hi (hl _)
  | _ => rfl

theorem Ends.hostFields {i : Instr} {s t : State} (he : Ends i s t) : t.inbox = s.inbox ∧ t.reply = s.reply := by
  cases he <;> exact ⟨rfl, rfl⟩

/-- The raw state commands belong to none of the other groups. -/
theorem groups_of_writesLanesOnly {i : Instr} (h : writesLanesOnly i = true) :
    i ≠ .zeroize ∧ isStreaming i = false ∧ isOneShot i = false := by
  cases i with
  | permute | kclr | kld => exact ⟨nofun, rfl, rfl⟩
  | _ => cases h

/-- Settles O19: the frame of the ends of a command, group by group. -/
theorem spongeAndLengthFrame : Obligations.SpongeAndLengthFrame := by
  intro i s t h
  have he := exec_endsIn i s t h
  refine ⟨he.sponge_eq, fun hl => ?_, ?_, ?_, ?_, he.outlen_eq, he.hostFields⟩
  · obtain ⟨hz, hs, ho⟩ := groups_of_writesLanesOnly hl
    exact he.sponge_eq_setA hz hs ho
  · rintro ba rfl
    exact he.sponge_absorb
  · rintro rfl
    exact he.sponge_final
  · rintro bd n rfl
    exact he.sponge_squeeze

end Sys2Proof.Machine
end

section
/-! SUPPORT. What a command does not read: ST, VF and, for the one-shot commands, the sponge (10_state.md R25, R26,
R30); the host actions and the reset values (46_system.md R284, 10_state.md R34). -/

namespace Sys2Proof.Machine

open Sys2Proof

/-! ### ST and VF -/

/-- No arm reads `ST`, and every end of a command overwrites it. -/
theorem exec_setSt (i : Instr) (s : State) (e : Status) : exec i { s with st := e } = exec i s := by
  cases i <;> rfl

theorem Status.code_lt (e : Status) : e.code.toNat < 12 := by cases e <;> decide

/-- Settles O14: no arm of `exec` reads `ST`, and the codes are those of R290. -/
theorem statusIsWrittenNeverRead : Obligations.StatusIsWrittenNeverRead :=
  ⟨exec_setSt, rfl, Status.code_lt, rfl⟩

/-- A change of the next state; a fault or a refusal stays as it is. -/
def mapNext (f : State → State) : Result → Result
  | .next s => .next (f s)
  | .fault r => .fault r
  | .refused r => .refused r

theorem mapNext_ite {f : State → State} {p : Prop} [Decidable p] {a b a' b' : Result} (ha : a' = mapNext f a)
    (hb : b' = mapNext f b) : (if p then a' else b') = mapNext f (if p then a else b) := by
  rw [ha, hb, apply_ite (mapNext f)]

/-- A command that does not write `VF` hands on the `VF` it finds, and its outcome is otherwise the same: no check
and no value written reads the flag. -/
theorem exec_setVF {i : Instr} (hi : writesVF i = false) (s : State) (v : Bool) :
    exec i (s.setVF v) = mapNext (·.setVF v) (exec i s) := by
  cases i with
  | zeq | peq | verify | zeroize => cases hi
  | sinit mode => simp only [exec, execSinit]; split <;> rfl
  | zconst zd sel => simp only [exec, execZconst]; split <;> rfl
  | sha3 bd ba bits => simp only [exec, execSha3]; split <;> rfl
  | decsig zd ze bb => simp only [exec, execDecsig, State.getB_setVF]; split <;> rfl
  | bytepad | squeeze | kmacx => exact mapNext_ite rfl (mapNext_ite rfl rfl)
  | bcat | kld | absorb | final | lenc | renc | encstr | setlen | xof => exact mapNext_ite rfl rfl
  | zlds | zldu | zst65 | zmul4 | minv | pset | padd | pdbl | smul | encsig => exact mapNext_ite rfl rfl
  | _ => rfl

theorem exec_setVF_of_writesVF {i : Instr} (hi : writesVF i = true) (s : State) (v : Bool) :
    exec i (s.setVF v) = exec i s := by
  cases i with
  | zeq | peq | verify | zeroize => rfl
  | _ => cases hi

/-- Settles O15: the writers from the ends of a command, the readers from `exec_setVF`. -/
theorem flagWritersAndReaders : Obligations.FlagWritersAndReaders := by
  refine ⟨fun i s t hw h => (exec_endsIn i s t h).vf hw, fun i s t v h => ?_, rfl⟩
  change exec i (s.setVF v) = _
  cases hw : writesVF i with
  | true => rw [exec_setVF_of_writesVF hw, h]; rfl
  | false => rw [exec_setVF hw, h]; rfl

/-! ### The one-shot commands and the session -/

/-- What R30 says of a one-shot command `i` with the result `r` from `s`, and the result `r'` from `s` with the sponge
`sp`: it completes with the discarded context and the results agree, or it keeps the sponge it finds, which happens in
an error and in VERIFY of a string that has not 130 bytes. -/
def SessionIn (i : Instr) (s : State) (sp : Sponge) (r r' : Result) : Prop :=
  ∀ t, r = .next t →
    (t.sponge = Sponge.discarded ∧ t.st = .ok ∧ r' = .next t) ∨
    (t.sponge = s.sponge ∧ r' = .next (t.setSponge sp) ∧
      (t.st ≠ .ok ∨ ∃ ba pb bc, i = .verify ba pb bc ∧ (s.getB ba).length ≠ 130))

section
variable {i : Instr} {s : State} {sp : Sponge}

theorem SessionIn.raise {e : Status} (he : e ≠ .ok) : SessionIn i s sp (raise e s) (raise e (s.setSponge sp)) := by
  intro t ht
  obtain rfl := (raise_eq_next e s t).1 ht
  exact .inr ⟨rfl, rfl, .inl he⟩

theorem SessionIn.discard {u : State} (hu : u.sponge = Sponge.discarded) :
    SessionIn i s sp (complete u) (complete u) := by
  intro t ht
  obtain rfl := (complete_eq_next u t).1 ht
  exact .inl ⟨hu, rfl, rfl⟩

theorem SessionIn.ite {p : Prop} [Decidable p] {a b a' b' : Result} (ha : p → SessionIn i s sp a a')
    (hb : ¬ p → SessionIn i s sp b b') : SessionIn i s sp (if p then a else b) (if p then a' else b') := by
  split
  · exact ha ‹_›
  · exact hb ‹_›

theorem SessionIn.refused {r : Refusal} {r' : Result} : SessionIn i s sp (.refused r) r' := fun _ h => nomatch h

end

theorem exec_sessionIn {i : Instr} (hi : isOneShot i = true) (s : State) (sp : Sponge) :
    SessionIn i s sp (exec i s) (exec i (s.setSponge sp)) := by
  cases i with
  | sha3 bd ba bits =>
    simp only [exec, execSha3]
    split
    · exact .raise nofun
    · exact .discard rfl
  | xof bd ba bb bc => exact .ite (fun _ => .raise nofun) fun _ => .discard rfl
  | kmacx bd ba bb bc =>
    exact .ite (fun _ => .raise nofun) fun _ => .ite (fun _ => .raise nofun) fun _ => .discard rfl
  | sign bd za bb => exact .discard rfl
  | verify ba pb bc =>
    refine .ite (fun hl => ?_) fun _ => .ite (fun _ => .discard rfl) fun _ => .refused
    intro t ht
    obtain rfl := (complete_eq_next _ t).1 ht
    exact .inr ⟨rfl, rfl, .inr ⟨ba, pb, bc, rfl, hl⟩⟩
  | _ => cases hi

theorem exec_absorb_of_phase {s : State} (h : s.sponge.phase ≠ .absorb) (ba : BReg) :
    exec (.absorb ba) s = .next { s with st := .phase } := if_pos h

theorem exec_final_of_phase {s : State} (h : s.sponge.phase ≠ .absorb) :
    exec .final s = .next { s with st := .phase } := if_pos h

theorem exec_squeeze_of_phase {s : State} (h : s.sponge.phase ≠ .squeeze) (bd : BReg) (n : BitVec 16) :
    exec (.squeeze bd n) s = .next { s with st := .phase } := if_pos h

/-- Settles O39: a completed one-shot command leaves the phase IDLE, in which the streaming commands raise E_PHASE. -/
theorem oneShotsIgnoreTheSession : Obligations.OneShotsIgnoreTheSession := by
  intro i s t sp hi h
  refine (exec_sessionIn hi s sp t h).imp_left fun ⟨hd, hok, hr⟩ => ?_
  have ha : t.sponge.phase ≠ .absorb := by rw [hd]; nofun
  have hs : t.sponge.phase ≠ .squeeze := by rw [hd]; nofun
  exact ⟨hd, hok, hr, exec_absorb_of_phase ha, exec_final_of_phase ha, exec_squeeze_of_phase hs⟩

/-! ### The host actions and the reset values -/

/-- Settles O8: the step is the oldest action, whose effect is its definition. -/
theorem hostActionsDoTheirEffect : Obligations.HostActionsDoTheirEffect := by
  refine ⟨rfl, rfl, rfl, fun s rest => ⟨fun i v h hv => ?_, fun i v h hv => ?_, fun i h => step_of_inbox h,
    step_of_inbox, step_of_inbox, step_of_inbox_nil⟩⟩
  · exact (step_of_inbox h).trans (if_pos hv)
  · exact (step_of_inbox h).trans (if_neg (not_le.2 hv))

/-- Settles O9, row by row of the table of R34. -/
theorem resetValues : Obligations.ResetValues :=
  ⟨KState.lane_zero, rfl, rfl, rfl, rfl, rfl, rfl, rfl, rfl, by decide, by decide, by decide⟩

end Sys2Proof.Machine
end

section
/-! SUPPORT. Decoder and encoder are inverse to each other (30_encoding.md R90 to R102): what an operand field holds,
the row of the opcode map that a word meets, and the command word as a number. -/

namespace Sys2Proof

open Sys2Proof.Machine

/-! ### The bits of a field -/

/-- The word whose bits are those of the field of `k` bits with lowest bit `lo`. -/
def fieldBits (k lo : Nat) : Word := BitVec.ofNat 32 (2 ^ k - 1) <<< lo

/-- The definition as a rewrite rule: `simp` computes with it the bits of a field whose place is a numeral. It is proved
by a rewrite, since a side goal that `simp` closes by unfolding alone is refused by the rule that asked for it. -/
theorem fieldBits_eq (k lo : Nat) : fieldBits k lo = BitVec.ofNat 32 (2 ^ k - 1) <<< lo := by rw [fieldBits]

theorem getLsbD_fieldBits (k lo i : Nat) (hi : i < 32) :
    (fieldBits k lo).getLsbD i = (decide (lo ≤ i) && decide (i < lo + k)) := by
  simp only [fieldBits, BitVec.getLsbD_shiftLeft, BitVec.getLsbD_ofNat, Nat.testBit_two_pow_sub_one]
  rw [Bool.eq_iff_iff]
  simp
  omega

/-! ### Reading an operand and putting it back -/

/-- A register index put back where it was read is what the word has in that field. -/
theorem place_extractLsb' (cw : Word) (k lo : Nat) :
    place (cw.extractLsb' lo k).toFin lo = cw &&& fieldBits k lo := by
  apply BitVec.eq_of_getLsbD_eq
  intro i hi
  rw [getLsbD_place _ _ _ hi, BitVec.getLsbD_and, getLsbD_fieldBits k lo i hi, BitVec.val_toFin,
    BitVec.testBit_toNat, BitVec.getLsbD_extractLsb']
  by_cases h : lo ≤ i
  · have hk : i - lo < k ↔ i < lo + k := by omega
    simp [h, hk, Bool.and_comm]
  · simp [h]

@[simp] theorem place_bAt (cw : Word) (lo : Nat) : place (bAt cw lo) lo = cw &&& fieldBits 3 lo :=
  place_extractLsb' cw 3 lo

@[simp] theorem place_zAt (cw : Word) (lo : Nat) : place (zAt cw lo) lo = cw &&& fieldBits 3 lo :=
  place_extractLsb' cw 3 lo

@[simp] theorem place_pAt (cw : Word) (lo : Nat) : place (pAt cw lo) lo = cw &&& fieldBits 2 lo :=
  place_extractLsb' cw 2 lo

/-- As `place_extractLsb'`, for the operands that start at bit 0. -/
theorem setWidth_extractLsb' (cw : Word) (k : Nat) : (cw.extractLsb' 0 k).setWidth 32 = cw &&& fieldBits k 0 := by
  apply BitVec.eq_of_getLsbD_eq
  intro i hi
  rw [BitVec.getLsbD_and, getLsbD_fieldBits _ _ _ hi, BitVec.getLsbD_setWidth, BitVec.getLsbD_extractLsb']
  simp [hi, Bool.and_comm]

@[simp] theorem setWidth_imm16At (cw : Word) : (imm16At cw).setWidth 32 = cw &&& fieldBits 16 0 :=
  setWidth_extractLsb' cw 16

@[simp] theorem setWidth_imm24At (cw : Word) : (imm24At cw).setWidth 32 = cw &&& fieldBits 24 0 :=
  setWidth_extractLsb' cw 24

/-- The modulus select is the field of one bit at bit 0. -/
theorem modAt_eq (cw : Word) : modAt cw = if cw.extractLsb' 0 1 = 1 then .orderR else .fieldP := by
  have hbit : cw.extractLsb' 0 1 = BitVec.ofBool (cw.getLsbD 0) := by
    apply BitVec.eq_of_getLsbD_eq
    intro i hi
    simp [Nat.lt_one_iff.1 hi]
  rw [modAt, hbit]
  cases cw.getLsbD 0 <;> rfl

@[simp] theorem placeMod_modAt (cw : Word) : placeMod (modAt cw) = cw &&& fieldBits 1 0 := by
  rw [modAt_eq, ← setWidth_extractLsb']
  have hbit : ∀ v : BitVec 1, placeMod (if v = 1 then .orderR else .fieldP) = v.setWidth 32 := by decide
  exact hbit _

/-! ### An operand in its field -/

theorem place_and_fieldBits {n k : Nat} (r : Fin n) (hn : n ≤ 2 ^ k) (lo : Nat) :
    place r lo &&& fieldBits k lo = place r lo := by
  apply BitVec.eq_of_getLsbD_eq
  intro i hi
  rw [BitVec.getLsbD_and, getLsbD_place _ _ _ hi, getLsbD_fieldBits _ _ _ hi]
  by_cases h : i < lo + k
  · simp only [h, decide_true, Bool.and_true, Bool.and_right_comm, Bool.and_self]
  · have : r.val < 2 ^ (i - lo) := (r.isLt.trans_le hn).trans_le (Nat.pow_le_pow_right (by norm_num) (by omega))
    simp [Nat.testBit_lt_two_pow this]

theorem imm_and_fieldBits {w : Nat} (v : BitVec w) : v.setWidth 32 &&& fieldBits w 0 = v.setWidth 32 := by
  apply BitVec.eq_of_getLsbD_eq
  intro i hi
  rw [BitVec.getLsbD_and, getLsbD_fieldBits _ _ _ hi]
  by_cases h : i < w
  · simp [h]
  · simp [BitVec.getLsbD_of_ge v i (by omega), hi]

section
variable {a b m : Word} {k lo : Nat}

/-- A mask that leaves out a field leaves nothing of a word that lies in the field. -/
theorem and_eq_zero_of_field (hb : b &&& fieldBits k lo = b) (hm : fieldBits k lo &&& m = 0) : b &&& m = 0 := by
  rw [← hb, BitVec.and_assoc, hm]
  exact BitVec.and_zero

/-- A field laid over a word that is 0 there adds its number. -/
theorem toNat_or_of_field (hb : b &&& fieldBits k lo = b) (ha : a &&& fieldBits k lo = 0) :
    (a ||| b).toNat = a.toNat + b.toNat := by
  refine toNat_or_disjoint a b ?_
  rw [BitVec.and_comm]
  exact and_eq_zero_of_field hb (by rw [BitVec.and_comm, ha])

end

theorem toNat_place {n k : Nat} (r : Fin n) {lo : Nat} (hn : n ≤ 2 ^ k) (hlo : lo + k ≤ 32) :
    (place r lo).toNat = r * 2 ^ lo := by
  have hlt : r.val <<< lo < 2 ^ 32 := (Nat.shiftLeft_lt (r.isLt.trans_le hn)).trans_le
    (Nat.pow_le_pow_right (by norm_num) (by omega))
  have hr : r.val < 2 ^ 32 := (Nat.le_shiftLeft ..).trans_lt hlt
  rw [place, BitVec.toNat_shiftLeft, BitVec.toNat_ofNat, Nat.mod_eq_of_lt hr, Nat.mod_eq_of_lt hlt, Nat.shiftLeft_eq]

section
variable (a : Word) (r : Fin 8) (q : Fin 4) {w : Nat} (v : BitVec w) {m : Word} {lo lo' k : Nat}

theorem place8_and (hm : fieldBits 3 lo &&& m = 0) : place r lo &&& m = 0 :=
  and_eq_zero_of_field (place_and_fieldBits r le_rfl lo) hm

theorem place4_and (hm : fieldBits 2 lo &&& m = 0) : place q lo &&& m = 0 :=
  and_eq_zero_of_field (place_and_fieldBits q le_rfl lo) hm

theorem imm_and (hm : fieldBits w 0 &&& m = 0) : v.setWidth 32 &&& m = 0 :=
  and_eq_zero_of_field (imm_and_fieldBits v) hm

theorem toNat_or_place8 (hlo : lo + 3 ≤ 32) (h : a &&& fieldBits 3 lo = 0) :
    (a ||| place r lo).toNat = a.toNat + r * 2 ^ lo := by
  rw [toNat_or_of_field (place_and_fieldBits r le_rfl lo) h, toNat_place r (k := 3) le_rfl hlo]

theorem toNat_or_place4 (hlo : lo + 2 ≤ 32) (h : a &&& fieldBits 2 lo = 0) :
    (a ||| place q lo).toNat = a.toNat + q * 2 ^ lo := by
  rw [toNat_or_of_field (place_and_fieldBits q le_rfl lo) h, toNat_place q (k := 2) le_rfl hlo]

theorem toNat_or_imm (hw : w ≤ 32) (h : a &&& fieldBits w 0 = 0) :
    (a ||| v.setWidth 32).toNat = a.toNat + v.toNat := by
  rw [toNat_or_of_field (imm_and_fieldBits v) h, toNat_imm v hw]

theorem field_place8_self (h : lo + 3 ≤ 32) : (place r lo).extractLsb' lo 3 = BitVec.ofFin r :=
  BitVec.toFin_injective (field_place_self (k := 3) r lo h)

theorem field_place4_self (h : lo + 2 ≤ 32) : (place q lo).extractLsb' lo 2 = BitVec.ofFin q :=
  BitVec.toFin_injective (field_place_self (k := 2) q lo h)

theorem field_place8_of_disjoint (hw : lo' + w ≤ 32) (h : lo + 3 ≤ lo' ∨ lo' + w ≤ lo) :
    (place r lo).extractLsb' lo' w = 0 := field_place_of_disjoint r 3 lo lo' w le_rfl hw h

theorem field_place4_of_disjoint (hw : lo' + w ≤ 32) (h : lo + 2 ≤ lo' ∨ lo' + w ≤ lo) :
    (place q lo).extractLsb' lo' w = 0 := field_place_of_disjoint q 2 lo lo' w le_rfl hw h

theorem field_imm_self (h : w ≤ 32) : (v.setWidth 32).extractLsb' 0 w = v := by
  rw [BitVec.extractLsb'_setWidth_of_le (by omega), BitVec.extractLsb'_eq_self]

theorem field_imm_of_le (h : w ≤ lo) : (v.setWidth 32).extractLsb' lo k = 0 := by
  apply BitVec.eq_of_getLsbD_eq
  intro i hi
  simp [BitVec.getLsbD_of_ge v (lo + i) (by omega), hi]

end

/-! ### The rows of the opcode map -/

theorem accept_eq_ok_iff {cw m k : Word} {i j : Instr} : accept cw m k i = .ok j ↔ cw &&& k = m ∧ i = j := by
  unfold accept
  split <;> simp [*]

/-- A word that decodes meets the row its command was read from. -/
theorem exists_row_of_decode {cw : Word} {i : Instr} (h : decode cw = .ok i) :
    ∃ r ∈ opcodeRows, cw &&& r.2 = r.1 := by
  unfold decode at h
  split at h
  case h_52 => cases h
  all_goals exact ⟨(_, _), by decide, (accept_eq_ok_iff.1 h).1⟩

/-- The opcode of a row selects the arm of the decoder that holds a word against the row. -/
theorem decode_of_opcode {cw : Word} {r : Word × Word} (hr : r ∈ opcodeRows) (h : opcodeOf cw = opcodeOf r.1) :
    ∃ i, decode cw = accept cw r.1 r.2 i := by
  unfold decode
  fin_cases hr <;> exact ⟨_, by rw [h]; rfl⟩

/-- Every mask covers the opcode. -/
theorem opcodeOf_mask : ∀ r ∈ opcodeRows, opcodeOf r.2 = 0xFF := by simp [opcodeRows]

theorem opcodeOf_of_row {cw : Word} {r : Word × Word} (hr : r ∈ opcodeRows) (h : cw &&& r.2 = r.1) :
    opcodeOf cw = opcodeOf r.1 := by
  rw [← h, opcodeOf, opcodeOf, BitVec.extractLsb'_and, ← opcodeOf, ← opcodeOf, opcodeOf_mask r hr]
  exact BitVec.and_allOnes.symm

/-- The rows differ in the opcode. -/
theorem opcodes_nodup : (opcodeRows.map (opcodeOf ·.1)).Nodup := by decide +kernel

/-- A word decodes to a command exactly when it meets a row. -/
theorem decode_ok_iff_row (cw : Word) : (∃ i, decode cw = .ok i) ↔ ∃ r ∈ opcodeRows, cw &&& r.2 = r.1 := by
  refine ⟨fun ⟨i, h⟩ => exists_row_of_decode h, fun ⟨r, hr, h⟩ => ?_⟩
  obtain ⟨i, hi⟩ := decode_of_opcode hr (opcodeOf_of_row hr h)
  exact ⟨i, hi.trans (accept_eq_ok_iff.2 ⟨h, rfl⟩)⟩

/-- Settles O4: two rows that one word meets have its opcode, and the rows differ in the opcode. -/
theorem legalWordsAreTheRows : Obligations.LegalWordsAreTheRows := by
  refine ⟨rfl, fun r hr r' hr' cw h h' => ?_, decode_ok_iff_row⟩
  exact List.inj_on_of_nodup_map opcodes_nodup hr hr'
    ((opcodeOf_of_row hr h).symm.trans (opcodeOf_of_row hr' h'))

/-! ### Encoding what was decoded -/

/-- `BitVec.and_allOnes` for the numeral that `simp` computes. -/
theorem and_mask_all (cw : Word) : cw &&& 0xFFFFFFFF#32 = cw := BitVec.and_allOnes

/-- Match and operands together have every bit of the word: mask and operand fields cover the 32 bits. -/
theorem encode_of_decode {cw : Word} {i : Instr} (h : decode cw = .ok i) : encode i = cw := by
  unfold decode at h
  split at h
  case h_52 => cases h
  all_goals
    obtain ⟨hm, rfl⟩ := accept_eq_ok_iff.1 h
    rw [encode, ← hm]
    simp [fieldBits_eq, and_mask_all, ← BitVec.and_or_distrib_left]

/-- R94: the row of ZCONST admits the selects 0 and 1 alone. -/
theorem imm16At_lt_two {cw : Word} (h : cw &&& 0xFF8FFFFE = 0x45000000) : (imm16At cw).toNat < 2 := by
  have hzero : cw &&& 0xFFFE = 0 := by
    rw [show (0xFFFE : Word) = 0xFF8FFFFE &&& 0xFFFE by rfl, ← BitVec.and_assoc, h]
    rfl
  have hbit : (imm16At cw).setWidth 32 = cw &&& 1 := by
    rw [setWidth_imm16At, show fieldBits 16 0 = 0xFFFE ||| 1 by rfl, BitVec.and_or_distrib_left, hzero]
    exact BitVec.zero_or
  have hle : (cw &&& 1).toNat ≤ 1 := Nat.and_le_right
  rw [← hbit, toNat_imm _ (by norm_num)] at hle
  omega

theorem wellFormed_of_decode {cw : Word} {i : Instr} (h : decode cw = .ok i) : i.wellFormed = true := by
  cases i with
  | zconst zd sel =>
    have hop : opcodeOf cw = 0x45 := encode_of_decode h ▸ Laws.OpcodeByte.zconst zd sel
    rw [decode, hop] at h
    obtain ⟨hm, heq⟩ := accept_eq_ok_iff.1 h
    obtain ⟨-, rfl⟩ := Instr.zconst.inj heq
    exact decide_eq_true (imm16At_lt_two hm)
  | _ => rfl

/-- Settles O3: the word is put together again, and the mask of ZCONST bounds its select. -/
theorem decodeThenEncode : Obligations.DecodeThenEncode :=
  fun _ _ h => ⟨encode_of_decode h, wellFormed_of_decode h⟩

/-! ### Decoding what was encoded -/

theorem opcodeOf_encode (i : Instr) : opcodeOf (encode i) = opcodeByte i := by
  cases i <;> simp [encode, opcodeByte]

/-- Settles O2: the opcode selects the arm, the operands lie outside its mask, and each field holds its operand alone.
The modulus select and the constant select of a well-formed ZCONST take their two values one by one. -/
theorem encodeThenDecode : Obligations.EncodeThenDecode := by
  intro i hi
  have hop := opcodeOf_encode i
  cases i with
  | zconst zd sel =>
    rw [decode, hop]
    have h01 : sel = 0 ∨ sel = 1 := by
      have := of_decide_eq_true hi
      bv_omega
    refine accept_eq_ok_iff.2 ⟨?_, ?_⟩ <;> rcases h01 with rfl | rfl
    all_goals simp [encode, or_and, place8_and, fieldBits_eq, zAt, imm16At, field_or, field_place8_self,
      field_place8_of_disjoint]
  | zred m | madd m | msub m | mmul m | mneg m | minv m =>
    rw [decode, hop]
    refine accept_eq_ok_iff.2 ⟨?_, ?_⟩ <;> cases m
    all_goals simp [encode, placeMod, or_and, place8_and, fieldBits_eq, zAt, modAt_eq, field_or,
      field_place8_self, field_place8_of_disjoint]
  | _ =>
    rw [decode, hop]
    refine accept_eq_ok_iff.2 ⟨?_, ?_⟩
    · simp [encode, or_and, place8_and, place4_and, imm_and, fieldBits_eq]
    · simp [encode, bAt, zAt, pAt, imm16At, imm24At, field_or, field_place8_self, field_place4_self,
        field_place8_of_disjoint, field_place4_of_disjoint, field_imm_self, field_imm_of_le]

/-! ### The number of a command -/

/-- Settles O5: the fields of a command share no bit, so that laying an operand over the word adds its number. -/
theorem operandFieldPlacement : Obligations.OperandFieldPlacement := by
  intro i
  cases i with
  | zred m | madd m | msub m | mmul m | mneg m | minv m =>
    cases m <;>
      simp +arith [encode, placeMod, toNat_or_place8, or_and, place8_and, fieldBits_eq, -BitVec.toNat_or]
  | _ =>
    simp [encode, toNat_or_place8, toNat_or_place4, toNat_or_imm, or_and, place8_and, place4_and, fieldBits_eq,
      -BitVec.toNat_or]

/-! ### Running a word -/

theorem runWord_of_not_decode {cw : Word} (h : ∀ i, decode cw ≠ .ok i) (s : State) :
    runWord cw s = .next { s with st := .illegal } := by
  unfold runWord
  split
  · exact absurd ‹_› (h _)
  · rfl

theorem runWord_of_decode {cw : Word} {i : Instr} (h : decode cw = .ok i) (s : State) : runWord cw s = exec i s := by
  rw [runWord, h]

/-- Settles O6: a word that meets no row does not decode. -/
theorem illegalWordsRaiseIllegal : Obligations.IllegalWordsRaiseIllegal := by
  intro s cw h
  refine runWord_of_not_decode (fun i hi => ?_) s
  obtain ⟨r, hr, hm⟩ := exists_row_of_decode hi
  exact h r hr hm

/-- Settles O7: the step is the action, the action is the run of the word. -/
theorem stepRunsDecodedCommand : Obligations.StepRunsDecodedCommand := by
  intro s cw rest h
  have hs : step s = runWord cw { s with inbox := rest, reply := none } := step_of_inbox h
  exact ⟨hs, fun i hi _ => hs.trans (runWord_of_decode hi _), fun hi => hs.trans (runWord_of_not_decode hi _)⟩

/-- Settles O1: the decoder computes on the twelve words. -/
theorem sampleWordsDecode : Obligations.SampleWordsDecode := by
  unfold Obligations.SampleWordsDecode
  decide

end Sys2Proof
end

section
/-! SUPPORT. The permutation engine PERM: the tables and their rules, the step mappings bit by bit, the rounds of PERMUTE,
and the byte view that KLD and KST speak of (10_state.md R22, 40_permutation.md R121 to R136). -/

namespace Sys2Proof.Machine

open Sys2Proof

/-! ### The step mappings, bit by bit -/

/-- Left rotation carries bit z of a lane to position z + r modulo 64. -/
theorem getLsbD_rotateLeft_add (v : Lane) (r : Nat) {z : Nat} (hz : z < 64) :
    (v.rotateLeft r).getLsbD ((z + r) % 64) = v.getLsbD z := by
  rw [BitVec.getLsbD_rotateLeft, Bool.cond_decide]
  split
  · exact congrArg v.getLsbD (by omega)
  · have hpos : (z + r) % 64 - r % 64 = z := by omega
    rw [hpos, decide_eq_true (by omega : (z + r) % 64 < 64), Bool.true_and]

/-- Rotation by one: bit z comes from position z - 1 modulo 64. -/
theorem getLsbD_rotateLeft_one (v : Lane) {z : Nat} (hz : z < 64) :
    (v.rotateLeft 1).getLsbD z = v.getLsbD ((z + 63) % 64) := by
  rw [← getLsbD_rotateLeft_add v 1 (by omega : (z + 63) % 64 < 64)]
  exact congrArg _ (by omega)

/-- R125, from the source: pi moves lane (x, y) to (y, 2x + 3y). -/
theorem lane_pi_target (A : KState) (x y : Fin 5) : (pi A).lane y (2 * x + 3 * y) = A.lane x y := by
  have hsource : ∀ x y : Fin 5, y + 3 * (2 * x + 3 * y) = x := by decide
  rw [lane_pi, hsource]

/-- Settles O24: the mappings lane by lane, read at one bit. -/
theorem stepMappingsBitByBit : Obligations.StepMappingsBitByBit := by
  intro A x y z hz
  refine ⟨?_, ?_, lane_pi_target A x y, lane_pi A x y, ?_, fun rc => ⟨?_, fun hxy => ?_⟩⟩
  · simp only [lane_theta, columnParity_get, BitVec.getLsbD_xor, getLsbD_rotateLeft_one _ hz, Bool.xor_assoc]
  · simp only [lane_rho, getLsbD_rotateLeft_add _ _ hz]
  · simp only [lane_chi, BitVec.getLsbD_xor, BitVec.getLsbD_and, BitVec.getLsbD_not, hz, decide_true, Bool.true_and]
  · rw [lane_iota, if_pos ⟨rfl, rfl⟩]
  · rw [lane_iota, if_neg (fun h => hxy (Prod.ext h.1 h.2))]

/-! ### The rounds -/

/-- The state before round `ir`: the rounds 0 .. ir - 1 applied to `A`. -/
def stateBeforeRound (A : KState) (ir : Nat) : KState := (roundConstants.take ir).foldl rnd A

theorem stateBeforeRound_succ (A : KState) {ir : Nat} (h : ir < 24) :
    stateBeforeRound A (ir + 1) = rnd (stateBeforeRound A ir) (roundConstants.getD ir 0) := by
  have hlen : ir < roundConstants.length := h
  rw [stateBeforeRound, List.take_succ_eq_append_getElem hlen, List.foldl_concat, List.getD_eq_getElem _ _ hlen,
    stateBeforeRound]

/-- No round is left after the 24th. -/
theorem stateBeforeRound_24 (A : KState) : stateBeforeRound A 24 = keccakP A := rfl

/-- Settles O23: the states before each round are the ones asked for. -/
theorem permuteIsTwentyFourRounds : Obligations.PermuteIsTwentyFourRounds := by
  refine ⟨rfl, fun s => ⟨stateBeforeRound s.sponge.A, rfl, fun ir hir => stateBeforeRound_succ _ hir, ?_⟩⟩
  rw [stateBeforeRound_24]
  rfl

/-! ### Lanes as little-endian numbers -/

theorem toNat_append_byte {n : Nat} (v : BitVec n) (b : Byte) : (v ++ b).toNat = b.toNat + v.toNat * 2 ^ 8 := by
  rw [BitVec.toNat_append, ← Nat.shiftLeft_add_eq_or_of_lt b.isLt, Nat.shiftLeft_eq, Nat.add_comm]

/-- R22: a lane is the number its eight bytes spell, least significant first. -/
theorem toNat_laneOfBytes (bs : Bytes) :
    (laneOfBytes bs).toNat = ((List.range 8).map fun j => (bs.getD j 0).toNat * 2 ^ (8 * j)).sum := by
  simp only [laneOfBytes, toNat_append_byte, List.range_succ, List.range_zero, List.map_append, List.map_cons,
    List.map_nil, List.sum_append, List.sum_cons, List.sum_nil]
  ring

/-- R22, R134: lane (x, y) of the state made of a byte string, as a number. -/
theorem KState.toNat_lane_ofBytes (bs : Bytes) (x y : Fin 5) :
    ((KState.ofBytes bs).lane x y).toNat
      = ((List.range 8).map fun j => (bs.getD (8 * (5 * y.val + x.val) + j) 0).toNat * 2 ^ (8 * j)).sum := by
  simp [KState.ofBytes, toNat_laneOfBytes, List.getD_eq_getElem?_getD, List.getElem?_drop]

/-- R22, R135: byte j of lane (x, y) in the byte view, as a number. -/
theorem KState.toNat_getD_toBytes (A : KState) (x y : Fin 5) {j : Nat} (hj : j < 8) :
    (A.toBytes.getD (8 * (5 * y.val + x.val) + j) 0).toNat = (A.lane x y).toNat / 2 ^ (8 * j) % 256 := by
  rw [KState.getD_toBytes A x y ⟨j, hj⟩, BitVec.extractLsb'_toNat, Nat.shiftRight_eq_div_pow]

/-! ### KCLR, KLD and KST -/

theorem exec_kst (bd : BReg) (s : State) : exec (.kst bd) s = complete (s.setB bd s.sponge.A.toBytes) := rfl

theorem exec_kld_of_length_ne {s : State} {ba : BReg} (h : (s.getB ba).length ≠ 200) :
    exec (.kld ba) s = raise .length s := if_pos h

theorem exec_kld_of_length_eq {s : State} {ba : BReg} (h : (s.getB ba).length = 200) :
    exec (.kld ba) s = complete (s.setA (KState.ofBytes (s.getB ba))) := if_neg (not_not.2 h)

/-- R135: KST, then KLD of the same buffer, writes the buffer and leaves the sponge as it was. -/
theorem execAll_kst_kld (bd : BReg) (s : State) :
    execAll [.kst bd, .kld bd] s = .next { s.setB bd s.sponge.A.toBytes with st := .ok } := by
  have hget : State.getB { s.setB bd s.sponge.A.toBytes with st := .ok } bd = s.sponge.A.toBytes :=
    State.getB_setB_self s bd _
  have hlen := (congrArg List.length hget).trans (KState.length_toBytes _)
  rw [execAll_cons (exec_kst bd s), execAll_cons (exec_kld_of_length_eq hlen), hget, KState.ofBytes_toBytes]
  rfl

/-- Settles O22: the lanes and the bytes as numbers, and the round trip. -/
theorem stateLoadAndStore : Obligations.StateLoadAndStore := by
  intro s ba bd
  refine ⟨rfl, ⟨_, rfl, KState.lane_zero⟩, ?_, exec_kld_of_length_ne, fun h => ⟨_, exec_kld_of_length_eq h, ?_⟩, ?_,
    ⟨_, exec_kst bd s, KState.length_toBytes _, ?_⟩, ⟨_, execAll_kst_kld bd s, rfl, rfl⟩⟩
  · simpa using operandFieldPlacement (.kld ba)
  · exact KState.toNat_lane_ofBytes _
  · simpa using operandFieldPlacement (.kst bd)
  · exact fun x y _ hj => KState.toNat_getD_toBytes _ x y hj

/-! ### The tables -/

/-- The walk (x, y) to (y, 2x + 3y) that fills the table of offsets (R124); it starts at (1, 0). -/
def walk (t : Nat) : Fin 5 × Fin 5 := Nat.iterate (fun p => (p.2, 2 * p.1 + 3 * p.2)) t (1, 0)

/-- R124: the offsets met on the walk are the triangular numbers modulo 64. -/
theorem rhoOffset_walk : ∀ t, t < 24 → rhoOffset (walk t).1 (walk t).2 = (t + 1) * (t + 2) / 2 % 64 := by decide

/-- R126: the walk is one cycle through the positions other than (0, 0). -/
theorem walk_reaches : ∀ p : Fin 5 × Fin 5, p ≠ (0, 0) → ∃ t, t < 24 ∧ walk t = p := by decide

/-- R129, R130: the generator gives the constant of every round. -/
theorem roundConstants_generated : ∀ ir, ir < 24 → roundConstants.getD ir 0 = generatedConstant ir := by
  decide +kernel

/-- Settles O25: each rule is checked over its whole table, or over the 24 steps of the walk. -/
theorem tablesFollowTheirRules : Obligations.TablesFollowTheirRules :=
  ⟨rfl, rhoOffset_walk, walk_reaches, rfl, by decide, by decide, rfl, roundConstants_generated, by decide⟩

end Sys2Proof.Machine
end

section
/-! SUPPORT. The sponge controller SPG: what SINIT, ABSORB, FINAL and SQUEEZE answer, how input and output split, and
the streaming sequence as the sponge function (41_sponge.md R150 to R159). -/

namespace Sys2Proof.Machine

open Sys2Proof

/-! ### What the four commands answer -/

theorem exec_sinit_of_gt {mode : BitVec 24} (h : 5 < mode.toNat) (s : State) :
    exec (.sinit mode) s = raise .cfgMode s := by
  have hnone : modeOfImm mode = none := dif_neg (by omega)
  rw [exec, execSinit, hnone]

theorem exec_sinit {mode : BitVec 24} {m : Fin 6} (h : mode.toNat = m.val) (s : State) :
    exec (.sinit mode) s = complete (s.setSponge (Sponge.fresh m)) := by
  have hsome : modeOfImm mode = some m := by
    rw [modeOfImm, dif_pos (h ▸ m.isLt)]
    exact congrArg some (Fin.ext h)
  rw [exec, execSinit, hsome]

theorem exec_absorb_of_phase_ne {s : State} (h : s.sponge.phase ≠ .absorb) (ba : BReg) :
    exec (.absorb ba) s = raise .phase s := if_pos h

theorem exec_absorb {s : State} (h : s.sponge.phase = .absorb) (ba : BReg) :
    exec (.absorb ba) s = complete (s.setSponge (s.sponge.absorb (s.getB ba))) := if_neg (not_not.2 h)

theorem exec_final_of_phase_ne {s : State} (h : s.sponge.phase ≠ .absorb) : exec .final s = raise .phase s := if_pos h

theorem exec_final {s : State} (h : s.sponge.phase = .absorb) : exec .final s = complete (s.setSponge s.sponge.final) :=
  if_neg (not_not.2 h)

theorem exec_squeeze_of_phase_ne {s : State} (h : s.sponge.phase ≠ .squeeze) (bd : BReg) (n : BitVec 16) :
    exec (.squeeze bd n) s = raise .phase s := if_pos h

/-- In the squeezing phase SQUEEZE completes: its 16-bit length is at most BMAX, so E_OVERFLOW cannot occur (R156). -/
theorem exec_squeeze {s : State} (h : s.sponge.phase = .squeeze) (bd : BReg) (n : BitVec 16) :
    exec (.squeeze bd n) s
      = complete ((s.setSponge (s.sponge.squeeze n.toNat).2).setB bd (s.sponge.squeeze n.toNat).1) := by
  have hn : ¬ Config.bmax < n.toNat := not_lt.2 (Nat.le_of_lt_succ n.isLt)
  rw [exec, execSqueeze, if_neg (not_not.2 h), if_neg hn]

/-- `ST` holds no buffer: a read does not see it. -/
theorem State.getB_withSt (s : State) (e : Status) (j : BReg) : State.getB { s with st := e } j = s.getB j := rfl

/-! ### SINIT -/

/-- R152: the capacity, the rate, the block length and the suffix of each mode. -/
theorem modeTag_table : ∀ m : Fin 6,
    [(448, 1152, 144, 0x06), (512, 1088, 136, 0x06), (768, 832, 104, 0x06), (1024, 576, 72, 0x06),
      (512, 1088, 136, 0x1F), (512, 1088, 136, (0x04 : Byte))][m.val]?
      = some ((modeTag m).1.capacity, (modeTag m).1.bits, (modeTag m).1.bytes, (modeTag m).2) := by decide

/-- Settles O26: the tag is the mode's index, and the mode table is checked row by row. -/
theorem sinitOpensASession : Obligations.SinitOpensASession := by
  intro s mode
  refine ⟨?_, fun h => exec_sinit_of_gt h s, fun h => ?_⟩
  · simpa using operandFieldPlacement (.sinit mode)
  · have hm : mode.toNat < 6 := by omega
    exact ⟨_, _, _, exec_sinit (m := ⟨mode.toNat, hm⟩) rfl s, KState.lane_zero, modeTag_table ⟨mode.toNat, hm⟩⟩

/-! ### ABSORB -/

/-- R154 with R22: byte j of lane (x, y) is XORed with the block's byte at the lane's place in the byte view. -/
theorem KState.toNat_lane_xorBlock (A : KState) (blk : Bytes) (x y : Fin 5) {j : Nat} (hj : j < 8) :
    ((A.xorBlock blk).lane x y).toNat / 2 ^ (8 * j) % 256
      = ((A.lane x y).toNat / 2 ^ (8 * j) % 256) ^^^ (blk.getD (8 * (5 * y.val + x.val) + j) 0).toNat := by
  rw [← KState.toNat_getD_toBytes _ x y hj, ← KState.toNat_getD_toBytes _ x y hj,
    KState.getD_toBytes_xorBlock A blk (by omega), BitVec.toNat_xor]

/-- Settles O27: the closed form of the block loop. -/
theorem absorbTakesWholeBlocks : Obligations.AbsorbTakesWholeBlocks := by
  refine ⟨fun ba => ?_, fun s ba h => exec_absorb_of_phase_ne h ba, fun s ba h => ?_,
    fun A blk x y _ hj => KState.toNat_lane_xorBlock A blk x y hj⟩
  · simpa using operandFieldPlacement (.absorb ba)
  · rw [exec_absorb h, Sponge.absorb_eq]
    rfl

/-! ### FINAL -/

/-- Settles O28: the block is the padded block of R151. -/
theorem finalPadsAndPermutes : Obligations.FinalPadsAndPermutes := by
  refine ⟨rfl, fun s h => exec_final_of_phase_ne h, fun s h hlt => ?_⟩
  refine ⟨padBlock s.sponge.buf s.sponge.sfx s.sponge.rate.bytes, length_padBlock _ hlt, fun j hj => ?_, exec_final h⟩
  have hbuf : (if j < s.sponge.buf.length then s.sponge.buf.getD j 0 else 0) = s.sponge.buf.getD j 0 := by
    split
    · rfl
    · exact (List.getD_eq_default _ _ (by omega)).symm
  rw [hbuf, getD_padBlock _ hlt hj]

/-! ### SQUEEZE -/

/-- The sponge after n ≥ 1 bytes: as many permutations as blocks were entered, `SQPOS` behind the last byte (R156). -/
theorem Sponge.squeeze_snd_of_ne_zero {sp : Sponge} (h : sp.sqpos ≤ sp.rate.bytes) {n : Nat} (hn : n ≠ 0) :
    (sp.squeeze n).2 = { sp with A := keccakP^[(sp.sqpos + n - 1) / sp.rate.bytes] sp.A,
                                 sqpos := (sp.sqpos + n - 1) % sp.rate.bytes + 1 } := by
  rw [Sponge.squeeze_eq h, squeezedState, squeezedPos, if_neg hn, if_neg hn]

/-- R156: the bytes SQUEEZE puts out are those of the stream from `SQPOS` on. -/
theorem Sponge.getD_squeeze {sp : Sponge} (h : sp.sqpos ≤ sp.rate.bytes) {n j : Nat} (hj : j < n) :
    (sp.squeeze n).1.getD j 0 = streamByte sp.rate.bytes sp.A (sp.sqpos + j) := by
  rw [Sponge.squeeze_eq h, getD_streamBytes _ _ _ hj]

/-- Settles O29: the closed form of the output loop; a SQUEEZE of no byte leaves the sponge. -/
theorem squeezeContinuesTheStream : Obligations.SqueezeContinuesTheStream := by
  refine ⟨fun bd n => ?_, fun s bd n h => exec_squeeze_of_phase_ne h bd n, fun s bd n hp hpos => ?_⟩
  · simpa using operandFieldPlacement (.squeeze bd n)
  · refine ⟨(s.sponge.squeeze n.toNat).1, Sponge.length_squeeze hpos _, fun j hj => Sponge.getD_squeeze hpos hj, ?_⟩
    rw [exec_squeeze hp]
    split
    · next h0 => rw [h0]; rfl
    · next h0 =>
      have hn : n.toNat ≠ 0 := fun h => h0 (BitVec.eq_of_toNat_eq h)
      rw [Sponge.squeeze_snd_of_ne_zero hpos hn]
      rfl

/-! ### Splitting the input and the output -/

/-- k permutations on, the stream is k blocks further. -/
theorem streamBytes_iterate {rb : Nat} (hrb : 0 < rb) (A : KState) (k q n : Nat) :
    streamBytes rb (keccakP^[k] A) q n = streamBytes rb A (rb * k + q) n := by
  induction k generalizing A with
  | zero => simp
  | succ k ih =>
    rw [Function.iterate_succ_apply, ih, streamBytes_keccakP hrb]
    congr 1
    ring

/-- After m bytes the stream goes on at its byte pos + m: the blocks entered and the place in the last one make up
pos + m. -/
theorem streamBytes_squeezed {rb : Nat} (hrb : 0 < rb) (A : KState) (pos m n : Nat) :
    streamBytes rb (squeezedState rb A pos m) (squeezedPos rb pos m) n = streamBytes rb A (pos + m) n := by
  rw [squeezedState, squeezedPos]
  split
  · next h0 => rw [h0, Nat.add_zero]
  · next h0 =>
    have hplace : rb * ((pos + m - 1) / rb) + ((pos + m - 1) % rb + 1) = pos + m := by
      rw [← Nat.add_assoc, Nat.div_add_mod]
      omega
    rw [streamBytes_iterate hrb, hplace]

theorem squeezedPos_zero (rb pos : Nat) : squeezedPos rb pos 0 = pos := if_pos rfl

theorem squeezedState_zero (rb : Nat) (A : KState) (pos : Nat) : squeezedState rb A pos 0 = A := if_pos rfl

theorem squeezedPos_add (rb pos m n : Nat) :
    squeezedPos rb (squeezedPos rb pos m) n = squeezedPos rb pos (m + n) := by
  obtain rfl | hm := eq_or_ne m 0
  · rw [squeezedPos_zero, Nat.zero_add]
  obtain rfl | hn := eq_or_ne n 0
  · exact squeezedPos_zero _ _
  have hfirst : (pos + m - 1) % rb + 1 + n - 1 = (pos + m - 1) % rb + n := by omega
  have hboth : pos + (m + n) - 1 = pos + m - 1 + n := by omega
  simp only [squeezedPos, hm, hn, Nat.add_eq_zero_iff, false_and, if_false, hfirst, hboth, Nat.mod_add_mod]

theorem squeezedState_add {rb : Nat} (hrb : 0 < rb) (A : KState) (pos m n : Nat) :
    squeezedState rb (squeezedState rb A pos m) (squeezedPos rb pos m) n = squeezedState rb A pos (m + n) := by
  obtain rfl | hm := eq_or_ne m 0
  · rw [squeezedPos_zero, squeezedState_zero, Nat.zero_add]
  obtain rfl | hn := eq_or_ne n 0
  · exact squeezedState_zero _ _ _
  have hfirst : (pos + m - 1) % rb + 1 + n - 1 = (pos + m - 1) % rb + n := by omega
  have hboth : (pos + (m + n) - 1) / rb = ((pos + m - 1) % rb + n) / rb + (pos + m - 1) / rb := by
    rw [show pos + (m + n) - 1 = pos + m - 1 + n by omega, Nat.add_comm (_ / rb), ← Nat.mul_add_div hrb,
      ← Nat.add_assoc, Nat.div_add_mod]
  simp only [squeezedState, squeezedPos, hm, hn, Nat.add_eq_zero_iff, false_and, if_false, hfirst, hboth,
    Function.iterate_add_apply]

/-- R156 (c): n1 + n2 bytes are n1 bytes and then n2 bytes, and the sponge after is the same. -/
theorem Sponge.squeeze_add {sp : Sponge} (h : sp.sqpos ≤ sp.rate.bytes) (n1 n2 : Nat) :
    sp.squeeze (n1 + n2)
      = ((sp.squeeze n1).1 ++ ((sp.squeeze n1).2.squeeze n2).1, ((sp.squeeze n1).2.squeeze n2).2) := by
  have hrb := sp.rate.bytes_pos
  have hmid : (sp.squeeze n1).2.sqpos ≤ (sp.squeeze n1).2.rate.bytes := by
    rw [Sponge.squeeze_eq h]
    exact squeezedPos_le hrb h n1
  rw [Sponge.squeeze_eq hmid, Sponge.squeeze_eq h, Sponge.squeeze_eq h]
  simp only [streamBytes_squeezed hrb, squeezedPos_add, squeezedState_add hrb, streamBytes_add]

theorem execAll_absorb_absorb {s : State} (hp : s.sponge.phase = .absorb) (ba bb : BReg) :
    execAll [.absorb ba, .absorb bb] s = complete (s.setSponge (s.sponge.absorb (s.getB ba ++ s.getB bb))) := by
  rw [execAll_cons (exec_absorb hp ba), execAll_cons (exec_absorb ?phase bb), ← Sponge.absorb_absorb]
  case phase => exact hp
  rfl

theorem execAll_squeeze_squeeze {s : State} (hp : s.sponge.phase = .squeeze) (ba bb : BReg) (n1 n2 : BitVec 16) :
    execAll [.squeeze ba n1, .squeeze bb n2] s
      = complete (((s.setSponge ((s.sponge.squeeze n1.toNat).2.squeeze n2.toNat).2).setB ba
          (s.sponge.squeeze n1.toNat).1).setB bb ((s.sponge.squeeze n1.toNat).2.squeeze n2.toNat).1) := by
  rw [execAll_cons (exec_squeeze hp ba n1), execAll_cons (exec_squeeze ?phase bb n2)]
  case phase => exact hp
  rfl

/-- Settles O30: the laws of the two sponge operations, carried to the commands. -/
theorem splittingChangesNothing : Obligations.SplittingChangesNothing := by
  refine ⟨fun s ba bb hp => ?_, fun s ba bb n1 n2 hp hpos hne hlt => ?_⟩
  · refine ⟨_, _, execAll_absorb_absorb hp ba bb, exec_absorb (s := s.setB ba (s.getB ba ++ s.getB bb)) hp ba, ?_⟩
    exact congrArg s.sponge.absorb (State.getB_setB_self s ba _).symm
  · have hsplit := Sponge.squeeze_add hpos n1.toNat n2.toNat
    rw [← BitVec.toNat_add_of_lt hlt] at hsplit
    refine ⟨_, _, execAll_squeeze_squeeze hp ba bb n1 n2, exec_squeeze hp ba (n1 + n2), ?_,
      (congrArg Prod.snd hsplit).symm⟩
    rw [hsplit]
    simp only [State.getB_withSt, State.getB_setB_self, State.getB_setB_ne _ _ hne.symm]

/-! ### The streaming sequence -/

/-- ABSORBs one after another absorb the concatenation of their buffers (R159 (a)). -/
theorem execAll_absorb {s : State} (hp : s.sponge.phase = .absorb) (hlt : s.sponge.buf.length < s.sponge.rate.bytes)
    (pieces : List BReg) :
    execAll (pieces.map Instr.absorb) { s with st := .ok }
      = complete (s.setSponge (s.sponge.absorb (pieces.flatMap s.getB))) := by
  induction pieces generalizing s with
  | nil => rw [List.flatMap_nil, Sponge.absorb_nil hlt]; rfl
  | cons ba pieces ih =>
    rw [List.map_cons, execAll_cons (exec_absorb (s := { s with st := .ok }) hp ba), List.flatMap_cons,
      ← Sponge.absorb_absorb]
    exact ih (s := s.setSponge (s.sponge.absorb (s.getB ba))) hp (s.sponge.absorb_buf_lt _)

/-- R157: the streaming sequence answers with the one-shot computation of its mode in the destination. -/
theorem execAll_streaming (s : State) (m : Fin 6) (pieces : List BReg) (bd : BReg) (n : BitVec 16) :
    execAll (.sinit (BitVec.ofNat 24 m) :: (pieces.map Instr.absorb ++ [.final, .squeeze bd n])) s
      = complete ((s.setSponge ((((Sponge.fresh m).absorb (pieces.flatMap s.getB)).final).squeeze n.toNat).2).setB bd
          (oneShot m (pieces.flatMap s.getB) n.toNat)) := by
  have hm : (BitVec.ofNat 24 m.val).toNat = m.val := Nat.mod_eq_of_lt (by omega)
  have habs := execAll_absorb (s := s.setSponge (Sponge.fresh m)) rfl (modeTag m).1.bytes_pos pieces
  rw [execAll_cons (exec_sinit hm s), execAll_append habs, execAll_cons (exec_final rfl),
    execAll_cons (exec_squeeze rfl bd n)]
  rfl

/-- Settles O31: the destination holds the one-shot computation, which is the sponge function. -/
theorem streamingComputesTheSponge : Obligations.StreamingComputesTheSponge := by
  intro s m pieces bd n
  refine ⟨_, execAll_streaming s m pieces bd n, rfl, ?_, fun j hj => State.getB_setB_ne _ _ hj.symm⟩
  rw [← oneShot_eq_spongeFn]
  exact State.getB_setB_self _ bd _

/-! ### Length and prefixes of the output -/

/-- A shorter piece of the stream from the same place is the front of a longer one. -/
theorem take_streamBytes (rb : Nat) (A : KState) (q : Nat) {n1 n2 : Nat} (h : n1 ≤ n2) :
    (streamBytes rb A q n2).take n1 = streamBytes rb A q n1 := by
  obtain ⟨d, rfl⟩ := Nat.exists_eq_add_of_le h
  rw [streamBytes_add, List.take_left' (length_streamBytes rb A q n1)]

/-- Settles O32: the sponge function reads one stream from its beginning. -/
theorem spongeOutputsArePrefixes : Obligations.SpongeOutputsArePrefixes := by
  intro m M n1 n2 h
  simp only [spongeFn_eq, length_streamBytes, take_streamBytes _ _ _ h, and_self]

end Sys2Proof.Machine
end

section
/-! SUPPORT. The mode encoders ENC: the length encodings and the padding of strings, and what SHA3, XOF and KMACX
answer, in terms of the sponge function (42_modes.md R170 to R185). -/

namespace Sys2Proof.Machine

open Sys2Proof

/-! ### SETLEN -/

theorem exec_setlen_of_dvd {bits : BitVec 24} (h : 8 ∣ bits.toNat) (s : State) :
    exec (.setlen bits) s = complete (s.setOutlen bits) := if_neg (not_not.2 (Nat.mod_eq_zero_of_dvd h))

theorem exec_setlen_of_not_dvd {bits : BitVec 24} (h : ¬ 8 ∣ bits.toNat) (s : State) :
    exec (.setlen bits) s = raise .cfgLen s := if_pos (mt Nat.dvd_of_mod_eq_zero h)

/-- Settles O35: the two branches of SETLEN. -/
theorem setlenTakesMultiplesOfEight : Obligations.SetlenTakesMultiplesOfEight := by
  refine fun s bits => ⟨?_, fun h => exec_setlen_of_dvd h s, fun h => exec_setlen_of_not_dvd h s⟩
  simpa using operandFieldPlacement (.setlen bits)

/-! ### LENC and RENC -/

/-- One byte fewer than `lenBytes x` does not hold x (R171: the least such number). -/
theorem lenBytes_eq_one_or_le (x : Nat) : lenBytes x = 1 ∨ 2 ^ (8 * (lenBytes x - 1)) ≤ x := by
  have hpos := lenBytes_pos x
  refine or_iff_not_imp_left.2 fun h1 => not_lt.1 fun hlt => ?_
  have := (lenBytes_le_iff x (by omega)).2 hlt
  omega

theorem lenBytes_le_255 {x : Nat} (h : x < 2 ^ 2040) : lenBytes x ≤ 255 := by
  rwa [lenBytes_le_iff x (by decide), show 8 * 255 = 2040 from rfl]

theorem exec_lenc_of_neg {s : State} {za : ZReg} (h : s.getZ za < 0) (bd : BReg) :
    exec (.lenc bd za) s = raise .range s := if_pos h

theorem exec_renc_of_neg {s : State} {za : ZReg} (h : s.getZ za < 0) (bd : BReg) :
    exec (.renc bd za) s = raise .range s := if_pos h

theorem exec_lenc {s : State} {za : ZReg} {x : Nat} (h : s.getZ za = x) (bd : BReg) :
    exec (.lenc bd za) s = complete (s.setB bd (leftEncode x)) := by
  rw [exec, execLenc, h, if_neg (not_lt.2 (Int.natCast_nonneg x)), Int.toNat_natCast]

theorem exec_renc {s : State} {za : ZReg} {x : Nat} (h : s.getZ za = x) (bd : BReg) :
    exec (.renc bd za) s = complete (s.setB bd (rightEncode x)) := by
  rw [exec, execRenc, h, if_neg (not_lt.2 (Int.natCast_nonneg x)), Int.toNat_natCast]

/-- Settles O33: the number of bytes is `lenBytes x`, and the bytes are x, big-endian. -/
theorem lengthEncodings : Obligations.LengthEncodings := by
  refine ⟨fun x hx => ?_, fun s bd za => ⟨?_, ?_, ?_, ?_⟩⟩
  · exact ⟨lenBytes x, beBytes (lenBytes x) x, lenBytes_pos x, lenBytes_le_255 hx,
      (lenBytes_le_iff x (lenBytes_pos x)).1 le_rfl, lenBytes_eq_one_or_le x, length_beBytes _ _,
      decU_beBytes_lenBytes x, rfl, rfl⟩
  · simpa using operandFieldPlacement (.lenc bd za)
  · simpa using operandFieldPlacement (.renc bd za)
  · exact fun h => ⟨exec_lenc_of_neg h bd, exec_renc_of_neg h bd⟩
  · exact fun x h => ⟨exec_lenc h bd, exec_renc h bd⟩

/-! ### ENCSTR and BYTEPAD -/

/-- R174: `bytepad` writes the width in front and fewer than w zero bytes behind, a multiple of w in all. -/
theorem exists_bytepad_eq (X : Bytes) {w : Nat} (hw : 0 < w) :
    ∃ k < w, bytepad X w = leftEncode w ++ X ++ List.replicate k 0 ∧
      w ∣ (leftEncode w ++ X ++ List.replicate k 0).length :=
  ⟨_, Nat.mod_lt _ hw, rfl, Nat.dvd_of_mod_eq_zero (length_bytepad_mod X hw)⟩

theorem storeBounded_of_le {v : Bytes} (h : v.length ≤ 65535) (bd : BReg) (s : State) :
    storeBounded bd v s = complete (s.setB bd v) := if_neg (not_lt.2 h)

theorem storeBounded_of_gt {v : Bytes} (h : 65535 < v.length) (bd : BReg) (s : State) :
    storeBounded bd v s = raise .overflow s := if_pos h

theorem exec_encstr (bd ba : BReg) (s : State) :
    exec (.encstr bd ba) s = storeBounded bd (encodeString (s.getB ba)) s := rfl

theorem exec_bytepad_zero (bd ba : BReg) (s : State) : exec (.bytepad bd ba 0) s = raise .cfgLen s := rfl

theorem exec_bytepad {w : BitVec 16} (h : w ≠ 0) (bd ba : BReg) (s : State) :
    exec (.bytepad bd ba w) s = storeBounded bd (bytepad (s.getB ba) w.toNat) s := if_neg h

/-- Settles O34: both commands are a bounded store of the encoded string. -/
theorem encstrAndBytepad : Obligations.EncstrAndBytepad := by
  refine fun s bd ba w => ⟨?_, ?_, ⟨?_, ?_⟩, ?_, fun hw => ?_⟩
  · simpa using operandFieldPlacement (.encstr bd ba)
  · simpa using operandFieldPlacement (.bytepad bd ba w)
  · exact fun hv => storeBounded_of_le hv bd s
  · exact fun hv => storeBounded_of_gt hv bd s
  · rintro rfl
    exact exec_bytepad_zero bd ba s
  · have hpos : 0 < w.toNat := Nat.pos_of_ne_zero fun h0 => hw (BitVec.eq_of_toNat_eq h0)
    obtain ⟨k, hk, heq, hdvd⟩ := exists_bytepad_eq (s.getB ba) hpos
    refine ⟨k, hk, hdvd, fun hv => ?_, fun hv => ?_⟩
    · rw [exec_bytepad hw, heq, storeBounded_of_le hv]
      rfl
    · rw [exec_bytepad hw, heq, storeBounded_of_gt hv]
      rfl

/-! ### SHA3 -/

@[simp] theorem length_spongeFn (m : Fin 6) (M : Bytes) (n : Nat) : (spongeFn m M n).length = n := by
  rw [spongeFn_eq, length_streamBytes]

/-- R180: each of the four digest lengths has its mode, whose capacity is twice the length. -/
theorem exists_digestMode {bits : BitVec 16} (h : bits.toNat ∈ [224, 256, 384, 512]) :
    ∃ m : Fin 6, digestMode bits = some m ∧ (modeTag m).1.capacity = 2 * bits.toNat ∧ (modeTag m).2 = 0x06 ∧
      8 ∣ bits.toNat := by
  have hbits : bits = 224 ∨ bits = 256 ∨ bits = 384 ∨ bits = 512 := by
    simp only [List.mem_cons, List.not_mem_nil, or_false] at h
    bv_omega
  obtain rfl | rfl | rfl | rfl := hbits <;> decide

theorem digestMode_eq_none {bits : BitVec 16} (h : bits.toNat ∉ [224, 256, 384, 512]) : digestMode bits = none := by
  have hne {n : BitVec 16} (hn : n.toNat ∈ [224, 256, 384, 512]) : bits ≠ n := fun heq => h (heq ▸ hn)
  rw [digestMode, if_neg (hne (by decide)), if_neg (hne (by decide)), if_neg (hne (by decide)),
    if_neg (hne (by decide))]

theorem exec_sha3_of_none {bits : BitVec 16} (h : digestMode bits = none) (bd ba : BReg) (s : State) :
    exec (.sha3 bd ba bits) s = raise .cfgLen s := by
  rw [exec, execSha3, h]

theorem exec_sha3 {bits : BitVec 16} {m : Fin 6} (h : digestMode bits = some m) (bd ba : BReg) (s : State) :
    exec (.sha3 bd ba bits) s = complete (s.discardCtx.setB bd (spongeFn m (s.getB ba) (bits.toNat / 8))) := by
  rw [exec, execSha3, h, ← oneShot_eq_spongeFn]

/-- Settles O36: the four lengths select their modes, and the one-shot computation is the sponge function. -/
theorem sha3IsTheFixedHash : Obligations.Sha3IsTheFixedHash := by
  refine fun s bd ba bits => ⟨?_, fun h => exec_sha3_of_none (digestMode_eq_none h) bd ba s, fun h => ?_⟩
  · simpa using operandFieldPlacement (.sha3 bd ba bits)
  · obtain ⟨m, hm, hcap, hsfx, hdvd⟩ := exists_digestMode h
    refine ⟨m, hcap, hsfx, ?_, exec_sha3 hm bd ba s⟩
    rw [length_spongeFn, Nat.div_mul_cancel hdvd]

/-! ### XOF -/

theorem cshake256_of_empty {N C : Bytes} (h : N = [] ∧ C = []) (X : Bytes) (L : Nat) :
    cshake256 X L N C = spongeFn 4 X (L / 8) := by
  rw [cshake256, if_pos h, oneShot_eq_spongeFn]

theorem cshake256_of_customized {N C : Bytes} (h : ¬ (N = [] ∧ C = [])) (X : Bytes) (L : Nat) :
    cshake256 X L N C = spongeFn 5 (bytepad (encodeString N ++ encodeString C) 136 ++ X) (L / 8) := by
  rw [cshake256, if_neg h, oneShot_eq_spongeFn]

theorem exec_xof_of_gt {s : State} (h : 65535 < s.outlen.toNat / 8) (bd ba bb bc : BReg) :
    exec (.xof bd ba bb bc) s = raise .overflow s := if_pos h

theorem exec_xof {s : State} (h : s.outlen.toNat / 8 ≤ 65535) (bd ba bb bc : BReg) :
    exec (.xof bd ba bb bc) s
      = complete (s.discardCtx.setB bd (cshake256 (s.getB ba) s.outlen.toNat (s.getB bb) (s.getB bc))) :=
  if_neg (not_lt.2 h)

/-- Settles O37: the output is cSHAKE256, by its two cases. -/
theorem xofIsTheCustomizableXof : Obligations.XofIsTheCustomizableXof := by
  refine fun s bd ba bb bc => ⟨?_, fun h => exec_xof_of_gt h bd ba bb bc, fun h => ?_⟩
  · simpa using operandFieldPlacement (.xof bd ba bb bc)
  · exact ⟨_, length_cshake256 _ _ _ _, exec_xof h bd ba bb bc, fun h0 => cshake256_of_empty h0 _ _,
      fun h0 => cshake256_of_customized h0 _ _⟩

/-! ### KMACX -/

/-- The name "KMAC" is 32 bits long (R173, R185). -/
theorem encodeString_kmacName : encodeString kmacName = [0x01, 0x20, 0x4B, 0x4D, 0x41, 0x43] := by decide

theorem rightEncode_zero : rightEncode 0 = [0x00, 0x01] := by decide

/-- R185: the name "KMAC" is not empty, so that the keyed MAC is always the customized sponge. -/
theorem kmacxof256_eq_spongeFn (K X : Bytes) (L : Nat) (C : Bytes) :
    kmacxof256 K X L C
      = spongeFn 5 (bytepad ([0x01, 0x20, 0x4B, 0x4D, 0x41, 0x43] ++ encodeString C) 136
          ++ bytepad (encodeString K) 136 ++ X ++ [0x00, 0x01]) (L / 8) := by
  have hname : ¬ (kmacName = [] ∧ C = []) := fun ⟨hN, _⟩ => List.cons_ne_nil _ _ hN
  rw [kmacxof256, cshake256_of_customized hname, encodeString_kmacName, rightEncode_zero]
  simp only [List.append_assoc]

theorem exec_kmacx_of_nil {s : State} {ba : BReg} (h : s.getB ba = []) (bd bb bc : BReg) :
    exec (.kmacx bd ba bb bc) s = raise .cfgKey s := if_pos (List.length_eq_zero_iff.2 h)

theorem exec_kmacx_of_gt {s : State} {ba : BReg} (hk : s.getB ba ≠ []) (h : 65535 < s.outlen.toNat / 8)
    (bd bb bc : BReg) : exec (.kmacx bd ba bb bc) s = raise .overflow s := by
  rw [exec, execKmacx, if_neg (mt List.length_eq_zero_iff.1 hk)]
  exact if_pos h

theorem exec_kmacx {s : State} {ba : BReg} (hk : s.getB ba ≠ []) (h : s.outlen.toNat / 8 ≤ 65535) (bd bb bc : BReg) :
    exec (.kmacx bd ba bb bc) s
      = complete (s.discardCtx.setB bd (kmacxof256 (s.getB ba) (s.getB bb) s.outlen.toNat (s.getB bc))) := by
  rw [exec, execKmacx, if_neg (mt List.length_eq_zero_iff.1 hk)]
  exact if_neg (not_lt.2 h)

/-- Settles O38: the errors in their order, and the stream the keyed MAC absorbs. -/
theorem kmacxIsTheKeyedMac : Obligations.KmacxIsTheKeyedMac := by
  refine fun s bd ba bb bc => ⟨?_, fun h => exec_kmacx_of_nil h bd bb bc,
    fun hk h => exec_kmacx_of_gt hk h bd bb bc, fun hk h => ?_⟩
  · simpa using operandFieldPlacement (.kmacx bd ba bb bc)
  · rw [exec_kmacx hk h, kmacxof256_eq_spongeFn]
    rfl

end Sys2Proof.Machine
end

section
/-! SUPPORT. The integer codec and the integer register commands of MOD: what the encodings are, what the loads, stores and
comparisons answer, and the residues of the modular commands (43_modarith.md R200 to R219). -/

namespace Sys2Proof.Machine

open Sys2Proof

set_option exponentiation.threshold 1000

/-! ### The decoders -/

/-- R203: `dec_u` is the positional sum. -/
theorem decU_eq_sum (s : Bytes) :
    decU s = ((List.range s.length).map fun i => (s.getD i 0).toNat * 256 ^ (s.length - 1 - i)).sum := by
  induction s with
  | nil => rfl
  | cons b s ih =>
    rw [decU, ih, List.length_cons, List.range_succ_eq_map, List.map_cons, List.map_map, List.sum_cons]
    congr 3
    funext i
    simp [Nat.sub_sub, Nat.add_comm 1 i]

theorem decS_eq_of_sign {s : Bytes} (hs : s ≠ []) :
    decS s = if 0x80 ≤ (s.getD 0 0).toNat then (decU s : Int) - 256 ^ s.length else (decU s : Int) := by
  cases s with
  | nil => exact absurd rfl hs
  | cons b s => rfl

/-- The signed reading is negative exactly when bit 7 of byte 0 is set. -/
theorem decS_neg_iff {s : Bytes} (hs : s ≠ []) : decS s < 0 ↔ 0x80 ≤ (s.getD 0 0).toNat := by
  have hlt : (decU s : Int) < 256 ^ s.length := by exact_mod_cast decU_lt s
  rw [decS_eq_of_sign hs]
  split
  · next h => exact iff_of_true (by linarith) h
  · next h => exact iff_of_false (not_lt.2 (Int.natCast_nonneg _)) h

theorem decS_zero_cons (s : Bytes) : decS (0x00 :: s) = decU s := by simp [decS, decU]

/-- The byte that extends the sign of n on the left. -/
def signByte (n : Int) : Byte := if n < 0 then 0xFF else 0x00

/-- One more byte of sign changes no value. -/
theorem decS_signByte_cons {s : Bytes} (hs : s ≠ []) : decS (signByte (decS s) :: s) = decS s := by
  by_cases hneg : decS s < 0
  · have hpow : (256 : Int) ^ (s.length + 1) = 256 * 256 ^ s.length := pow_succ' _ _
    rw [signByte, if_pos hneg, decS_eq_of_sign hs, if_pos ((decS_neg_iff hs).1 hneg)]
    simp [decS, decU, hpow]
    ring
  · rw [signByte, if_neg hneg, decS_zero_cons, decS_eq_of_sign hs, if_neg (mt (decS_neg_iff hs).2 hneg)]

/-- Any number of bytes of sign changes no value. -/
theorem decS_replicate_signByte {s : Bytes} (hs : s ≠ []) (k : Nat) :
    decS (List.replicate k (signByte (decS s)) ++ s) = decS s := by
  induction k with
  | zero => rfl
  | succ k ih =>
    have hne : List.replicate k (signByte (decS s)) ++ s ≠ [] := List.append_ne_nil_of_right_ne_nil _ hs
    calc decS (List.replicate (k + 1) (signByte (decS s)) ++ s)
        = decS (signByte (decS (List.replicate k (signByte (decS s)) ++ s)) ::
            (List.replicate k (signByte (decS s)) ++ s)) := by rw [ih]; rfl
      _ = decS s := by rw [decS_signByte_cons hne, ih]

/-! ### The decoders tell strings of one length apart -/

theorem decU_injective {s t : Bytes} (hl : s.length = t.length) (h : decU s = decU t) : s = t := by
  induction s generalizing t with
  | nil => exact (List.eq_nil_of_length_eq_zero hl.symm).symm
  | cons b s ih =>
    obtain _ | ⟨c, t⟩ := t
    · cases hl
    have hlen : s.length = t.length := Nat.succ.inj hl
    have hs := decU_lt s
    have ht := decU_lt t
    rw [decU, decU, hlen] at h
    rw [hlen] at hs
    have hbc : b.toNat = c.toNat := by
      have hdiv := congrArg (· / 256 ^ t.length) h
      simpa [Nat.mul_add_div, mul_comm _ (256 ^ t.length), Nat.div_eq_of_lt hs, Nat.div_eq_of_lt ht] using hdiv
    rw [hbc] at h
    rw [BitVec.eq_of_toNat_eq hbc, ih hlen (Nat.add_left_cancel h)]

/-- `dec_s` and `dec_u` of n bytes are congruent modulo 256^n. -/
theorem decS_emod {s : Bytes} (hs : s ≠ []) : decS s % 256 ^ s.length = decU s := by
  have hlt : (decU s : Int) < 256 ^ s.length := by exact_mod_cast decU_lt s
  have hmod : (decU s : Int) % 256 ^ s.length = decU s := Int.emod_eq_of_lt (Int.natCast_nonneg _) hlt
  rw [decS_eq hs]
  split
  · rw [Int.sub_emod_right, hmod]
  · exact hmod

theorem decS_injective {s t : Bytes} (hs : s ≠ []) (ht : t ≠ []) (hl : s.length = t.length) (h : decS s = decS t) :
    s = t := by
  refine decU_injective hl ?_
  zify
  rw [← decS_emod hs, ← decS_emod ht, hl, h]

/-! ### The encoders -/

/-- R201: no string that reads as n is shorter than `enc_nat(n)`. -/
theorem encNatLen_le_length {s : Bytes} (hs : s ≠ []) : encNatLen (decS s) ≤ s.length := by
  have hpos := List.length_pos_iff.2 hs
  obtain ⟨hl, hu⟩ := decS_range hs
  rw [pow_256_eq hpos] at hl hu
  exact (encNatLen_le_iff _ hpos).2 ⟨by linarith, by linarith⟩

theorem fits65_iff (n : Int) : fits65 n = true ↔ -2 ^ 519 ≤ n ∧ n ≤ 2 ^ 519 - 1 := decide_eq_true_iff

theorem encNatLen_le_65 {n : Int} (h : fits65 n = true) : encNatLen n ≤ 65 := by
  obtain ⟨hl, hu⟩ := (fits65_iff n).1 h
  exact (encNatLen_le_iff n (by decide)).2 ⟨hl, Int.lt_of_le_sub_one hu⟩

/-- R202: the fixed-width encoding is the natural one, sign-extended to 65 bytes. -/
theorem enc65_eq_signExtend {n : Int} (h : fits65 n = true) :
    enc65 n = List.replicate (65 - (encNat n).length) (signByte n) ++ encNat n := by
  have hne := encNat_ne_nil n
  have hlen := encNatLen_le_65 h
  have hext := decS_replicate_signByte hne (65 - (encNat n).length)
  rw [decS_encNat] at hext
  refine decS_injective (List.ne_nil_of_length_pos (by simp)) (List.append_ne_nil_of_right_ne_nil _ hne) ?_ ?_
  · simp
    omega
  · rw [decS_enc65 h, hext]

/-- Settles O40: strings of one length are told apart by what they read as, so each encoding is the one that reads back. -/
theorem integerCodec : Obligations.IntegerCodec := by
  refine ⟨decU_eq_sum, fun s hs => decS_eq_of_sign hs, fun n => ⟨decS_encNat n, ?_, fun s hs hn => ?_⟩,
    fun n hl hu => ?_, decS_zero_cons, fun s hs => ?_⟩
  · exact (List.length_pos_iff.2 (encNat_ne_nil n)).ne'
  · subst hn
    refine ⟨?_, fun hlen => decS_injective hs (encNat_ne_nil _) hlen (decS_encNat _).symm⟩
    rw [length_encNat]
    exact encNatLen_le_length hs
  · have h65 : fits65 n = true := (fits65_iff n).2 ⟨hl, hu⟩
    exact ⟨decS_enc65 h65, length_enc65 n, enc65_eq_signExtend h65⟩
  · have hsign := decS_signByte_cons hs
    simpa only [signByte, decS_neg_iff hs] using hsign

end Sys2Proof.Machine
end

section
/-! SUPPORT. The modular arithmetic unit MOD: what the integer register commands and the modular commands answer, the
inverse, and the laws between the commands (43_modarith.md R204 to R219), with the constants and the comparison of points
(44_curve.md R231, R239). -/

namespace Sys2Proof.Machine

open Sys2Proof

set_option exponentiation.threshold 1000

/-! ### Residues -/

theorem State.getZ_withSt (s : State) (e : Status) (j : ZReg) : State.getZ { s with st := e } j = s.getZ j := rfl

/-- R200: the end shared by the modular commands writes the residue of the exact result. -/
theorem exists_residue (m : Modulus) (zd : ZReg) (n : Int) (s : State) :
    ∃ r : Int, 0 ≤ r ∧ r < modulus m ∧ (modulus m : Int) ∣ n - r ∧ storeResidue m zd n s = complete (s.setZ zd r) := by
  have hpos : (0 : Int) < modulus m := by exact_mod_cast modulus_pos m
  exact ⟨n % modulus m, Int.emod_nonneg n hpos.ne', Int.emod_lt_of_pos n hpos, Int.dvd_self_sub_emod, rfl⟩

/-- Settles O43: each of the five commands is the shared end with its own exact result. -/
theorem modularCommandsGiveResidues : Obligations.ModularCommandsGiveResidues := by
  intro s m zd za zb
  have hres := fun n => exists_residue m zd n s
  cases m <;> exact ⟨hres _, hres _, hres _, hres _, hres _⟩

/-! ### The inverse -/

theorem one_lt_modulus (m : Modulus) : 1 < modulus m := by cases m <;> decide +kernel

/-- An operand prime to the modulus is no multiple of it. -/
theorem not_dvd_of_gcd_eq_one {m : Modulus} {x : Int} (h : Int.gcd x (modulus m) = 1) : ¬ (modulus m : Int) ∣ x := by
  intro hdvd
  have hgcd : Int.gcd x (modulus m) = modulus m := by
    rw [Int.gcd_comm]
    exact_mod_cast (Int.gcd_eq_left_iff_dvd (Int.natCast_nonneg _)).2 hdvd
  have := one_lt_modulus m
  omega

/-- For the field prime every operand that is no multiple of it is prime to it. -/
theorem gcd_fieldP_eq_one {x : Int} (h : ¬ (modulus .fieldP : Int) ∣ x) : Int.gcd x (modulus .fieldP) = 1 :=
  Int.isCoprime_iff_gcd_eq_one.1
    ((Nat.prime_iff_prime_int.1 config_complete.prime).coprime_iff_not_dvd.2 h).symm

@[simp] theorem invMod_emod (m : Nat) (x : Int) : invMod m (x % m) = invMod m x := by simp [invMod]

theorem exec_minv_of_dvd {s : State} {m : Modulus} {za : ZReg} (h : (modulus m : Int) ∣ s.getZ za) (zd : ZReg) :
    exec (.minv m zd za) s = raise .divzero s := if_pos (Int.emod_eq_zero_of_dvd h)

theorem exec_minv {s : State} {m : Modulus} {za : ZReg} (h : ¬ (modulus m : Int) ∣ s.getZ za) (zd : ZReg) :
    exec (.minv m zd za) s = complete (s.setZ zd (invMod (modulus m) (s.getZ za))) := by
  rw [exec, execMinv, if_neg (mt Int.dvd_of_emod_eq_zero h), invMod_emod]

/-- R218: an operand prime to the modulus times its inverse is congruent to 1. -/
theorem dvd_mul_invMod_sub_one {m : Modulus} {x : Int} (h : Int.gcd x (modulus m) = 1) :
    (modulus m : Int) ∣ x * invMod (modulus m) x - 1 := by
  rw [mul_comm]
  exact invMod_spec (modulus_pos m) h

/-- The inverse of an operand prime to the modulus is not 0. -/
theorem one_le_invMod {m : Modulus} {x : Int} (h : Int.gcd x (modulus m) = 1) : 1 ≤ invMod (modulus m) x := by
  obtain ⟨hnonneg, -⟩ := invMod_range (modulus_pos m) x
  refine lt_of_le_of_ne hnonneg fun h0 => ?_
  have hdvd := dvd_mul_invMod_sub_one h
  rw [← h0] at hdvd
  have hdvd1 : (modulus m : Int) ∣ 1 := by simpa using hdvd
  have hlt : (1 : Int) < modulus m := by exact_mod_cast one_lt_modulus m
  exact not_lt.2 (Int.le_of_dvd one_pos hdvd1) hlt

/-- R218, for both moduli: what MINV answers. -/
theorem exec_minv_cases (s : State) (m : Modulus) (zd za : ZReg) :
    ((modulus m : Int) ∣ s.getZ za → exec (.minv m zd za) s = raise .divzero s) ∧
    (¬ (modulus m : Int) ∣ s.getZ za → ∃ r : Int, 0 ≤ r ∧ r < modulus m ∧
      exec (.minv m zd za) s = complete (s.setZ zd r) ∧
      (m = .fieldP ∨ Int.gcd (s.getZ za) (modulus m) = 1 → 1 ≤ r ∧ (modulus m : Int) ∣ s.getZ za * r - 1)) := by
  refine ⟨fun h => exec_minv_of_dvd h zd, fun h => ?_⟩
  obtain ⟨hnonneg, hlt⟩ := invMod_range (modulus_pos m) (s.getZ za)
  refine ⟨_, hnonneg, hlt, exec_minv h zd, fun hcase => ?_⟩
  have hgcd : Int.gcd (s.getZ za) (modulus m) = 1 := by
    obtain rfl | hgcd := hcase
    · exact gcd_fieldP_eq_one h
    · exact hgcd
  exact ⟨one_le_invMod hgcd, dvd_mul_invMod_sub_one hgcd⟩

/-- Settles O44: MINV by its two branches; the operands of the last claim are prime to the modulus. -/
theorem modularInverse : Obligations.ModularInverse := by
  intro s m zd za
  have hminv := exec_minv_cases s m zd za
  cases m <;> exact hminv

/-! ### The laws of the modular commands -/

/-- A command that writes one integer register, and then a modular command that reads it and another. -/
theorem execAll_setZ_storeResidue {i j : Instr} {s : State} {m : Modulus} {zd za zt : ZReg} {v : Int}
    {f : Int → Int → Int} (hi : exec i s = complete (s.setZ zt v))
    (hj : ∀ t, exec j t = storeResidue m zd (f (t.getZ za) (t.getZ zt)) t) (h : zt ≠ za) :
    ∃ t, execAll [i, j] s = .next t ∧ t.getZ zd = f (s.getZ za) v % modulus m := by
  refine ⟨_, (execAll_cons hi _).trans ((execAll_cons (hj _) _).trans (execAll_nil _)), ?_⟩
  simp only [State.getZ_withSt, State.getZ_setZ_self, State.getZ_setZ_ne _ _ h]

/-- What a modular command with the exact result n leaves in its destination. -/
theorem exists_getZ_storeResidue (m : Modulus) (zd : ZReg) (n : Int) (s : State) :
    ∃ u, storeResidue m zd n s = .next u ∧ u.getZ zd = n % modulus m :=
  ⟨_, rfl, State.getZ_setZ_self _ _ _⟩

/-- R219: subtracting is adding the negative. -/
theorem msub_eq_madd_mneg (s : State) (m : Modulus) (zd zb : ZReg) {za zt : ZReg} (h : zt ≠ za) :
    ∃ t u, execAll [.mneg m zt zb, .madd m zd za zt] s = .next t ∧ exec (.msub m zd za zb) s = .next u ∧
      t.getZ zd = u.getZ zd := by
  obtain ⟨t, ht, htz⟩ := execAll_setZ_storeResidue (i := .mneg m zt zb) (j := .madd m zd za zt) (s := s)
    (f := (· + ·)) rfl (fun _ => rfl) h
  obtain ⟨u, hu, huz⟩ := exists_getZ_storeResidue m zd (s.getZ za - s.getZ zb) s
  refine ⟨t, u, ht, hu, ?_⟩
  rw [htz, huz, Int.add_emod_emod, sub_eq_add_neg]

/-- R219: an operand prime to the modulus times its inverse is 1. -/
theorem mmul_minv (s : State) (m : Modulus) (zd : ZReg) {za zt : ZReg} (h : zt ≠ za)
    (hgcd : Int.gcd (s.getZ za) (modulus m) = 1) :
    ∃ t, execAll [.minv m zt za, .mmul m zd za zt] s = .next t ∧ t.getZ zd = 1 := by
  obtain ⟨t, ht, htz⟩ := execAll_setZ_storeResidue (j := .mmul m zd za zt) (f := (· * ·))
    (exec_minv (not_dvd_of_gcd_eq_one hgcd) zt) (fun _ => rfl) h
  refine ⟨t, ht, htz.trans (emod_unique zero_le_one ?_ ?_)⟩
  · exact_mod_cast one_lt_modulus m
  · exact dvd_sub_comm.1 (dvd_mul_invMod_sub_one hgcd)

/-- R219: MMUL is a function of the residue of its operand, and commutes. -/
theorem mmul_zred (s : State) (m : Modulus) (zd zb : ZReg) {za zt : ZReg} (h : zt ≠ za) :
    ∃ t u, execAll [.zred m zt zb, .mmul m zd za zt] s = .next t ∧ exec (.mmul m zd zb za) s = .next u ∧
      t.getZ zd = u.getZ zd := by
  obtain ⟨t, ht, htz⟩ := execAll_setZ_storeResidue (i := .zred m zt zb) (j := .mmul m zd za zt) (s := s)
    (f := (· * ·)) rfl (fun _ => rfl) h
  obtain ⟨u, hu, huz⟩ := exists_getZ_storeResidue m zd (s.getZ zb * s.getZ za) s
  refine ⟨t, u, ht, hu, ?_⟩
  rw [htz, huz, mul_comm (s.getZ zb)]
  exact (Int.mod_modEq (s.getZ zb) (modulus m)).mul_left (s.getZ za)

/-- Settles O45: the three laws, for each modulus; R is not used to be prime. -/
theorem modularLaws : Obligations.ModularLaws := by
  intro s m zd za zb zt h
  refine ⟨msub_eq_madd_mneg s m zd zb h, ?_, mmul_zred s m zd zb h⟩
  have hinv := mmul_minv s m zd h
  cases m with
  | fieldP => exact fun hcase => hinv (hcase.elim (fun hp => gcd_fieldP_eq_one hp.2) id)
  | orderR => exact fun hcase => hinv (hcase.elim (fun hp => nomatch hp.1) id)

/-! ### The constants of the curve -/

theorem exec_zconst {sel : BitVec 16} {v : Int} (h : constSel sel = some v) (zd : ZReg) (s : State) :
    exec (.zconst zd sel) s = complete (s.setZ zd v) := by rw [exec, execZconst, h]

theorem exec_zconst_of_two_le {sel : BitVec 16} (h : 2 ≤ sel.toNat) (zd : ZReg) (s : State) :
    exec (.zconst zd sel) s = raise .illegal s := by
  have h0 : sel ≠ 0 := by rintro rfl; exact absurd h (by decide)
  have h1 : sel ≠ 1 := by rintro rfl; exact absurd h (by decide)
  rw [exec, execZconst, constSel, if_neg h0, if_neg h1]

/-- R231: d is not the residue of a square. -/
theorem not_dvd_sq_sub_d : ¬ ∃ x : Int, (Config.curve.P : Int) ∣ x ^ 2 - Config.curve.d := by
  rintro ⟨x, hx⟩
  refine config_complete.nonsquare ⟨x, ?_⟩
  have hcast := (ZMod.intCast_zmod_eq_zero_iff_dvd _ _).2 hx
  push_cast at hcast
  linear_combination -hcast

theorem curve_R_lt : Config.curve.R < 2 ^ 519 := by decide +kernel

/-- Everything the statement claims of the constants and of ZCONST holds, but for the hexadecimal form of R: the statement
is equivalent to that one equation. -/
theorem curveConstants_iff : Obligations.CurveConstants ↔
    Config.curve.R =
      0x7FFFFFFFFFFFFFFFFFFFFFFFFFFFFFFFFFFFFFFFFFFFFFFFFFFFFFFFFFFFFFFFFFD15B6C64746FC85F736B8AF5E7EC53F04FBD8C4569A8F1F4540EA2435F5180D6B := by
  refine ⟨fun ⟨_, _, _, _, hR, _⟩ => hR, fun hR => ⟨config_complete.prime, not_dvd_sq_sub_d, rfl, by decide +kernel, hR,
    rfl, by decide +kernel, by decide +kernel, by decide +kernel, basePoint_wf, fun s zd sel => ⟨?_, ?_, ?_, ?_⟩⟩⟩
  · simpa using operandFieldPlacement (.zconst zd sel)
  · rintro rfl
    exact exec_zconst rfl zd s
  · rintro rfl
    exact exec_zconst rfl zd s
  · exact fun h => exec_zconst_of_two_le h zd s

/-- Refutes O47: R231 prints R twice, and its hexadecimal form has one F too many. It has 131 digits and lies above
2^522, where the decimal form, which the model follows, lies below 2^519. -/
theorem not_curveConstants : ¬ Obligations.CurveConstants := by
  rw [curveConstants_iff]
  intro hR
  have hlt := curve_R_lt
  rw [hR] at hlt
  exact absurd hlt (by decide +kernel)

/-! ### Loads, stores and moves -/

theorem exec_zlds {s : State} {ba : BReg} (h : 1 ≤ (s.getB ba).length ∧ (s.getB ba).length ≤ 66) (zd : ZReg) :
    exec (.zlds zd ba) s = complete (s.setZ zd (decS (s.getB ba))) := if_neg (by omega)

theorem exec_zlds_of_length {s : State} {ba : BReg} (h : ¬ (1 ≤ (s.getB ba).length ∧ (s.getB ba).length ≤ 66))
    (zd : ZReg) : exec (.zlds zd ba) s = raise .length s := if_pos (by omega)

theorem exec_zldu {s : State} {ba : BReg} (h : (s.getB ba).length ≤ 65) (zd : ZReg) :
    exec (.zldu zd ba) s = complete (s.setZ zd (decU (s.getB ba))) := if_neg (not_lt.2 h)

theorem exec_zldu_of_gt {s : State} {ba : BReg} (h : 65 < (s.getB ba).length) (zd : ZReg) :
    exec (.zldu zd ba) s = raise .length s := if_pos h

/-- Settles O41: the branches of ZLDS and ZLDU by the length; ZLI and ZMOV have one. -/
theorem integerLoadsAndMoves : Obligations.IntegerLoadsAndMoves := by
  refine fun s zd za ba value => ⟨?_, rfl, ?_, fun h => exec_zlds h zd, fun h => exec_zlds_of_length h zd, ?_,
    fun h => exec_zldu h zd, fun h => exec_zldu_of_gt h zd, ?_, rfl⟩
  · simpa using operandFieldPlacement (.zli zd value)
  · simpa using operandFieldPlacement (.zlds zd ba)
  · simpa using operandFieldPlacement (.zldu zd ba)
  · simpa using operandFieldPlacement (.zmov zd za)

theorem exec_zst65 {s : State} {za : ZReg} (h : fits65 (s.getZ za) = true) (bd : BReg) :
    exec (.zst65 bd za) s = complete (s.setB bd (enc65 (s.getZ za))) := if_pos h

theorem exec_zst65_of_not_fits {s : State} {za : ZReg} (h : ¬ fits65 (s.getZ za) = true) (bd : BReg) :
    exec (.zst65 bd za) s = raise .range s := if_neg h

theorem exec_zmul4 {s : State} {za : ZReg} (h : fitsZ (4 * s.getZ za) = true) (zd : ZReg) :
    exec (.zmul4 zd za) s = complete (s.setZ zd (4 * s.getZ za)) := if_pos h

theorem exec_zmul4_of_not_fits {s : State} {za : ZReg} (h : ¬ fitsZ (4 * s.getZ za) = true) (zd : ZReg) :
    exec (.zmul4 zd za) s = raise .range s := if_neg h

theorem fitsZ_iff (n : Int) : fitsZ n = true ↔ -2 ^ 527 ≤ n ∧ n ≤ 2 ^ 527 - 1 := decide_eq_true_iff

/-- Settles O42: the branches of ZST65 and ZMUL4 by the range of what they store. -/
theorem integerStoresAndCofactor : Obligations.IntegerStoresAndCofactor := by
  refine fun s bd zd za => ⟨?_, rfl, ?_, fun h => ?_, fun h => ?_, ?_, fun h => ?_, fun h => ?_⟩
  · simpa using operandFieldPlacement (.zst bd za)
  · simpa using operandFieldPlacement (.zst65 bd za)
  · exact exec_zst65 ((fits65_iff _).2 h) bd
  · refine exec_zst65_of_not_fits (fun hfits => ?_) bd
    obtain ⟨hl, hu⟩ := (fits65_iff _).1 hfits
    exact h.elim (not_lt.2 hl) (not_lt.2 hu)
  · simpa using operandFieldPlacement (.zmul4 zd za)
  · exact exec_zmul4 ((fitsZ_iff _).2 h) zd
  · refine exec_zmul4_of_not_fits (fun hfits => ?_) zd
    obtain ⟨hl, hu⟩ := (fitsZ_iff _).1 hfits
    exact h.elim (not_lt.2 hl) (not_lt.2 hu)

/-! ### Comparisons -/

theorem exec_zeq (za zb : ZReg) (s : State) :
    exec (.zeq za zb) s = complete (s.setVF (decide (s.getZ za = s.getZ zb))) := rfl

theorem exec_peq (pa pb : PReg) (s : State) :
    exec (.peq pa pb) s = complete (s.setVF (decide (s.getP pa = s.getP pb))) := rfl

theorem exec_zeq_of_eq {s : State} {za zb : ZReg} (h : s.getZ za = s.getZ zb) :
    exec (.zeq za zb) s = complete (s.setVF true) := by rw [exec_zeq, decide_eq_true h]

theorem exec_zeq_of_ne {s : State} {za zb : ZReg} (h : s.getZ za ≠ s.getZ zb) :
    exec (.zeq za zb) s = complete (s.setVF false) := by rw [exec_zeq, decide_eq_false h]

theorem exec_peq_of_eq {s : State} {pa pb : PReg} (h : s.getP pa = s.getP pb) :
    exec (.peq pa pb) s = complete (s.setVF true) := by rw [exec_peq, decide_eq_true h]

theorem exec_peq_of_ne {s : State} {pa pb : PReg} (h : s.getP pa ≠ s.getP pb) :
    exec (.peq pa pb) s = complete (s.setVF false) := by rw [exec_peq, decide_eq_false h]

/-- Settles O46: points in normal form with the same coordinates are equal. -/
theorem comparisonsSetTheFlag : Obligations.ComparisonsSetTheFlag := by
  refine fun s za zb pa pb => ⟨?_, exec_zeq_of_eq, exec_zeq_of_ne, ?_, fun ha hb => ⟨fun h => ?_, fun h => ?_⟩,
    exec_peq_of_eq, exec_peq_of_ne⟩
  · simpa using operandFieldPlacement (.zeq za zb)
  · simpa using operandFieldPlacement (.peq pa pb)
  · exact exec_peq_of_eq (Point.ext_coords ha.2 hb.2 h.1 h.2)
  · exact exec_peq_of_ne fun heq => h (heq ▸ ⟨rfl, rfl⟩)

end Sys2Proof.Machine
end

section
/-! SUPPORT. The multiples of a point of the curve, as the action of the integers on the group of points (44_curve.md
R234, R246). -/

namespace Sys2Proof.Machine

open Sys2Proof

set_option exponentiation.threshold 1000

/-! ### The scan, by the sign of the scalar -/

theorem smul_natCast (c : Curve) (T : Point) (k : Nat) : smul c T k = smulNat c T k :=
  if_neg (not_lt.2 (Int.natCast_nonneg k))

/-- R234: a negative k multiplies the negated point. -/
theorem smul_neg_natCast (c : Curve) (T : Point) (k : Nat) : smul c T (-k) = smulNat c (pneg c T) k := by
  obtain _ | k := k
  · rfl
  · have hneg : -((k + 1 : Nat) : Int) < 0 := by omega
    rw [smul, if_pos hneg, neg_neg, Int.toNat_natCast]

/-! ### The group of the points -/

/-- The values a point register may hold. -/
abbrev CurvePoint (c : Curve) := {T : Point // T.wf c}

section
variable {c : Curve} (hc : CurveComplete c)
include hc

section
variable {T : Point} (hT : T.wf c) (k : Nat)
include hT

theorem smul_natCast_eq_times : smul c T k = times c T k := by rw [smul_natCast, smulNat_eq_times hc hT]

theorem smul_neg_natCast_eq_pneg : smul c T (-k) = pneg c (times c T k) := by
  rw [smul_neg_natCast, smulNat_eq_times hc (pneg_wf hc hT.1), times_pneg hc hT]

end

/-- R246 (b) in Mathlib's terms, with `smul` as the integer multiple: its laws of multiples then hold of the points. -/
abbrev pointGroup : AddCommGroup (CurvePoint c) where
  add T U := ⟨padd c T U, padd_wf hc T.2.1 U.2.1⟩
  zero := ⟨.identity, identity_wf⟩
  neg T := ⟨pneg c T, pneg_wf hc T.2.1⟩
  add_assoc T U V := Subtype.ext (padd_assoc hc T.2 U.2 V.2)
  zero_add T := Subtype.ext (identity_padd hc T.2)
  add_zero T := Subtype.ext (padd_identity hc T.2)
  neg_add_cancel T := Subtype.ext ((padd_comm _ _).trans (padd_pneg hc T.2))
  add_comm T U := Subtype.ext (padd_comm _ _)
  nsmul k T := ⟨times c T k, times_wf hc T.2 k⟩
  nsmul_zero _ := rfl
  nsmul_succ _ _ := rfl
  zsmul k T := ⟨smul c T k, smul_wf hc T.2.1 k⟩
  zsmul_zero' _ := rfl
  zsmul_succ' k T := Subtype.ext <| by
    change smul c T (k + 1 : Nat) = padd c (smul c T k) T
    rw [smul_natCast_eq_times hc T.2, smul_natCast_eq_times hc T.2, times]
  zsmul_neg' k T := Subtype.ext <| by
    change smul c T (-(k + 1 : Nat)) = pneg c (smul c T (k + 1 : Nat))
    rw [smul_neg_natCast_eq_pneg hc T.2, smul_natCast_eq_times hc T.2]

/-! ### The laws of multiples -/

variable {T : Point} (hT : T.wf c)
include hT

theorem smul_scalar_one : smul c T 1 = T :=
  let := pointGroup hc
  congrArg Subtype.val (one_zsmul (⟨T, hT⟩ : CurvePoint c))

theorem smul_scalar_neg (k : Int) : smul c T (-k) = pneg c (smul c T k) :=
  let := pointGroup hc
  congrArg Subtype.val (neg_zsmul (⟨T, hT⟩ : CurvePoint c) k)

theorem smul_scalar_add (j k : Int) : smul c T (j + k) = padd c (smul c T j) (smul c T k) :=
  let := pointGroup hc
  congrArg Subtype.val (add_zsmul (⟨T, hT⟩ : CurvePoint c) j k)

theorem smul_scalar_mul (j k : Int) : smul c (smul c T j) k = smul c T (j * k) :=
  let := pointGroup hc
  congrArg Subtype.val (mul_zsmul' (⟨T, hT⟩ : CurvePoint c) j k).symm

theorem smul_scalar_add_one (k : Int) : smul c T (k + 1) = padd c (smul c T k) T := by
  rw [smul_scalar_add hc hT, smul_scalar_one hc hT]

theorem smul_scalar_two_mul (k : Int) : smul c T (2 * k) = padd c (smul c T k) (smul c T k) := by
  rw [two_mul, smul_scalar_add hc hT]

end

/-- Settles O55: the laws of integer multiples in a commutative group. -/
theorem smulIsRepeatedAddition : Obligations.SmulIsRepeatedAddition :=
  fun _ hT => ⟨rfl, fun k => smul_scalar_add_one config_complete hT k, smul_scalar_neg config_complete hT,
    smul_scalar_add config_complete hT, smul_scalar_mul config_complete hT⟩

/-! ### The order of the base point -/

/-- R231: the division-free scan of R starts from the base point with Z = 1. -/
theorem smul_basePoint_order : smul Config.curve (basePoint Config.curve) Config.curve.R = .identity := by
  have hrep : Proj.rep Config.curve (basePoint Config.curve) ⟨Config.curve.gx, Config.curve.gy, 1⟩ := by
    have := Fact.mk config_complete.prime
    simp [Proj.rep, basePoint, Point.x, Point.y]
  obtain ⟨hx, hy⟩ := (Bool.and_eq_true _ _).mp base_scan
  rw [smul_natCast]
  exact smulNat_identity config_complete basePoint_wf.1 hrep _ (eq_of_beq hx) (eq_of_beq hy)

theorem config_laws : CurveLaws Config.curve where
  field_large := by decide +kernel
  order_pos := modulus_pos .orderR
  order_small := curve_R_lt
  base_wf := basePoint_wf
  closed _ _ hT hU := padd_wf config_complete hT.1 hU.1
  neg_closed _ hT := pneg_wf config_complete hT.1
  assoc _ _ _ := padd_assoc config_complete
  comm _ _ _ _ := padd_comm _ _
  identity _ := padd_identity config_complete
  inverse _ := padd_pneg config_complete
  base_order := smul_basePoint_order

end Sys2Proof.Machine
end

section
/-! SUPPORT. The point commands of ECP: what each answers, by the checks it makes (44_curve.md R235 to R245). -/

namespace Sys2Proof.Machine

open Sys2Proof

theorem State.getP_withSt (s : State) (e : Status) (j : PReg) : State.getP { s with st := e } j = s.getP j := rfl

/-! ### Moves -/

theorem exec_pbase (pd : PReg) (s : State) :
    exec (.pbase pd) s = complete (s.setP pd (basePoint Config.curve)) := rfl

/-- Both coordinates of a point of the curve are in 0 .. P − 1 (R31). -/
theorem coords_range {T : Point} (h : T.onCurve Config.curve = true) :
    (0 ≤ T.x ∧ T.x < Config.curve.P) ∧ 0 ≤ T.y ∧ T.y < Config.curve.P := by
  obtain ⟨hx, hy, -⟩ := (onCurve_iff config_complete.prime.one_lt T).1 h
  exact ⟨hx, hy⟩

theorem exec_pgetx (zd : ZReg) (pa : PReg) (s : State) :
    exec (.pgetx zd pa) s = complete (s.setZ zd (s.getP pa).x) := rfl

theorem exec_pgety (zd : ZReg) (pa : PReg) (s : State) :
    exec (.pgety zd pa) s = complete (s.setZ zd (s.getP pa).y) := rfl

/-- Settles O48: each command has one end, and the coordinates read are those of the view of R232. -/
theorem pointMoves : Obligations.PointMoves := by
  refine fun s pd pa zd => ⟨?_, rfl, ?_, rfl, ?_, rfl, ?_, ?_, fun h => ?_, fun h => ?_, fun x y h => ?_⟩
  · simpa using operandFieldPlacement (.pid pd)
  · simpa using operandFieldPlacement (.pbase pd)
  · simpa using operandFieldPlacement (.pmov pd pa)
  · simpa using operandFieldPlacement (.pgetx zd pa)
  · simpa using operandFieldPlacement (.pgety zd pa)
  · rw [exec_pgetx, exec_pgety, h]
    exact ⟨rfl, rfl⟩
  · obtain ⟨hx, hy⟩ := coords_range h.1
    refine ⟨⟨_, exec_pgetx zd pa s, ?_⟩, ⟨_, exec_pgety zd pa s, ?_⟩⟩
    · rwa [State.getZ_withSt, State.getZ_setZ_self]
    · rwa [State.getZ_withSt, State.getZ_setZ_self]
  · rw [exec_pgetx, exec_pgety, h]
    exact ⟨rfl, rfl⟩

/-! ### PSET -/

/-- R233 with the equation as a divisibility. -/
theorem onCurveXY_iff_dvd (c : Curve) (x y : Int) :
    onCurveXY c x y = true ↔ (c.P : Int) ∣ (1 + c.d * x ^ 2 * y ^ 2) - (x ^ 2 + y ^ 2) := by
  rw [onCurveXY, decide_eq_true_iff]
  refine Int.modEq_iff_dvd.trans ?_
  ring_nf

/-- What PSET checks of its two coordinates (R235). -/
theorem pset_check_iff (c : Curve) (x y : Int) :
    (inField c x && inField c y && onCurveXY c x y) = true ↔
      (0 ≤ x ∧ x < c.P) ∧ (0 ≤ y ∧ y < c.P) ∧
        (c.P : Int) ∣ (1 + c.d * x ^ 2 * y ^ 2) - (x ^ 2 + y ^ 2) := by
  rw [Bool.and_eq_true, Bool.and_eq_true, onCurveXY_iff_dvd, inField, inField, decide_eq_true_iff, decide_eq_true_iff,
    and_assoc]

/-- Settles O49: the branches of PSET by its check, and those of `norm` by the pair (0, 1). -/
theorem psetChecksThePoint : Obligations.PsetChecksThePoint := by
  intro s pd za zb x y P ok
  have hiff := pset_check_iff Config.curve x y
  have hset (h : ok) : exec (.pset pd za zb) s = complete (s.setP pd (norm x y)) := if_pos (hiff.2 h)
  refine ⟨?_, fun h hx hy => ?_, fun h hxy => ?_, fun h => if_neg (mt hiff.1 h)⟩
  · simpa using operandFieldPlacement (.pset pd za zb)
  · rw [hset h, norm, if_pos ⟨hx, hy⟩]
    rfl
  · rw [hset h, norm, if_neg hxy]
    rfl

/-! ### PNEG -/

@[simp] theorem pneg_y (c : Curve) (T : Point) : (pneg c T).y = T.y := by
  cases T with
  | identity => rfl
  | affine x y => exact norm_y _ y

theorem pneg_x (c : Curve) (T : Point) : (pneg c T).x = -T.x % c.P := by
  cases T with
  | identity => rfl
  | affine x y => exact norm_x _ y

theorem exec_pneg (pd pa : PReg) (s : State) :
    exec (.pneg pd pa) s = complete (s.setP pd (pneg Config.curve (s.getP pa))) := rfl

/-- The negated coordinate, reduced (R234). -/
theorem neg_emod_of_range {m x : Int} (h0 : 0 ≤ x) (h1 : x < m) : -x % m = if x = 0 then 0 else m - x := by
  split
  · next h => simp [h]
  · exact emod_unique (by omega) (by omega) ⟨1, by ring⟩

/-- Settles O50: y stays, and the residue of −x is 0 or P − x. -/
theorem pnegMirrorsThePoint : Obligations.PnegMirrorsThePoint := by
  intro s pd pa h
  refine ⟨?_, _, exec_pneg pd pa s, pneg_wf config_complete h.1, pneg_y _ _, ?_⟩
  · simpa using operandFieldPlacement (.pneg pd pa)
  · obtain ⟨⟨h0, h1⟩, -⟩ := coords_range h.1
    rw [pneg_x, neg_emod_of_range h0 h1]

/-! ### PADD and PDBL -/

theorem exec_padd {s : State} {pa pb : PReg} (ha : (s.getP pa).onCurve Config.curve = true)
    (hb : (s.getP pb).onCurve Config.curve = true) (pd : PReg) :
    exec (.padd pd pa pb) s = complete (s.setP pd (padd Config.curve (s.getP pa) (s.getP pb))) :=
  if_pos ((Bool.and_eq_true _ _).mpr ⟨ha, hb⟩)

theorem exec_padd_of_off {s : State} {pa pb : PReg}
    (h : ¬ ((s.getP pa).onCurve Config.curve = true ∧ (s.getP pb).onCurve Config.curve = true)) (pd : PReg) :
    exec (.padd pd pa pb) s = .refused .pointNotOnCurve :=
  if_neg (mt (Bool.and_eq_true _ _).mp h)

theorem exec_pdbl_eq_padd (pd pa : PReg) (s : State) : exec (.pdbl pd pa) s = exec (.padd pd pa pa) s := by
  by_cases h : (s.getP pa).onCurve Config.curve = true
  · exact (if_pos h).trans (exec_padd h h pd).symm
  · exact (if_neg h).trans (exec_padd_of_off (fun hh => h hh.1) pd).symm

section
variable {c : Curve} (hc : CurveComplete c) {T U : Point} (hT : T.onCurve c = true) (hU : U.onCurve c = true)
include hc hT hU

/-- `denominators_ne_zero` over the integers (R233). -/
theorem denominators_not_dvd :
    ¬ (c.P : Int) ∣ 1 + c.d * T.x * U.x * T.y * U.y ∧ ¬ (c.P : Int) ∣ 1 - c.d * T.x * U.x * T.y * U.y := by
  obtain ⟨hp, hm⟩ := denominators_ne_zero hc hT hU
  rw [← ZMod.intCast_zmod_eq_zero_iff_dvd, ← ZMod.intCast_zmod_eq_zero_iff_dvd]
  push_cast
  exact ⟨hp, hm⟩

/-- `padd_coords` over the integers (R233). -/
theorem padd_coords_dvd :
    (c.P : Int) ∣ (padd c T U).x * (1 + c.d * T.x * U.x * T.y * U.y) - (T.x * U.y + T.y * U.x) ∧
    (c.P : Int) ∣ (padd c T U).y * (1 - c.d * T.x * U.x * T.y * U.y) - (T.y * U.y - T.x * U.x) := by
  obtain ⟨hx, hy⟩ := padd_coords hc hT hU
  rw [← ZMod.intCast_zmod_eq_zero_iff_dvd, ← ZMod.intCast_zmod_eq_zero_iff_dvd]
  push_cast
  exact ⟨sub_eq_zero.2 hx, sub_eq_zero.2 hy⟩

end

/-- Settles O51: the sum solves the law in the field, hence modulo P, and no denominator is 0 there. -/
theorem paddSolvesTheAdditionLaw : Obligations.PaddSolvesTheAdditionLaw := by
  refine fun s pd pa pb => ⟨?_, ?_, exec_pdbl_eq_padd pd pa s, fun h => exec_padd_of_off h pd, fun ha hb => ?_⟩
  · simpa using operandFieldPlacement (.padd pd pa pb)
  · simpa using operandFieldPlacement (.pdbl pd pa)
  · obtain ⟨hp, hm⟩ := denominators_not_dvd config_complete ha hb
    exact ⟨hp, hm, _, exec_padd ha hb pd, padd_wf config_complete ha hb, padd_coords_dvd config_complete ha hb⟩

/-- R246 (e), as commands: the sum of a register and its negative in another one is `Identity`. -/
theorem execAll_pneg_padd {s : State} {pa pb : PReg} (ha : (s.getP pa).wf Config.curve) (hne : pb ≠ pa) (pd : PReg) :
    ∃ t, execAll [.pneg pb pa, .padd pd pa pb] s = .next t ∧ t.getP pd = .identity ∧ t.st = .ok := by
  refine ⟨_, (execAll_cons (exec_pneg pb pa s) _).trans (execAll_cons (exec_padd ?_ ?_ pd) []), ?_, rfl⟩
  · rw [State.getP_withSt, State.getP_setP_ne _ _ hne]
    exact ha.1
  · rw [State.getP_withSt, State.getP_setP_self]
    exact (pneg_wf config_complete ha.1).1
  · simp only [State.getP_withSt, State.getP_setP_self, State.getP_setP_ne _ _ hne]
    exact padd_pneg config_complete ha

/-- Settles O52: the laws of the group, through the two commands. -/
theorem groupIdentities : Obligations.GroupIdentities := by
  refine fun s pd pa pb ha hb => ⟨?_, fun h => ?_, fun hne => execAll_pneg_padd ha hne pd⟩
  · rw [exec_padd ha.1 hb.1, exec_padd hb.1 ha.1, padd_comm]
  · rw [exec_padd ha.1 hb.1, h, padd_identity config_complete ha]
    rfl

/-! ### SMUL -/

theorem exec_smul {s : State} {pa : PReg} (h : (s.getP pa).onCurve Config.curve = true) (pd : PReg) (zb : ZReg) :
    exec (.smul pd pa zb) s = complete (s.setP pd (smul Config.curve (s.getP pa) (s.getZ zb))) := if_pos h

theorem exec_smul_of_off {s : State} {pa : PReg} (h : (s.getP pa).onCurve Config.curve = false) (pd : PReg)
    (zb : ZReg) : exec (.smul pd pa zb) s = .refused .pointNotOnCurve := if_neg (Bool.eq_false_iff.1 h)

/-- Settles O53: the equations of the scan are the laws of multiples. -/
theorem smulScansTheScalar : Obligations.SmulScansTheScalar := by
  refine fun s pd pa zb => ⟨?_, fun h => exec_smul_of_off h pd zb, fun hT => ?_⟩
  · simpa using operandFieldPlacement (.smul pd pa zb)
  have hone := smul_scalar_one config_complete hT
  refine ⟨exec_smul hT.1 pd zb, smul_wf config_complete hT.1 _, rfl, hone, ?_, fun k => ⟨?_, ?_, fun _ => ?_⟩⟩
  · exact (smul_scalar_neg config_complete hT 1).trans (congrArg (pneg Config.curve) hone)
  · exact smul_scalar_two_mul config_complete hT k
  · exact (smul_scalar_add_one config_complete hT (2 * k)).trans (by rw [smul_scalar_two_mul config_complete hT])
  · exact (smul_neg_natCast _ _ k).trans (smul_natCast _ _ k).symm

/-- R231, as commands: R times the base point is `Identity`. -/
theorem execAll_base_order (s : State) (pd : PReg) (zd : ZReg) :
    ∃ t, execAll [.pbase pd, .zconst zd 1, .smul pd pd zd] s = .next t ∧ t.getP pd = .identity ∧ t.st = .ok := by
  refine ⟨_, (execAll_cons (exec_pbase pd s) _).trans ((execAll_cons (exec_zconst rfl zd _) _).trans
    (execAll_cons (exec_smul ?_ pd zd) [])), ?_, rfl⟩
  · rw [State.getP_withSt, State.getP_setZ, State.getP_withSt, State.getP_setP_self]
    exact basePoint_wf.1
  · simp only [State.getP_withSt, State.getP_setP_self, State.getP_setZ, State.getZ_withSt, State.getZ_setZ_self]
    exact smul_basePoint_order

/-- Settles O54: the laws of the curve, and the order of the base point as commands. -/
theorem pointsFormAGroup : Obligations.PointsFormAGroup := ⟨config_laws, execAll_base_order⟩

end Sys2Proof.Machine
end

section
/-! SUPPORT. The signature unit SIG: the codec of signatures, what ENCSIG, DECSIG, SIGN and VERIFY answer, and that what
SIGN writes verifies (45_schnorr.md R261 to R270). -/

namespace Sys2Proof.Machine

open Sys2Proof

set_option exponentiation.threshold 1000

/-! ### The codec -/

theorem decodeSignature_of_length {sig : Bytes} (h : sig.length = 130) :
    decodeSignature sig = some (decS (sig.take 65), decS (sig.drop 65)) := if_pos h

theorem decodeSignature_of_length_ne {sig : Bytes} (h : sig.length ≠ 130) : decodeSignature sig = none := if_neg h

/-- R262: the two halves of what was encoded are the two strings of 65 bytes. -/
theorem decodeSignature_encodeSignature {h z : Int} (hh : fits65 h = true) (hz : fits65 z = true) :
    decodeSignature (encodeSignature h z) = some (h, z) := by
  rw [decodeSignature_of_length (length_encodeSignature h z), encodeSignature,
    List.take_left' (length_enc65 h), List.drop_left' (length_enc65 h), decS_enc65 hh, decS_enc65 hz]

theorem exec_encsig {s : State} {za zb : ZReg} (ha : fits65 (s.getZ za) = true) (hb : fits65 (s.getZ zb) = true)
    (bd : BReg) : exec (.encsig bd za zb) s = complete (s.setB bd (encodeSignature (s.getZ za) (s.getZ zb))) :=
  if_pos ((Bool.and_eq_true _ _).mpr ⟨ha, hb⟩)

theorem exec_encsig_of_not_fits {s : State} {za zb : ZReg}
    (h : ¬ (fits65 (s.getZ za) = true ∧ fits65 (s.getZ zb) = true)) (bd : BReg) :
    exec (.encsig bd za zb) s = raise .range s :=
  if_neg (mt (Bool.and_eq_true _ _).mp h)

theorem exec_decsig {s : State} {bb : BReg} {h z : Int} (hd : decodeSignature (s.getB bb) = some (h, z))
    (zd ze : ZReg) : exec (.decsig zd ze bb) s = complete ((s.setZ zd h).setZ ze z) := by
  rw [exec, execDecsig, hd]

theorem exec_decsig_of_none {s : State} {bb : BReg} (hd : decodeSignature (s.getB bb) = none) (zd ze : ZReg) :
    exec (.decsig zd ze bb) s = raise .format s := by
  rw [exec, execDecsig, hd]

/-- R262, as commands: DECSIG into two registers gives back what ENCSIG put into a buffer. -/
theorem execAll_encsig_decsig {s : State} {za zb zd ze : ZReg} (ha : fits65 (s.getZ za) = true)
    (hb : fits65 (s.getZ zb) = true) (hne : zd ≠ ze) (bd : BReg) :
    ∃ t, execAll [.encsig bd za zb, .decsig zd ze bd] s = .next t ∧
      t.getZ zd = s.getZ za ∧ t.getZ ze = s.getZ zb ∧ t.st = .ok := by
  refine ⟨_, (execAll_cons (exec_encsig ha hb bd) _).trans
    (execAll_cons (exec_decsig (h := s.getZ za) (z := s.getZ zb) ?_ zd ze) []), ?_, ?_, rfl⟩
  · rw [State.getB_withSt, State.getB_setB_self]
    exact decodeSignature_encodeSignature ha hb
  · rw [State.getZ_withSt, State.getZ_setZ_ne _ _ hne.symm, State.getZ_setZ_self]
  · rw [State.getZ_withSt, State.getZ_setZ_self]

/-- Settles O56: the branches of ENCSIG by the range of its operands, those of DECSIG by the length of its string. -/
theorem signatureCodec : Obligations.SignatureCodec := by
  refine fun s bd za zb zd ze => ⟨?_, ?_, fun h => ?_, fun ha hb => ?_, fun h => ?_, fun h => ?_⟩
  · simpa using operandFieldPlacement (.encsig bd za zb)
  · simpa using operandFieldPlacement (.decsig zd ze bd)
  · exact exec_encsig_of_not_fits (fun hfits => h (hfits.imp (fits65_iff _).1 (fits65_iff _).1)) bd
  · have ha65 := (fits65_iff _).2 ha
    have hb65 := (fits65_iff _).2 hb
    exact ⟨length_encodeSignature _ _, exec_encsig ha65 hb65 bd, fun hne => execAll_encsig_decsig ha65 hb65 hne bd⟩
  · exact exec_decsig_of_none (decodeSignature_of_length_ne h) zd ze
  · exact exec_decsig (decodeSignature_of_length h) zd ze

/-! ### SIGN -/

/-- 512 bits of the keyed MAC are 64 bytes (R267). -/
theorem decU_kmacxof256_lt (K X C : Bytes) : decU (kmacxof256 K X 512 C) < 2 ^ 512 := by
  have hlt := decU_lt (kmacxof256 K X 512 C)
  rwa [length_kmacxof256, ← two_pow_eight_mul] at hlt

theorem nonce_lt (sc : Int) (m : Bytes) : nonce sc m < 2 ^ 514 := by
  have hlt := decU_kmacxof256_lt (encodeInt sc) m nonceName
  rw [nonce]
  omega

theorem challenge_lt (U : Point) (m : Bytes) : challenge U m < 2 ^ 512 := decU_kmacxof256_lt _ _ _

theorem fits65_of_range {n : Int} (h0 : 0 ≤ n) (h1 : n < 2 ^ 519) : fits65 n = true :=
  (fits65_iff n).2 ⟨by omega, by omega⟩

theorem fits65_challenge (U : Point) (m : Bytes) : fits65 (challenge U m) = true := by
  have hlt := challenge_lt U m
  exact fits65_of_range (by omega) (by omega)

/-- The residue z of step 5 lies in 0 .. R − 1 (R267). -/
theorem emod_order_range (n : Int) : 0 ≤ n % Config.curve.R ∧ n % Config.curve.R < Config.curve.R := by
  have hpos : (0 : Int) < Config.curve.R := by exact_mod_cast config_laws.order_pos
  exact ⟨Int.emod_nonneg n hpos.ne', Int.emod_lt_of_pos n hpos⟩

theorem fits65_emod_order (n : Int) : fits65 (n % Config.curve.R) = true := by
  obtain ⟨h0, h1⟩ := emod_order_range n
  exact fits65_of_range h0 (h1.trans (by exact_mod_cast config_laws.order_small))

/-- The commitment U = k G of step 3 (R267). -/
def commitment (sc : Int) (m : Bytes) : Point := smul Config.curve (basePoint Config.curve) (nonce sc m)

/-- R267: a signature decodes to the challenge and the residue. -/
theorem decodeSignature_schnorrSign (sc : Int) (m : Bytes) :
    decodeSignature (schnorrSign Config.curve sc m) =
      some ((challenge (commitment sc m) m : Int),
        (nonce sc m - challenge (commitment sc m) m * sc) % Config.curve.R) :=
  decodeSignature_encodeSignature (fits65_challenge _ m) (fits65_emod_order _)

theorem exec_sign (bd : BReg) (za : ZReg) (bb : BReg) (s : State) :
    exec (.sign bd za bb) s
      = complete (s.discardCtx.setB bd (schnorrSign Config.curve (s.getZ za) (s.getB bb))) := rfl

/-- Settles O57: the nonce, the challenge and the residue are those of `schnorrSign`. -/
theorem signFollowsTheSixSteps : Obligations.SignFollowsTheSixSteps := by
  intro s bd bb za
  have hz := emod_order_range (nonce (s.getZ za) (s.getB bb)
    - challenge (commitment (s.getZ za) (s.getB bb)) (s.getB bb) * s.getZ za)
  refine ⟨?_, _, _, _, rfl, nonce_lt _ _, rfl, challenge_lt _ _, hz.1, hz.2, Int.dvd_self_sub_emod,
    decodeSignature_schnorrSign _ _, exec_sign bd za bb s⟩
  simpa using operandFieldPlacement (.sign bd za bb)

/-! ### VERIFY -/

theorem schnorrVerify_of_decode {c : Curve} {sig : Bytes} {h z : Int} (hd : decodeSignature sig = some (h, z))
    (V : Point) (m : Bytes) :
    schnorrVerify c sig V m = decide ((challenge (padd c (smul c (basePoint c) z) (smul c V h)) m : Int) = h) := by
  rw [schnorrVerify, hd]

theorem exec_verify_of_length {s : State} {ba : BReg} (h : (s.getB ba).length ≠ 130) (pb : PReg) (bc : BReg) :
    exec (.verify ba pb bc) s = complete (s.setVF false) := if_pos h

theorem exec_verify_of_off {s : State} {ba : BReg} {pb : PReg} (h : (s.getB ba).length = 130)
    (hp : (s.getP pb).onCurve Config.curve = false) (bc : BReg) :
    exec (.verify ba pb bc) s = .refused .pointNotOnCurve :=
  (if_neg (not_not.2 h)).trans (if_neg (Bool.eq_false_iff.1 hp))

theorem exec_verify {s : State} {ba : BReg} {pb : PReg} (h : (s.getB ba).length = 130)
    (hp : (s.getP pb).onCurve Config.curve = true) (bc : BReg) :
    exec (.verify ba pb bc) s
      = complete (s.discardCtx.setVF (schnorrVerify Config.curve (s.getB ba) (s.getP pb) (s.getB bc))) :=
  (if_neg (not_not.2 h)).trans (if_pos hp)

/-- Settles O58: the branches of VERIFY by the length and the point; the flag is the comparison of the challenges. -/
theorem verifyRecomputesTheChallenge : Obligations.VerifyRecomputesTheChallenge := by
  refine fun s ba bc pb => ⟨?_, fun hl => exec_verify_of_length hl pb bc, fun hl hp => exec_verify_of_off hl hp bc,
    fun hl hp => ?_⟩
  · simpa using operandFieldPlacement (.verify ba pb bc)
  intro h z U h'
  have hver : schnorrVerify Config.curve (s.getB ba) (s.getP pb) (s.getB bc) = decide (h' = h) :=
    schnorrVerify_of_decode (decodeSignature_of_length hl) _ _
  rw [exec_verify hl hp, hver]
  refine ⟨fun heq => ?_, fun hne => ?_⟩
  · rw [decide_eq_true heq]
    rfl
  · rw [decide_eq_false hne]
    rfl

/-! ### A signature verifies -/

/-- Every multiple of the identity is the identity. -/
theorem smul_identity {c : Curve} (hc : CurveComplete c) (k : Int) : smul c .identity k = .identity :=
  let := pointGroup hc
  congrArg Subtype.val (zsmul_zero (α := CurvePoint c) k)

/-- R246 (d): multiples of the base point depend on the scalar modulo R alone. -/
theorem smul_basePoint_congr {j k : Int} (h : (Config.curve.R : Int) ∣ j - k) :
    smul Config.curve (basePoint Config.curve) j = smul Config.curve (basePoint Config.curve) k := by
  obtain ⟨q, hq⟩ := h
  have hj : j = k + Config.curve.R * q := by omega
  have hwf := smul_wf config_complete basePoint_wf.1 k
  rw [hj, smul_scalar_add config_complete basePoint_wf, ← smul_scalar_mul config_complete basePoint_wf,
    smul_basePoint_order, smul_identity config_complete, padd_identity config_complete hwf]

/-- The equation behind R269: z G + h (s G) is k G when z is the residue of k − h s. -/
theorem padd_smul_residue (sc k h : Int) :
    padd Config.curve (smul Config.curve (basePoint Config.curve) ((k - h * sc) % Config.curve.R))
        (smul Config.curve (smul Config.curve (basePoint Config.curve) sc) h)
      = smul Config.curve (basePoint Config.curve) k := by
  rw [smul_scalar_mul config_complete basePoint_wf, ← smul_scalar_add config_complete basePoint_wf]
  refine smul_basePoint_congr ?_
  convert dvd_emod_sub (Config.curve.R : Int) (k - h * sc) using 1
  ring

/-- R269, as a function: verification recomputes the commitment, hence the challenge. -/
theorem schnorrVerify_schnorrSign (sc : Int) (m : Bytes) :
    schnorrVerify Config.curve (schnorrSign Config.curve sc m) (smul Config.curve (basePoint Config.curve) sc) m
      = true := by
  rw [schnorrVerify_of_decode (decodeSignature_schnorrSign sc m), padd_smul_residue]
  exact decide_eq_true rfl

/-- SIGN and then VERIFY, under the public point of the scalar (R269). -/
theorem execAll_sign_verify {s : State} {p : PReg} {z : ZReg} {b0 b1 : BReg} (hb : b1 ≠ b0)
    (hp : s.getP p = smul Config.curve (basePoint Config.curve) (s.getZ z)) :
    ∃ t, execAll [.sign b1 z b0, .verify b1 p b0] s = .next t ∧ t.vf = true ∧ t.st = .ok := by
  refine ⟨_, (execAll_cons (exec_sign b1 z b0 s) _).trans (execAll_cons (exec_verify ?_ ?_ b0) []), ?_, rfl⟩
  · rw [State.getB_withSt, State.getB_setB_self, length_schnorrSign]
  · rw [State.getP_withSt, State.getP_setB, State.getP_discardCtx, hp]
    exact (smul_wf config_complete basePoint_wf.1 _).1
  · simp only [State.setVF_vf, State.getB_withSt, State.getP_withSt, State.getB_setB_self, State.getB_setB_ne _ _ hb,
      State.getB_discardCtx, State.getP_setB, State.getP_discardCtx, hp]
    exact schnorrVerify_schnorrSign _ _

/-- PBASE and then SMUL leave the public point of a scalar in a register and keep the scalar (R269). -/
theorem execAll_pbase_smul (s : State) (p : PReg) (z : ZReg) :
    ∃ t, execAll [.pbase p, .smul p p z] s = .next t ∧
      t.getP p = smul Config.curve (basePoint Config.curve) (t.getZ z) := by
  refine ⟨_, (execAll_cons (exec_pbase p s) _).trans (execAll_cons (exec_smul ?_ p z) []), ?_⟩
  · rw [State.getP_withSt, State.getP_setP_self]
    exact basePoint_wf.1
  · simp only [State.getP_withSt, State.getP_setP_self, State.getZ_withSt, State.getZ_setP]

/-- Settles O59: the first two commands make the public point, and the signature under it verifies. -/
theorem signedMessagesVerify : Obligations.SignedMessagesVerify := by
  refine ⟨schnorrVerify_schnorrSign, fun s p z b0 b1 hb => ?_⟩
  obtain ⟨u, hu, hp⟩ := execAll_pbase_smul s p z
  obtain ⟨t, ht, hvf, hst⟩ := execAll_sign_verify hb hp
  exact ⟨t, (execAll_append hu _).trans ht, hvf, hst⟩

end Sys2Proof.Machine
end

section
/-! SUPPORT. The system commands and the buffer commands: what NOP, ZEROIZE, BCLR, BMOV and BCAT answer (46_system.md
R280 to R288). -/

namespace Sys2Proof.Machine

open Sys2Proof

theorem exec_nop (s : State) : exec .nop s = complete s := rfl

theorem exec_zeroize (s : State) :
    exec .zeroize s = complete { State.reset with inbox := s.inbox, reply := s.reply } := rfl

theorem exec_bclr (bd : BReg) (s : State) : exec (.bclr bd) s = complete (s.setB bd []) := rfl

theorem exec_bmov (bd ba : BReg) (s : State) : exec (.bmov bd ba) s = complete (s.setB bd (s.getB ba)) := rfl

theorem exec_bcat_of_le {s : State} {ba bb : BReg} (h : (s.getB ba).length + (s.getB bb).length ≤ 65535) (bd : BReg) :
    exec (.bcat bd ba bb) s = complete (s.setB bd (s.getB ba ++ s.getB bb)) :=
  storeBounded_of_le (List.length_append.trans_le h) bd s

theorem exec_bcat_of_gt {s : State} {ba bb : BReg} (h : 65535 < (s.getB ba).length + (s.getB bb).length) (bd : BReg) :
    exec (.bcat bd ba bb) s = raise .overflow s :=
  storeBounded_of_gt (h.trans_eq List.length_append.symm) bd s

/-- Settles O21: the words are those of the field placement, and BCAT is a bounded store of the joined string. -/
theorem systemAndBufferCommands : Obligations.SystemAndBufferCommands := by
  refine fun s bd ba bb => ⟨rfl, exec_nop s, rfl, exec_zeroize s, ?_, exec_bclr bd s, ?_, exec_bmov bd ba s, ?_,
    fun h => exec_bcat_of_le h bd, fun h => exec_bcat_of_gt h bd⟩
  · simpa using operandFieldPlacement (.bclr bd)
  · simpa using operandFieldPlacement (.bmov bd ba)
  · simpa using operandFieldPlacement (.bcat bd ba bb)

end Sys2Proof.Machine
end

section
/-! SUPPORT. Errors: which a command can raise, and that raising one is the write of `ST` alone (60_exceptions.md R292,
R293). -/

namespace Sys2Proof.Machine

open Sys2Proof

/-- A command completes with OK, or raises one of its errors: then `ST` alone is written. -/
theorem Ends.ok_or_error {i : Instr} {s t : State} (he : Ends i s t) :
    t.st = .ok ∨ ∃ e ∈ errorsOf i, t = { s with st := e } := by
  cases he with
  | error hmem => exact .inr ⟨_, hmem, rfl⟩
  | _ => exact .inl rfl

theorem exec_ok_or_error {i : Instr} {s t : State} (h : exec i s = .next t) :
    t.st = .ok ∨ ∃ e ∈ errorsOf i, t = { s with st := e } :=
  (exec_endsIn i s t h).ok_or_error

/-- Settles O13: a state that is not OK is an error's, and no command reads the `ST` it wrote. -/
theorem errorsArePrecise : Obligations.ErrorsArePrecise := by
  intro i s t h hst
  obtain hok | ⟨e, -, rfl⟩ := exec_ok_or_error h
  · exact absurd hok hst
  · exact ⟨rfl, fun j => exec_setSt j s e⟩

/-- Settles O20: the errors in the ends of a command are those of its row, also for an ill-formed ZCONST. -/
theorem errorCodesByCommand : Obligations.ErrorCodesByCommand := by
  intro i s t _ h
  obtain hok | ⟨e, he, rfl⟩ := exec_ok_or_error h
  · exact .inl hok
  · exact .inr he

end Sys2Proof.Machine
end

section
/-! SUPPORT. Completion: from a state that meets the invariant every command and every step answers a next state
(70_reset_and_hazards.md R333). -/

namespace Sys2Proof.Machine

open Sys2Proof

/-- The result is a next state, neither a fault nor a refusal. -/
def Completes (r : Result) : Prop := ∃ t, r = .next t

theorem Completes.complete (s : State) : Completes (complete s) := ⟨_, rfl⟩

theorem Completes.raise (e : Status) (s : State) : Completes (raise e s) := ⟨_, rfl⟩

theorem Completes.ite {p : Prop} [Decidable p] {a b : Result} (ha : Completes a) (hb : Completes b) :
    Completes (if p then a else b) := by
  split
  · exact ha
  · exact hb

theorem exec_verify_completes {s : State} {pb : PReg} (hp : (s.getP pb).onCurve Config.curve = true) (ba bc : BReg) :
    Completes (exec (.verify ba pb bc) s) := by
  by_cases hl : (s.getB ba).length = 130
  · exact ⟨_, exec_verify hl hp bc⟩
  · exact ⟨_, exec_verify_of_length hl pb bc⟩

/-- Every arm ends in `complete` or `raise`, but for PADD, PDBL, SMUL and VERIFY off the curve, where the invariant has
no point (R31). -/
theorem exec_completes {s : State} (h : s.Inv) (i : Instr) : Completes (exec i s) := by
  have hp : ∀ r : PReg, (s.getP r).onCurve Config.curve = true := fun r => (h.points r).1
  cases i with
  | padd pd pa pb => exact ⟨_, exec_padd (hp pa) (hp pb) pd⟩
  | pdbl pd pa => exact exec_pdbl_eq_padd pd pa s ▸ ⟨_, exec_padd (hp pa) (hp pa) pd⟩
  | smul pd pa zb => exact ⟨_, exec_smul (hp pa) pd zb⟩
  | verify ba pb bc => exact exec_verify_completes (hp pb) ba bc
  | sinit | sha3 | decsig =>
    simp only [exec, execSinit, execSha3, execDecsig]
    split
    · exact .raise _ s
    · exact .complete _
  | zconst zd sel =>
    rw [exec, execZconst]
    split
    · exact .complete _
    · exact .raise _ s
  | bcat | kld | absorb | final | lenc | renc | encstr | setlen | xof => exact .ite (.raise _ s) (.complete _)
  | zlds | zldu | minv => exact .ite (.raise _ s) (.complete _)
  | zst65 | zmul4 | pset | encsig => exact .ite (.complete _) (.raise _ s)
  | squeeze | bytepad | kmacx => exact .ite (.raise _ s) (.ite (.raise _ s) (.complete _))
  | _ => exact .complete _

/-- A word that is no command completes with E_ILLEGAL (R97). -/
theorem runWord_completes {s : State} (h : s.Inv) (w : Word) : Completes (runWord w s) := by
  unfold runWord
  split
  · exact exec_completes h _
  · exact .raise _ s

/-- A host action whose data the port can express completes. -/
theorem hostAct_completes {a : HostAction} {s : State} (h : s.Inv) (ha : inboxOk [a]) : Completes (hostAct a s) := by
  cases a with
  | write i v => exact ⟨_, if_pos (ha _ (List.mem_singleton_self _))⟩
  | command w => exact runWord_completes (h.setReply none) w
  | read | status | reset => exact ⟨_, rfl⟩

theorem step_completes {s : State} (h : s.Inv) : Completes (step s) := by
  cases hi : s.inbox with
  | nil => exact ⟨s, step_of_inbox_nil hi⟩
  | cons a rest =>
    have ha : inboxOk [a] := fun b hb => h.inbox b (by rw [hi, List.mem_singleton.1 hb]; exact List.mem_cons_self)
    rw [step_of_inbox hi]
    exact hostAct_completes (h.takeAction hi s.reply) ha

/-- Settles O12: no arm of `exec` ends in a fault, the invariant keeps the points on the curve and the writes of the
host within a buffer, and those are the only refusals. -/
theorem everyStepCompletes : Obligations.EveryStepCompletes := fun _ h => ⟨exec_completes h, step_completes h⟩

end Sys2Proof.Machine
end
